-- ==== Sys2Proof/Word.lean ====
section
/-! DEFINITION. Words and the values that cross the block's interface: bytes, 16-bit sums, stream symbols, sink answers,
payloads and Packets (spec/10_state.md R30, spec/20_memory.md R50 and R55). -/

namespace Sys2Proof

/-- UInt8 of the spec (00_scope.md R11: bit 0 is the least significant bit). -/
abbrev Byte := BitVec 8

/-- UInt16 of the spec. -/
abbrev Word := BitVec 16

/-- The byte at frame offset 0 (00_scope.md R8, START_MARKER). -/
abbrev startMarker : Byte := 0xFE

/-- An error value of the underlying stream: an opaque token that the block passes on and never inspects
(00_scope.md R9 `IoErr`, 92_eei_decisions.md D9). DESIGN CHOICE (safe), log entry 2: the token is a number. -/
structure IoErr where
  token : Nat
  deriving DecidableEq, Repr

/-- A symbol of the decoder's byte source (20_memory.md R50). -/
inductive Symbol where
  | byte (b : Byte)
  | endOfSource
  | err (e : IoErr)
  deriving DecidableEq, Repr

/-- What the host answers to a sink request (20_memory.md R55). -/
inductive Answer where
  | accepted (k : Nat)
  | err (e : IoErr)
  deriving DecidableEq, Repr

/-- A payload carries its own bound: "Invariant: `payload.length <= 255` always" (10_state.md R30), so a longer one cannot
be written down (93_implementation_defined.md U11). -/
structure Payload where
  bytes : List Byte
  bound : bytes.length ≤ 255
  deriving DecidableEq, Repr

/-- The Packet value (10_state.md R30). -/
structure Packet where
  sequenceId  : Byte
  systemId    : Byte
  componentId : Byte
  messageId   : Byte
  payload     : Payload
  checksum    : Word
  deriving DecidableEq, Repr

end Sys2Proof
end

