-- ==== Sys2Proof/Syntax.lean ====
section
/-! DEFINITION. The twelve commands of spec/30_encoding.md R81, one constructor per row of spec/opcode_table.json. -/

namespace Sys2Proof

/-- A command with its operands (30_encoding.md R80 to R82). The counts n, k and L of the formats CB, CN and CP are the
lengths of the lists, as an assembler derives them (R86); WellFormed bounds them. -/
inductive Instr where
  /-- CRC.INIT, 0x01, C0. -/
  | crcInit
  /-- CRC.BYTE b, 0x02, C8. -/
  | crcByte (b : Byte)
  /-- CRC.BLOCK data, 0x03, CB. -/
  | crcBlock (data : List Byte)
  /-- CRC.FINAL, 0x04, C0. -/
  | crcFinal
  /-- REG.NEW [d0, …], 0x10, CN. -/
  | regNew (ds : List Byte)
  /-- REG.REGISTER d, 0x11, C8. -/
  | regRegister (d : Byte)
  /-- REG.LOOKUP id, 0x12, C8. -/
  | regLookup (id : Byte)
  /-- DEC.DECODE, 0x20, C0. -/
  | decDecode
  /-- DEC.DECODE_BUF BUF, 0x21, CB. -/
  | decDecodeBuf (buf : List Byte)
  /-- DEC.SEQ, 0x22, C0. -/
  | decSeq
  /-- ENC.PACKET sys, comp, msg, payload, seq_in, 0x30, CP; the fields in the order of the command's bytes. -/
  | encPacket (seqIn sys comp msg : Byte) (payload : List Byte)
  /-- ENC.SEQ, 0x31, C0. -/
  | encSeq
  deriving DecidableEq, Repr

end Sys2Proof
end

