-- ==== Sys2Proof/WellFormed.lean ====
section
/-! DEFINITION. Which commands can be written down: the bounds the formats put on the counts (spec/30_encoding.md R80, R86). -/

namespace Sys2Proof

/-- Longest CB sequence: n is a 16-bit count (30_encoding.md R80). -/
abbrev maxBlock : Nat := 65535
/-- Longest CN list: k is an 8-bit count (30_encoding.md R80). -/
abbrev maxDialectList : Nat := 255
/-- Longest CP payload: L is an 8-bit count (30_encoding.md R80, 00_scope.md R8 MAX_PAYLOAD). -/
abbrev maxPayload : Nat := 255

/-- "A CB sequence longer than 65535 bytes, a CN list longer than 255 entries or a CP payload longer than 255 bytes does not
assemble" (30_encoding.md R86). -/
def Instr.wellFormed : Instr → Bool
  | .crcInit => true
  | .crcByte _ => true
  | .crcBlock data => decide (data.length ≤ maxBlock)
  | .crcFinal => true
  | .regNew ds => decide (ds.length ≤ maxDialectList)
  | .regRegister _ => true
  | .regLookup _ => true
  | .decDecode => true
  | .decDecodeBuf buf => decide (buf.length ≤ maxBlock)
  | .decSeq => true
  | .encPacket _ _ _ _ payload => decide (payload.length ≤ maxPayload)
  | .encSeq => true

/-- A command every count of which fits its format. -/
abbrev Instr.WellFormed (i : Instr) : Prop := i.wellFormed = true

end Sys2Proof
end

