-- ==== Sys2Proof/Decode.lean ====
section
/-! DEFINITION. Byte-order helpers, the opcode map, the command decoder and the encoder (spec/30_encoding.md R80 to R85,
spec/20_memory.md R52). -/

namespace Sys2Proof

/-! Byte order (20_memory.md R52). -/

/-- `zext_16` of a byte (00_scope.md R11). -/
def zext16 (b : Byte) : Word := b.zeroExtend 16

/-- `zext_16(lo) | (zext_16(hi) << 8)` (20_memory.md R52). -/
def le16 (lo hi : Byte) : Word := zext16 lo ||| (zext16 hi <<< 8)

/-- `c[7:0]`. -/
def loByte (c : Word) : Byte := c.extractLsb' 0 8

/-- `c[15:8]`. -/
def hiByte (c : Word) : Byte := c.extractLsb' 8 8

/-! The opcode map (30_encoding.md R81). -/

/-- The command formats (30_encoding.md R80). -/
inductive Format where
  | c0 | c8 | cb | cn | cp
  deriving DecidableEq, Repr

/-- The twelve functions of the opcode map. -/
inductive Op where
  | crcInit | crcByte | crcBlock | crcFinal
  | regNew | regRegister | regLookup
  | decDecode | decDecodeBuf | decSeq
  | encPacket | encSeq
  deriving DecidableEq, Repr

/-- The rows of 30_encoding.md R81: opcode byte, function, format. -/
def opcodeTable : List (Byte × Op × Format) :=
  [ (0x01, .crcInit, .c0), (0x02, .crcByte, .c8), (0x03, .crcBlock, .cb), (0x04, .crcFinal, .c0),
    (0x10, .regNew, .cn), (0x11, .regRegister, .c8), (0x12, .regLookup, .c8),
    (0x20, .decDecode, .c0), (0x21, .decDecodeBuf, .cb), (0x22, .decSeq, .c0),
    (0x30, .encPacket, .cp), (0x31, .encSeq, .c0) ]

/-- The row of an opcode byte; `none` for an illegal one (30_encoding.md R85). -/
def opcodeRow (b : Byte) : Option (Op × Format) := opcodeTable.lookup b

/-- The opcode byte of a function (30_encoding.md R81). -/
def Op.byte : Op → Byte
  | .crcInit => 0x01
  | .crcByte => 0x02
  | .crcBlock => 0x03
  | .crcFinal => 0x04
  | .regNew => 0x10
  | .regRegister => 0x11
  | .regLookup => 0x12
  | .decDecode => 0x20
  | .decDecodeBuf => 0x21
  | .decSeq => 0x22
  | .encPacket => 0x30
  | .encSeq => 0x31

/-! The decoder. -/

/-- What a record on the command port is: a command, a record whose opcode is not in the map (30_encoding.md R85), or bytes
that are not one whole command ("A command cut short … is not a command", R84). -/
inductive Decoded where
  | command (i : Instr)
  | illegal (opcode : Byte)
  | notWhole
  deriving DecidableEq, Repr

/-- Format C0: the opcode alone. -/
def takeC0 (i : Instr) : List Byte → Decoded
  | [] => .command i
  | _ => .notWhole

/-- Format C8: one operand byte. -/
def takeC8 (f : Byte → Instr) : List Byte → Decoded
  | [b] => .command (f b)
  | _ => .notWhole

/-- Format CB: a 16-bit little-endian count n and n data bytes. -/
def takeCB (f : List Byte → Instr) : List Byte → Decoded
  | lo :: hi :: data => if data.length = (le16 lo hi).toNat then .command (f data) else .notWhole
  | _ => .notWhole

/-- Format CN: an 8-bit count k and k dialect indices. -/
def takeCN (f : List Byte → Instr) : List Byte → Decoded
  | k :: ds => if ds.length = k.toNat then .command (f ds) else .notWhole
  | _ => .notWhole

/-- Format CP: L, seq_in, sys, comp, msg and L payload bytes. -/
def takeCP (f : Byte → Byte → Byte → Byte → List Byte → Instr) : List Byte → Decoded
  | l :: seqIn :: sys :: comp :: msg :: payload =>
    if payload.length = l.toNat then .command (f seqIn sys comp msg payload) else .notWhole
  | _ => .notWhole

/-- The operands of one function, read in its format (30_encoding.md R81, R82). -/
def decodeOperands (op : Op) (rest : List Byte) : Decoded :=
  match op with
  | .crcInit => takeC0 .crcInit rest
  | .crcByte => takeC8 .crcByte rest
  | .crcBlock => takeCB .crcBlock rest
  | .crcFinal => takeC0 .crcFinal rest
  | .regNew => takeCN .regNew rest
  | .regRegister => takeC8 .regRegister rest
  | .regLookup => takeC8 .regLookup rest
  | .decDecode => takeC0 .decDecode rest
  | .decDecodeBuf => takeCB .decDecodeBuf rest
  | .decSeq => takeC0 .decSeq rest
  | .encPacket => takeCP .encPacket rest
  | .encSeq => takeC0 .encSeq rest

/-- Decode one record of the command port, total on any bytes. -/
def decode : List Byte → Decoded
  | [] => .notWhole
  | opcode :: rest =>
    match opcodeRow opcode with
    | some (op, _) => decodeOperands op rest
    | none => .illegal opcode

/-- The length of a command in bytes from its opcode and the two bytes after it (30_encoding.md R84); `none` for an illegal
opcode. -/
def commandLength (opcode byte1 byte2 : Byte) : Option Nat :=
  match opcodeRow opcode with
  | some (_, .c0) => some 1
  | some (_, .c8) => some 2
  | some (_, .cb) => some (3 + (le16 byte1 byte2).toNat)
  | some (_, .cn) => some (2 + byte1.toNat)
  | some (_, .cp) => some (6 + byte1.toNat)
  | none => none

/-! The encoder, written from the formats of 30_encoding.md R80. -/

def encodeC0 (op : Op) : List Byte := [op.byte]

def encodeC8 (op : Op) (b : Byte) : List Byte := [op.byte, b]

def encodeCB (op : Op) (data : List Byte) : List Byte :=
  let n : Word := BitVec.ofNat 16 data.length
  op.byte :: loByte n :: hiByte n :: data

def encodeCN (op : Op) (ds : List Byte) : List Byte :=
  op.byte :: BitVec.ofNat 8 ds.length :: ds

def encodeCP (op : Op) (seqIn sys comp msg : Byte) (payload : List Byte) : List Byte :=
  op.byte :: BitVec.ofNat 8 payload.length :: seqIn :: sys :: comp :: msg :: payload

/-- The bytes of a well-formed command. -/
def encode : Instr → List Byte
  | .crcInit => encodeC0 .crcInit
  | .crcByte b => encodeC8 .crcByte b
  | .crcBlock data => encodeCB .crcBlock data
  | .crcFinal => encodeC0 .crcFinal
  | .regNew ds => encodeCN .regNew ds
  | .regRegister d => encodeC8 .regRegister d
  | .regLookup id => encodeC8 .regLookup id
  | .decDecode => encodeC0 .decDecode
  | .decDecodeBuf buf => encodeCB .decDecodeBuf buf
  | .decSeq => encodeC0 .decSeq
  | .encPacket seqIn sys comp msg payload => encodeCP .encPacket seqIn sys comp msg payload
  | .encSeq => encodeC0 .encSeq

/-! The host's table words: a command given as a number. -/

/-- The first `n` bytes of a number, the least significant first. -/
def numberBytes : Nat → Nat → List Byte
  | 0, _ => []
  | n + 1, w => BitVec.ofNat 8 w :: numberBytes n (w / 256)

/-- A record of exactly the command's length, cut or filled with zero bytes; the bytes themselves where the opcode is
illegal. -/
def wholeRecord (bytes : List Byte) : List Byte :=
  match commandLength (bytes.getD 0 0) (bytes.getD 1 0) (bytes.getD 2 0) with
  | some n => (bytes ++ List.replicate (n - bytes.length) 0).take n
  | none => bytes

/-- The record of a table row's word: `nbits` bits of `w`, every later bit of the command 0. -/
def tableRecord (nbits w : Nat) : List Byte :=
  wholeRecord (numberBytes ((nbits + 7) / 8) (w % 2 ^ nbits))

/-- The instruction the decoder reads from a table row's word. -/
def decodeTableWord (nbits w : Nat) : Option Instr :=
  match decode (tableRecord nbits w) with
  | .command i => some i
  | .illegal _ => none
  | .notWhole => none

end Sys2Proof
end

