-- ==== Sys2Proof/Config.lean ====
section
/-! DEFINITION. What the spec leaves to the implementation (spec/00_scope.md R9) and the free values it leaves open
(spec/93_implementation_defined.md U3 to U6). The opaque constants have no body: no proof can learn a value of one. -/

namespace Sys2Proof

/-- One dialect, the total function UInt8 → Option UInt8 of 00_scope.md R9, as plain data: (message id, crc-extra) pairs.
An id that is not listed is `none`; where an id is listed twice the first pair counts, so each id has at most one
crc-extra (41_registry.md R127). DESIGN CHOICE (safe), log entry 17. -/
abbrev Dialect := List (Byte × Byte)

/-- The parameters of 00_scope.md R9. NUM_DIALECTS is the length of `dialects` and DIALECT(d) its entry at d. -/
structure Config where
  dialects       : List Dialect
  defaultDialect : Byte
  maxBuf         : Nat
  decSeqReset    : Byte
  encSeqReset    : Byte
  deriving DecidableEq, Repr

/-- NUM_DIALECTS (00_scope.md R9). -/
abbrev Config.numDialects (c : Config) : Nat := c.dialects.length

/-- The ranges 00_scope.md R9 gives the parameters: 1 ≤ NUM_DIALECTS ≤ 256, DEFAULT_DIALECT < NUM_DIALECTS,
MAX_BUF ≤ 65535. -/
abbrev Config.WellFormed (c : Config) : Prop :=
  1 ≤ c.numDialects ∧ c.numDialects ≤ 256 ∧ c.defaultDialect.toNat < c.numDialects ∧ c.maxBuf ≤ 65535

/-- The board's own parameters, each of them open (92_eei_decisions.md D4, D5, D11, D27). Log entries 1 and 9. -/
opaque Config.firstDialect : Dialect
opaque Config.moreDialects : List Dialect
opaque Config.defaultChoice : Nat
opaque Config.maxBufChoice : Fin 65536
opaque Config.boardDecSeqReset : Byte
opaque Config.boardEncSeqReset : Byte

/-- The configuration the block is created with: any one that 00_scope.md R9 allows, since every well-formed
configuration is this expression for some values of the opaque constants. -/
def Config.board : Config :=
  let ds := Config.firstDialect :: Config.moreDialects.take 255
  { dialects       := ds
    defaultDialect := BitVec.ofNat 8 (Config.defaultChoice % ds.length)
    maxBuf         := Config.maxBufChoice.val
    decSeqReset    := Config.boardDecSeqReset
    encSeqReset    := Config.boardEncSeqReset }

/-- DEC_CRC at reset: "any value" (10_state.md R27). Log entry 9. -/
opaque Config.decCrcReset : Word

/-- SRC at reset: "whatever the bound stream holds" (70_reset_and_hazards.md R252). Log entry 9. -/
opaque Config.boundSource : List Symbol

/-- Free values, one per draw number (log entry 8): the diagnostic packet of a header cut short (42_decoder.md R146). -/
opaque Config.freeDiagnostic : Nat → Option Packet
/-- The payload of a diagnostic packet whose payload is a draw (42_decoder.md R150, R156), before the 255-byte bound. -/
opaque Config.freeBytes : Nat → List Byte
/-- The checksum of a diagnostic packet whose checksum is a draw (42_decoder.md R150, R156). -/
opaque Config.freeChecksum : Nat → Word
/-- DEC_CRC after a DEC.DECODE_BUF (10_state.md R21; log entry 10). -/
opaque Config.freeSum : Nat → Word
/-- ENC_FRAME after UNKNOWN_MESSAGE (43_encoder.md R196), before the 263-byte bound. -/
opaque Config.freeFrame : Nat → List Byte

end Sys2Proof
end

