-- ==== Sys2Proof/Machine/State.lean ====
section
/-! DEFINITION. The machine's state as plain data (spec/10_state.md R20 to R36), its stops, and the state at reset
(spec/70_reset_and_hazards.md R250 to R252). The block has no addressable memory (spec/20_memory.md R56), so State holds no
list of memory cells. -/

namespace Sys2Proof.Machine

/-- DEC_PHASE (10_state.md R26). BODY(i) takes any index here; the range i ≤ L + 1 is part of the invariant (Safety.lean). -/
inductive DecPhase where
  | idle
  | seeking
  | header (k : Fin 5)
  | body (i : Nat)
  | verify
  deriving DecidableEq, Repr

/-- ENC_PHASE (10_state.md R28). -/
inductive EncPhase where
  | idle
  | flush
  deriving DecidableEq, Repr

/-- The model faults of 60_exceptions.md R228. -/
inductive ModelFault where
  | illegal
  | busy
  | registryRace
  | uninit
  | badDialect
  | badOperand
  | oob
  deriving DecidableEq, Repr

/-- FAULTS, the set of model faults recorded so far (10_state.md R29): one mark per name, so equal sets are equal data. -/
structure FaultSet where
  illegal      : Bool
  busy         : Bool
  registryRace : Bool
  uninit       : Bool
  badDialect   : Bool
  badOperand   : Bool
  oob          : Bool
  deriving DecidableEq, Repr

/-- ∅. -/
def FaultSet.empty : FaultSet := ⟨false, false, false, false, false, false, false⟩

/-- The statuses of 60_exceptions.md R220. -/
inductive Status where
  | ok
  | endOfStream
  | truncated
  | invalidHeader
  | unknownMessage
  | checksumMismatch
  | shortWrite
  | ioError (e : IoErr)
  deriving DecidableEq, Repr

/-- A response (10_state.md R31). -/
structure Response where
  status : Status
  packet : Option Packet
  value  : Option Word
  deriving DecidableEq, Repr

/-- The four units that execute commands (20_memory.md R61). -/
inductive BlockUnit where
  | crc
  | registry
  | decoder
  | encoder
  deriving DecidableEq, Repr

/-- The response port: each unit's responses, oldest first. One list per unit, because "Responses of different units are not
ordered relative to each other" (20_memory.md R61 item 5). DESIGN CHOICE (safe), log entry 3. -/
structure Responses where
  crc      : List Response
  registry : List Response
  decoder  : List Response
  encoder  : List Response
  deriving DecidableEq, Repr

/-- No response yet. -/
def Responses.none : Responses := ⟨[], [], [], []⟩

/-- What happens next at the block's boundary or inside it: a host action (60_exceptions.md R237) or a turn of the decoder.
DESIGN CHOICE (safe), log entry 4: the interleaving of 20_memory.md R61 item 3 is a list in State, so a claim about every
state is a claim about every interleaving. -/
inductive Move where
  /-- The host puts one record of bytes on the command port. -/
  | command (record : List Byte)
  /-- The host appends a symbol to SRC. -/
  | source (x : Symbol)
  /-- The host answers the sink request. -/
  | answer (a : Answer)
  /-- The decoder takes its next step, if it has one. -/
  | decoder
  deriving DecidableEq, Repr

/-- The state. The first twelve fields after `cfg` are the record of 10_state.md R20, in its order. -/
structure State where
  /-- The parameters of 00_scope.md R9, constant (R10). Log entry 1. -/
  cfg       : Config
  /-- ACC (10_state.md R22). -/
  acc       : Option Word
  /-- REG_LIST (10_state.md R23). -/
  regList   : List Byte
  /-- DEC_PHASE (10_state.md R26). -/
  decPhase  : DecPhase
  /-- DEC_HDR (10_state.md R27): L, sequence id, system id, component id, message id. -/
  decHdr    : Vector (Option Byte) 5
  /-- DEC_PAY (10_state.md R27). -/
  decPay    : Vector (Option Byte) 255
  /-- DEC_CK (10_state.md R27): low byte, high byte. -/
  decCk     : Vector (Option Byte) 2
  /-- DEC_CRC (10_state.md R27). -/
  decCrc    : Word
  /-- DEC_SEQ (10_state.md R24). -/
  decSeq    : Byte
  /-- ENC_PHASE (10_state.md R28). -/
  encPhase  : EncPhase
  /-- ENC_SEQ, the sequence id of the next frame (10_state.md R25, 90_conflicts.md C7). -/
  encSeq    : Byte
  /-- ENC_FRAME (10_state.md R28); the pending sink request while ENC_PHASE = FLUSH. -/
  encFrame  : List Byte
  /-- FAULTS (10_state.md R29). -/
  faults    : FaultSet
  /-- SRC, the symbols not yet consumed (20_memory.md R50). -/
  src       : List Symbol
  /-- SNK, the bytes the sink has accepted (20_memory.md R55). -/
  snk       : List Byte
  /-- The response port (10_state.md R31). -/
  responses : Responses
  /-- The model's own field: what happens next, in order (log entry 4). -/
  moves     : List Move
  /-- The model's own field: how many free values have been taken (log entry 8). -/
  draws     : Nat
  deriving DecidableEq, Repr

/-- Why a step stops with a fault. A model fault of 60_exceptions.md R228 is NOT one of these: it is recorded in FAULTS by a
next state (log entry 7). -/
inductive Fault where
  /-- Raised by a decoder step (BODY, VERIFY) that reads a frame register no step of this decode has written. Safe: the
  invariant of Safety.lean rules it out, so no run from reset reaches it (log entry 12). -/
  | unwrittenFrameRegister
  /-- Raised by a decoder BODY(i) step with i > L + 1. Safe: ruled out by the same invariant (log entry 12). -/
  | bodyIndexPastFrame
  deriving DecidableEq, Repr

/-- Why a step is refused: the input is one the spec says cannot be written down or has no move. -/
inductive Refusal where
  /-- Raised by exec's arm of an instruction that has no meaning yet; no arm raises it now. Safe. -/
  | notModelled (mnemonic : String)
  /-- Raised by the meaning of a command whose list is longer than its format's count allows: it "does not assemble"
  (30_encoding.md R86) and is "refused before it reaches the block" (10_state.md R30). Safe (log entry 15). -/
  | operandTooLong
  /-- Raised by the command port for a record that is not one whole command: it "is not a command" (30_encoding.md R84).
  Safe (log entry 6). -/
  | notWholeCommand
  /-- Raised by a sink answer when no request is pending: "answer only when a request is pending" (60_exceptions.md R237).
  Safe (log entry 13). -/
  | noPendingRequest
  /-- Raised by the sink answer Accepted(k) with k > len(s), which "has no move in the model" (20_memory.md R55). Safe (log
  entry 13). -/
  | acceptedTooMuch
  deriving DecidableEq, Repr

/-- The block created by binding a byte stream (70_reset_and_hazards.md R250, values of 10_state.md R36): configuration `c`,
the stream's symbols `source`, and any value `decCrc` in DEC_CRC. -/
def State.bind (c : Config) (source : List Symbol) (decCrc : Word) : State where
  cfg       := c
  acc       := none
  regList   := [c.defaultDialect]
  decPhase  := .idle
  decHdr    := Vector.replicate 5 none
  decPay    := Vector.replicate 255 none
  decCk     := Vector.replicate 2 none
  decCrc    := decCrc
  decSeq    := c.decSeqReset
  encPhase  := .idle
  encSeq    := c.encSeqReset
  encFrame  := []
  faults    := FaultSet.empty
  src       := source
  snk       := []
  responses := Responses.none
  moves     := []
  draws     := 0

/-- The machine right after reset: the board's parameters, whatever the bound stream holds, any DEC_CRC. -/
def State.reset : State := State.bind Config.board Config.boundSource Config.decCrcReset

end Sys2Proof.Machine
end

