-- ==== Sys2Proof/Machine/Flags.lean ====
section
/-! DEFINITION. How a command's outcome is reported. The block has no condition flags and no sticky error status (spec/10_state.md
R32): the outcome is the response (R31), or a model fault recorded in FAULTS (spec/60_exceptions.md R228, R229). These are the
primitives `complete`, `raise` and `fault` of spec/00_scope.md R12. The block takes no exceptions: an error "is a response, not
a trap" and there is no return from one (spec/60_exceptions.md R221, R226). -/

namespace Sys2Proof.Machine

/-- The numeric code of a status (60_exceptions.md R220). -/
def statusCode : Status → Nat
  | .ok => 0
  | .endOfStream => 1
  | .truncated => 2
  | .invalidHeader => 3
  | .unknownMessage => 4
  | .checksumMismatch => 5
  | .shortWrite => 6
  | .ioError _ => 7

/-- Membership in FAULTS. -/
def faultRecorded (fs : FaultSet) : ModelFault → Bool
  | .illegal => fs.illegal
  | .busy => fs.busy
  | .registryRace => fs.registryRace
  | .uninit => fs.uninit
  | .badDialect => fs.badDialect
  | .badOperand => fs.badOperand
  | .oob => fs.oob

/-- FAULTS with one more name; a fault is never cleared (10_state.md R29). -/
def addFault (f : ModelFault) (fs : FaultSet) : FaultSet :=
  match f with
  | .illegal => { fs with illegal := true }
  | .busy => { fs with busy := true }
  | .registryRace => { fs with registryRace := true }
  | .uninit => { fs with uninit := true }
  | .badDialect => { fs with badDialect := true }
  | .badOperand => { fs with badOperand := true }
  | .oob => { fs with oob := true }

/-- `fault F` (00_scope.md R12): F joins FAULTS; "The faulting command changes no other state and produces no response"
(60_exceptions.md R229). -/
def recordFault (f : ModelFault) (s : State) : State :=
  { s with faults := addFault f s.faults }

/-- One unit's response port with one more response at its end. -/
def addResponse (u : BlockUnit) (r : Response) (rs : Responses) : Responses :=
  match u with
  | .crc => { rs with crc := rs.crc ++ [r] }
  | .registry => { rs with registry := rs.registry ++ [r] }
  | .decoder => { rs with decoder := rs.decoder ++ [r] }
  | .encoder => { rs with encoder := rs.encoder ++ [r] }

/-- One response comes out of a unit (10_state.md R31). -/
def respond (u : BlockUnit) (r : Response) (s : State) : State :=
  { s with responses := addResponse u r s.responses }

/-- `complete(OK, …)` (00_scope.md R12). -/
def complete (u : BlockUnit) (packet : Option Packet) (value : Option Word) (s : State) : State :=
  respond u ⟨.ok, packet, value⟩ s

/-- `raise <Error>(diag)` (00_scope.md R12): the command ends with an error status and a diagnostic packet. -/
def raise (u : BlockUnit) (status : Status) (diag : Option Packet) (s : State) : State :=
  respond u ⟨status, diag, none⟩ s

end Sys2Proof.Machine
end

