-- ==== Sys2Proof/Machine/Operands.lean ====
section
/-! DEFINITION. Operand forms: the bound on a list operand (spec/30_encoding.md R86), reads of the buffer operand (spec/20_memory.md
R53), payloads, and a dialect's table read. -/

namespace Sys2Proof.Machine

/-- A list operand that its format's count can hold goes to the block; a longer one is refused before it (30_encoding.md R86,
93_implementation_defined.md U11). -/
def withinFormat (limit : Nat) (data : List Byte) (t : State) : Host.Outcome State Fault Refusal :=
  if data.length ≤ limit then .next t else .refused .operandTooLong

/-- `BufRead(i)`, defined for i < n only (20_memory.md R53); `none` past the end. -/
def bufRead (buf : List Byte) (i : Nat) : Option Byte := buf[i]?

/-- `[BufRead(i), …, BufRead(i + n - 1)]`, each byte one read; `none` if one of them is past the end. -/
def bufReads (buf : List Byte) (i : Nat) : Nat → Option (List Byte)
  | 0 => some []
  | n + 1 => do
    let b ← bufRead buf i
    let rest ← bufReads buf (i + 1) n
    return b :: rest

/-- A Packet's payload from bytes; a list of at most 255 bytes, which every caller but a draw hands over, is kept whole. -/
def payloadOf (bytes : List Byte) : Payload :=
  ⟨bytes.take 255, by simp⟩

/-- DIALECT(d)(id) (00_scope.md R9). -/
def dialectSeed (d : Dialect) (id : Byte) : Option Byte := d.lookup id

end Sys2Proof.Machine
end

