-- ==== Sys2Proof/Machine/Ops.lean ====
section
/-! DEFINITION. The shared operations: the checksum functions (spec/40_checksum.md R100, R101, R107, R108), the registry's
Lookup (spec/41_registry.md R124), the frame layout (spec/30_encoding.md R70, R72), the verdict on a whole frame that both
decoders share (spec/42_decoder.md R151 to R153), and the free values (spec/93_implementation_defined.md U3 to U6). -/

namespace Sys2Proof.Machine

/-! ### Checksum (40_checksum.md) -/

/-- The n-fold loop of `crc_step`: shift right, and where bit 0 was 1 exclusive-or 0x8408. -/
def crcShift : Nat → Word → Word
  | 0, c => c
  | n + 1, c => crcShift n (if c.getLsbD 0 then (c >>> 1) ^^^ 0x8408 else c >>> 1)

/-- `crc_step(acc, b)` (40_checksum.md R100). -/
def crcStep (acc : Word) (b : Byte) : Word := crcShift 8 (acc ^^^ zext16 b)

/-- `crc_over(acc, s)` (40_checksum.md R101). -/
def crcOver (acc : Word) (s : List Byte) : Word := s.foldl crcStep acc

/-- CRC_INIT (00_scope.md R8). -/
def crcInitial : Word := 0xFFFF

/-- The X25 lookup table, T[i] = crc_step(0x0000, i) (40_checksum.md R107). -/
def crcTable (i : Byte) : Word := crcStep 0 i

/-- The table form of the step (40_checksum.md R107). -/
def crcStepTable (acc : Word) (b : Byte) : Word := (acc >>> 8) ^^^ crcTable (loByte (acc ^^^ zext16 b))

/-- The byte-wise form of the step (40_checksum.md R108). -/
def crcStepBytewise (acc : Word) (b : Byte) : Word :=
  let tmp0 : Byte := b ^^^ loByte acc
  let tmp : Byte := tmp0 ^^^ (tmp0 <<< 4)
  (acc >>> 8) ^^^ (zext16 tmp <<< 8) ^^^ (zext16 tmp <<< 3) ^^^ (zext16 tmp >>> 4)

/-! ### Registry (41_registry.md) -/

/-- Lookup over a resolution order: the first dialect that defines the id gives its crc-extra (41_registry.md R124). An index
with no dialect defines nothing (log entry 19). -/
def lookupIn (dialects : List Dialect) : List Byte → Byte → Option Byte
  | [], _ => none
  | d :: ds, id =>
    match (dialects[d.toNat]?).bind (fun t => dialectSeed t id) with
    | some x => some x
    | none => lookupIn dialects ds id

/-- `Lookup(id)`: `some x` is Found(x), `none` is NotFound (41_registry.md R124). -/
def lookup (s : State) (id : Byte) : Option Byte := lookupIn s.cfg.dialects s.regList id

/-- DEC_PHASE ≠ IDLE or ENC_PHASE ≠ IDLE: when a lookup may be in flight (41_registry.md R122). -/
def lookupInFlight (s : State) : Bool := decide (s.decPhase ≠ .idle ∨ s.encPhase ≠ .idle)

/-- A dialect index of the configuration, d < NUM_DIALECTS (30_encoding.md R83). -/
def dialectExists (c : Config) (d : Byte) : Bool := decide (d.toNat < c.numDialects)

/-! ### The frame (30_encoding.md R70, R72) -/

/-- The checksum of a frame: bytes 1..5+L, then the crc-extra (30_encoding.md R72). -/
def frameChecksum (covered : List Byte) (seed : Byte) : Word := crcOver crcInitial (covered ++ [seed])

/-- The whole frame of 8 + L bytes that 43_encoder.md R192 builds, with the checksum little-endian at its end. -/
def frameBytes (seq sys comp msg : Byte) (payload : List Byte) (seed : Byte) : List Byte :=
  let covered := BitVec.ofNat 8 payload.length :: seq :: sys :: comp :: msg :: payload
  let c := frameChecksum covered seed
  startMarker :: covered ++ [loByte c, hiByte c]

/-! ### The verdict on a whole frame -/

/-- The status of a whole frame, whose sum before the seed is `crc`: the lookup first, then the comparison (42_decoder.md R151,
R152). -/
def frameStatus (seed : Option Byte) (crc : Word) (received : Word) : Status :=
  match seed with
  | none => .unknownMessage
  | some x => if crcStep crc x = received then .ok else .checksumMismatch

/-- The end of a decode of a whole frame, in one step (42_decoder.md R151 to R153, R164 to R166): the decoder is IDLE, DEC_SEQ
takes the frame's sequence id only on OK, and the response carries the Packet whatever the status. -/
def concludeFrame (crc : Word) (p : Packet) (s : State) : State :=
  match frameStatus (lookup s p.messageId) crc p.checksum with
  | .ok => complete .decoder (some p) none { s with decPhase := .idle, decSeq := p.sequenceId }
  | st => raise .decoder st (some p) { s with decPhase := .idle }

/-! ### Free values (log entry 8) -/

/-- One more free value has been taken. -/
def drawn (s : State) : State := { s with draws := s.draws + 1 }

/-- `D_hdr`: any Option Packet (42_decoder.md R146). -/
def freeHeaderDiagnostic (s : State) : Option Packet := Config.freeDiagnostic s.draws

/-- `D_body`: the header fields as received; payload and checksum draws (42_decoder.md R150, R156). -/
def freeBodyDiagnostic (seq sys comp msg : Byte) (s : State) : Packet :=
  ⟨seq, sys, comp, msg, payloadOf (Config.freeBytes s.draws), Config.freeChecksum s.draws⟩

/-- DEC_CRC as DEC.DECODE_BUF writes it: 10_state.md R21 has it written and no rule says what (log entry 10). -/
def freeRunningSum (s : State) : Word := Config.freeSum s.draws

/-- ENC_FRAME after UNKNOWN_MESSAGE: any bytes, at most 263 (43_encoder.md R196, 10_state.md R28). -/
def freeEncFrame (s : State) : List Byte := (Config.freeFrame s.draws).take 263

end Sys2Proof.Machine
end

