-- ==== Sys2Proof/Machine/Crc.lean ====
section
/-! DEFINITION. The CRC commands (spec/40_checksum.md R103 to R106). Each is one atomic step that touches ACC alone (R102). -/

namespace Sys2Proof.Machine

/-- A command that needs ACC: F_UNINIT where it is unwritten (40_checksum.md R104 to R106). -/
def withAcc (s : State) (k : Word → State) : State :=
  match s.acc with
  | none => recordFault .uninit s
  | some a => k a

/-- CRC.INIT (40_checksum.md R103). -/
def execCrcInit (s : State) : Host.Outcome State Fault Refusal :=
  .next (complete .crc none none { s with acc := some crcInitial })

/-- CRC.BYTE b (40_checksum.md R104). -/
def execCrcByte (b : Byte) (s : State) : Host.Outcome State Fault Refusal :=
  .next (withAcc s fun a => complete .crc none none { s with acc := some (crcStep a b) })

/-- CRC.BLOCK data (40_checksum.md R105). -/
def execCrcBlock (data : List Byte) (s : State) : Host.Outcome State Fault Refusal :=
  withinFormat maxBlock data
    (withAcc s fun a => complete .crc none none { s with acc := some (crcOver a data) })

/-- CRC.FINAL (40_checksum.md R106): the raw register (90_conflicts.md C1); ACC stays. -/
def execCrcFinal (s : State) : Host.Outcome State Fault Refusal :=
  .next (withAcc s fun a => complete .crc none (some a) s)

end Sys2Proof.Machine
end

