-- ==== Sys2Proof/Machine/Decoder.lean ====
section
/-! DEFINITION. The decoder: the DEC commands, the steps of streaming decode (spec/42_decoder.md R142 to R153), buffer decode
(R160 to R166), and streaming decode as one function (R154). -/

namespace Sys2Proof.Machine

/-- A decoder command on a busy decoder records F_BUSY and changes nothing else (42_decoder.md R140). -/
def whenDecoderIdle (s t : State) : State :=
  if s.decPhase = .idle then t else recordFault .busy s

/-! ### Streaming decode, one symbol a step -/

/-- "reset every entry to `none`" (10_state.md R27, 42_decoder.md R142). -/
def resetFrame (s : State) : State :=
  { s with
    decHdr := Vector.replicate 5 none
    decPay := Vector.replicate 255 none
    decCk := Vector.replicate 2 none }

/-- DEC.DECODE's start step (42_decoder.md R142): no response yet. -/
def startDecode (s : State) : State := { resetFrame s with decPhase := .seeking }

/-- A decode ends early: IDLE, and a status with a diagnostic packet. -/
def abortDecode (status : Status) (diag : Option Packet) (s : State) : State :=
  raise .decoder status diag { s with decPhase := .idle }

/-- SEEKING (42_decoder.md R143, R144). -/
def seekStep (x : Symbol) (s : State) : State :=
  match x with
  | .byte b => if b = startMarker then { s with decCrc := crcInitial, decPhase := .header 0 } else s
  | .endOfSource => abortDecode .endOfStream none s
  | .err e => abortDecode (.ioError e) none s

/-- HEADER(k) (42_decoder.md R145, R146). -/
def headerStep (k : Fin 5) (x : Symbol) (s : State) : State :=
  match x with
  | .byte b =>
    { s with
      decHdr := s.decHdr.set k (some b)
      decCrc := crcStep s.decCrc b
      decPhase := if h : k.val < 4 then .header ⟨k.val + 1, by omega⟩ else .body 0 }
  | .endOfSource => abortDecode .truncated (freeHeaderDiagnostic s) (drawn s)
  | .err e => abortDecode (.ioError e) (freeHeaderDiagnostic s) (drawn s)

/-- BODY(i) with a byte, L the payload length (42_decoder.md R148, R149). -/
def bodyByte (i l : Nat) (b : Byte) (s : State) : Host.Outcome State Fault Refusal :=
  if i < l then
    .next { s with
      decPay := s.decPay.setIfInBounds i (some b)
      decCrc := crcStep s.decCrc b
      decPhase := .body (i + 1) }
  else if i = l then
    .next { s with decCk := s.decCk.set 0 (some b), decPhase := .body (l + 1) }
  else if i = l + 1 then
    .next { s with decCk := s.decCk.set 1 (some b), decPhase := .verify }
  else .fault .bodyIndexPastFrame

/-- BODY(i) with End or Err: the header fields as received, payload and checksum draws (42_decoder.md R150). -/
def bodyCut (status : Status) (s : State) : Host.Outcome State Fault Refusal :=
  match s.decHdr[1], s.decHdr[2], s.decHdr[3], s.decHdr[4] with
  | some seq, some sys, some comp, some msg =>
    .next (abortDecode status (some (freeBodyDiagnostic seq sys comp msg s)) (drawn s))
  | _, _, _, _ => .fault .unwrittenFrameRegister

/-- BODY(i) (42_decoder.md R147 to R150); L is DEC_HDR[0]. -/
def bodyStep (i : Nat) (x : Symbol) (s : State) : Host.Outcome State Fault Refusal :=
  match x with
  | .byte b =>
    match s.decHdr[0] with
    | some l => bodyByte i l.toNat b s
    | none => .fault .unwrittenFrameRegister
  | .endOfSource => bodyCut .truncated s
  | .err e => bodyCut (.ioError e) s

/-- The values of a run of registers, `none` if one of them is unwritten. -/
def writtenBytes : List (Option Byte) → Option (List Byte)
  | [] => some []
  | r :: rs => do
    let b ← r
    let rest ← writtenBytes rs
    return b :: rest

/-- `packet_of(DEC_HDR, DEC_PAY, DEC_CK)` (42_decoder.md R155); `none` if one of the registers it reads is unwritten. -/
def packetOf (hdr : Vector (Option Byte) 5) (pay : Vector (Option Byte) 255) (ck : Vector (Option Byte) 2) :
    Option Packet := do
  let l ← hdr[0]
  let seq ← hdr[1]
  let sys ← hdr[2]
  let comp ← hdr[3]
  let msg ← hdr[4]
  let payload ← writtenBytes (pay.toList.take l.toNat)
  let lo ← ck[0]
  let hi ← ck[1]
  return ⟨seq, sys, comp, msg, payloadOf payload, le16 lo hi⟩

/-- VERIFY (42_decoder.md R151 to R153); reads no symbol. -/
def verifyStep (s : State) : Host.Outcome State Fault Refusal :=
  match packetOf s.decHdr s.decPay s.decCk with
  | some p => .next (concludeFrame s.decCrc p s)
  | none => .fault .unwrittenFrameRegister

/-- `SrcRead()` (20_memory.md R50): the first symbol is removed and goes to `use`; on an empty SRC the decoder holds. -/
def readSymbol (use : Symbol → State → Host.Outcome State Fault Refusal) (s : State) : Host.Outcome State Fault Refusal :=
  match s.src with
  | [] => .next s
  | x :: rest => use x { s with src := rest }

/-- One turn of the decoder: the step DEC_PHASE names (10_state.md R26), or nothing where it has none. -/
def decoderTurn (s : State) : Host.Outcome State Fault Refusal :=
  match s.decPhase with
  | .idle => .next s
  | .seeking => readSymbol (fun x t => .next (seekStep x t)) s
  | .header k => readSymbol (fun x t => .next (headerStep k x t)) s
  | .body i => readSymbol (bodyStep i) s
  | .verify => verifyStep s

/-! ### Buffer decode -/

/-- What DEC.DECODE_BUF finds in its buffer before the lookup (42_decoder.md R160): no header, a header whose frame overruns
the buffer, or a whole frame with the sum of its bytes 1..5+L. -/
inductive BufferView where
  | invalidHeader
  | cut (seq sys comp msg : Byte)
  | whole (crc : Word) (p : Packet)
  deriving DecidableEq, Repr

/-- The reads of 42_decoder.md R160 in its order; `none` where one is out of the buffer (F_OOB). -/
def viewBuffer (buf : List Byte) : Option BufferView :=
  if buf.length < 6 then some .invalidHeader
  else do
    let marker ← bufRead buf 0
    if marker ≠ startMarker then return .invalidHeader
    let l ← bufRead buf 1
    let seq ← bufRead buf 2
    let sys ← bufRead buf 3
    let comp ← bufRead buf 4
    let msg ← bufRead buf 5
    if buf.length < 8 + l.toNat then return .cut seq sys comp msg
    let payload ← bufReads buf 6 l.toNat
    let lo ← bufRead buf (6 + l.toNat)
    let hi ← bufRead buf (7 + l.toNat)
    let covered ← bufReads buf 1 (5 + l.toNat)
    return .whole (crcOver crcInitial covered) ⟨seq, sys, comp, msg, payloadOf payload, le16 lo hi⟩

/-- DEC.DECODE_BUF when it starts: it resets every entry of the frame registers to `none` (10_state.md R27) and writes DEC_CRC (R21),
with no rule for the value. After that the registers are not used (42_decoder.md R160, whose list of registers written names neither
these nor FAULTS). DEDUCED (unsafe), log entry 10. -/
def startBuffer (s : State) : State := drawn { resetFrame s with decCrc := freeRunningSum s }

/-- How a buffer decode answers what it found (42_decoder.md R160 to R166). -/
def answerBuffer (v : BufferView) (s : State) : State :=
  match v with
  | .invalidHeader => raise .decoder .invalidHeader none s
  | .cut seq sys comp msg => raise .decoder .truncated (some (freeBodyDiagnostic seq sys comp msg s)) (drawn s)
  | .whole crc p => concludeFrame crc p s

/-- DEC.DECODE_BUF on an idle decoder (42_decoder.md R160 to R166). -/
def decodeBuffer (buf : List Byte) (s : State) : State :=
  if buf.length > s.cfg.maxBuf then recordFault .badOperand s
  else match viewBuffer buf with
    | none => recordFault .oob s
    | some v => answerBuffer v (startBuffer s)

/-! ### The commands -/

/-- DEC.DECODE (42_decoder.md R142). -/
def execDecDecode (s : State) : Host.Outcome State Fault Refusal :=
  .next (whenDecoderIdle s (startDecode s))

/-- DEC.DECODE_BUF buf (42_decoder.md R160). -/
def execDecDecodeBuf (buf : List Byte) (s : State) : Host.Outcome State Fault Refusal :=
  withinFormat maxBlock buf (whenDecoderIdle s (decodeBuffer buf s))

/-- DEC.SEQ (42_decoder.md R170). -/
def execDecSeq (s : State) : Host.Outcome State Fault Refusal :=
  .next (whenDecoderIdle s (complete .decoder none (some (zext16 s.decSeq)) s))

/-! ### Streaming decode as one function (42_decoder.md R154) -/

/-- How a decode of a symbol list ends: the status and packet where the spec fixes them, the header fields where payload and
checksum are draws, or a diagnostic that is a draw altogether. -/
inductive StreamResult where
  | plain (status : Status)
  | headerCut (status : Status)
  | bodyCut (status : Status) (seq sys comp msg : Byte)
  | whole (status : Status) (p : Packet)
  deriving DecidableEq, Repr

/-- The next `n` symbols as bytes: the bytes and the symbols left; or, if one of them is End or Err, its status and the symbols
after it; `none` where the list is too short (the decoder holds). -/
def takeBytes : Nat → List Symbol → Option ((List Byte ⊕ Status) × List Symbol)
  | 0, src => some (.inl [], src)
  | _ + 1, [] => none
  | n + 1, x :: src =>
    match x with
    | .byte b =>
      match takeBytes n src with
      | some (.inl bs, rest) => some (.inl (b :: bs), rest)
      | some (.inr st, rest) => some (.inr st, rest)
      | none => none
    | .endOfSource => some (.inr .truncated, src)
    | .err e => some (.inr (.ioError e), src)

/-- The body of a frame whose header is `l, seq, sys, comp, msg`. -/
def streamBody (find : Byte → Option Byte) (l seq sys comp msg : Byte) (src : List Symbol) :
    Option (StreamResult × List Symbol) :=
  match takeBytes (l.toNat + 2) src with
  | none => none
  | some (.inr st, rest) => some (.bodyCut st seq sys comp msg, rest)
  | some (.inl body, rest) =>
    let payload := body.take l.toNat
    let p : Packet :=
      ⟨seq, sys, comp, msg, payloadOf payload, le16 (body.getD l.toNat 0) (body.getD (l.toNat + 1) 0)⟩
    let crc := crcOver crcInitial ([l, seq, sys, comp, msg] ++ payload)
    some (.whole (frameStatus (find msg) crc p.checksum) p, rest)

/-- The frame after its marker. -/
def streamFrame (find : Byte → Option Byte) (src : List Symbol) : Option (StreamResult × List Symbol) :=
  match takeBytes 5 src with
  | none => none
  | some (.inr st, rest) => some (.headerCut st, rest)
  | some (.inl hdr, rest) =>
    streamBody find (hdr.getD 0 0) (hdr.getD 1 0) (hdr.getD 2 0) (hdr.getD 3 0) (hdr.getD 4 0) rest

/-- `decode(SRC)` (42_decoder.md R154): how the decode ends and the symbols it leaves; `none` where the list ends before the
decode does. -/
def decodeStream (find : Byte → Option Byte) : List Symbol → Option (StreamResult × List Symbol)
  | [] => none
  | x :: src =>
    match x with
    | .byte b => if b = startMarker then streamFrame find src else decodeStream find src
    | .endOfSource => some (.plain .endOfStream, src)
    | .err e => some (.plain (.ioError e), src)

end Sys2Proof.Machine
end

