-- ==== Sys2Proof/Machine/Encoder.lean ====
section
/-! DEFINITION. The encoder: the ENC commands and the sink's answer (spec/43_encoder.md R192 to R200). -/

namespace Sys2Proof.Machine

/-- An encoder command on a busy encoder records F_BUSY (43_encoder.md R190). -/
def whenEncoderIdle (s t : State) : State :=
  if s.encPhase = .idle then t else recordFault .busy s

/-- Step 1 of ENC.PACKET on an idle encoder (43_encoder.md R192, R193): the frame carries ENC_SEQ, never the packet's own
sequence id (R194); an unknown id ends the command before anything reaches the sink, with ENC_FRAME any bytes (R196). -/
def startEncode (sys comp msg : Byte) (payload : List Byte) (s : State) : State :=
  match lookup s msg with
  | none => raise .encoder .unknownMessage none (drawn { s with encFrame := freeEncFrame s })
  | some x => { s with encFrame := frameBytes s.encSeq sys comp msg payload x, encPhase := .flush }

/-- ENC.PACKET (43_encoder.md R192). -/
def execEncPacket (seqIn sys comp msg : Byte) (payload : List Byte) (s : State) : Host.Outcome State Fault Refusal :=
  let _ := seqIn
  withinFormat maxPayload payload (whenEncoderIdle s (startEncode sys comp msg payload s))

/-- ENC.SEQ (43_encoder.md R200). -/
def execEncSeq (s : State) : Host.Outcome State Fault Refusal :=
  .next (whenEncoderIdle s (complete .encoder none (some (zext16 s.encSeq)) s))

/-- Step 2 of ENC.PACKET: the sink accepted the first `k` bytes of the request (43_encoder.md R192, R195, R197). -/
def flushAccepted (k : Nat) (s : State) : State :=
  let t := { s with snk := s.snk ++ s.encFrame.take k, encPhase := .idle }
  if k = s.encFrame.length then complete .encoder none none { t with encSeq := s.encSeq + 1 }
  else raise .encoder .shortWrite none t

/-- The host's answer to the sink request (20_memory.md R55): no request, no move; more bytes than asked for, no move; Err
passes through with SNK and ENC_SEQ unchanged (43_encoder.md R198). -/
def sinkAnswer (a : Answer) (s : State) : Host.Outcome State Fault Refusal :=
  match s.encPhase with
  | .idle => .refused .noPendingRequest
  | .flush =>
    match a with
    | .accepted k => if k ≤ s.encFrame.length then .next (flushAccepted k s) else .refused .acceptedTooMuch
    | .err e => .next (raise .encoder (.ioError e) none { s with encPhase := .idle })

end Sys2Proof.Machine
end

