-- ==== Sys2Proof/Machine/Registry.lean ====
section
/-! DEFINITION. The registry commands (spec/41_registry.md R121 to R125), each one atomic step (R120). -/

namespace Sys2Proof.Machine

/-- A change of REG_LIST to `new` that names the indices `ds`: F_REGISTRY_RACE comes before F_BAD_DIALECT (60_exceptions.md
R224, 41_registry.md R121, R123), and either leaves REG_LIST as it was. -/
def changeRegistry (ds new : List Byte) (s : State) : State :=
  if lookupInFlight s then recordFault .registryRace s
  else if ds.all (dialectExists s.cfg) then complete .registry none none { s with regList := new }
  else recordFault .badDialect s

/-- REG.NEW [d0, …] (41_registry.md R121). -/
def execRegNew (ds : List Byte) (s : State) : Host.Outcome State Fault Refusal :=
  withinFormat maxDialectList ds (changeRegistry ds ds s)

/-- REG.REGISTER d (41_registry.md R123). -/
def execRegRegister (d : Byte) (s : State) : Host.Outcome State Fault Refusal :=
  .next (changeRegistry [d] (s.regList ++ [d]) s)

/-- REG.LOOKUP id (41_registry.md R125). -/
def execRegLookup (id : Byte) (s : State) : Host.Outcome State Fault Refusal :=
  .next (match lookup s id with
    | some x => complete .registry none (some (zext16 x)) s
    | none => raise .registry .unknownMessage none s)

end Sys2Proof.Machine
end

