-- ==== Sys2Proof/Machine/Dispatch.lean ====
section
/-! DEFINITION. One arm per command, each one call of its meaning. -/

namespace Sys2Proof.Machine

def exec (i : Instr) (s : State) : Host.Outcome State Fault Refusal :=
  match i with
  | .crcInit => Sys2Proof.Machine.execCrcInit s
  | .crcByte b => Sys2Proof.Machine.execCrcByte b s
  | .crcBlock data => Sys2Proof.Machine.execCrcBlock data s
  | .crcFinal => Sys2Proof.Machine.execCrcFinal s
  | .regNew ds => Sys2Proof.Machine.execRegNew ds s
  | .regRegister d => Sys2Proof.Machine.execRegRegister d s
  | .regLookup id => Sys2Proof.Machine.execRegLookup id s
  | .decDecode => Sys2Proof.Machine.execDecDecode s
  | .decDecodeBuf buf => Sys2Proof.Machine.execDecDecodeBuf buf s
  | .decSeq => Sys2Proof.Machine.execDecSeq s
  | .encPacket seqIn sys comp msg payload => Sys2Proof.Machine.execEncPacket seqIn sys comp msg payload s
  | .encSeq => Sys2Proof.Machine.execEncSeq s

end Sys2Proof.Machine
end

