-- ==== Sys2Proof/Machine/Port.lean ====
section
/-! DEFINITION. The command port and the order of moves (spec/20_memory.md R61, R64; spec/60_exceptions.md R237). -/

namespace Sys2Proof.Machine

/-- One record arrives on the command port (30_encoding.md R84, R85): a whole command runs; an unlisted opcode records
F_ILLEGAL and changes nothing else; bytes that are not one whole command are refused. -/
def issueRecord (record : List Byte) (s : State) : Host.Outcome State Fault Refusal :=
  match decode record with
  | .command i => exec i s
  | .illegal _ => .next (recordFault .illegal s)
  | .notWhole => .refused .notWholeCommand

/-- The host appends a symbol to SRC (20_memory.md R50). -/
def appendSymbol (x : Symbol) (s : State) : State := { s with src := s.src ++ [x] }

/-- One move takes place. -/
def takeMove (m : Move) (s : State) : Host.Outcome State Fault Refusal :=
  match m with
  | .command record => issueRecord record s
  | .source x => .next (appendSymbol x s)
  | .answer a => sinkAnswer a s
  | .decoder => decoderTurn s

/-- The next move; where none is listed the decoder goes on if it has a step (70_reset_and_hazards.md R270, weak fairness), and
otherwise the block holds: the state stays (log entry 5). -/
def nextMove (s : State) : Host.Outcome State Fault Refusal :=
  match s.moves with
  | [] => decoderTurn s
  | m :: ms => takeMove m { s with moves := ms }

/-- A record put at the front of the moves, so that the very next step issues it. -/
def withRecord (record : List Byte) (s : State) : State := { s with moves := .command record :: s.moves }

end Sys2Proof.Machine
end

