-- ==== Sys2Proof/Machine/Step.lean ====
section
/-! DEFINITION. One step of the block: the next move (spec/20_memory.md R61). -/

namespace Sys2Proof.Machine

/-- One step: the next host action or decoder turn. -/
def step (s : State) : Host.Outcome State Fault Refusal := nextMove s

/-- The command of a table row's word as the next move (log entry 14). -/
def State.withFetchWord (s : State) (nbits w : Nat) : State := withRecord (tableRecord nbits w) s

end Sys2Proof.Machine
end

