-- ==== Sys2Proof/Machine/Assembler.lean ====
section
/-! DEFINITION. The assembler of spec/30_encoding.md R86 and the pseudo-instructions of R87: lines of a program, and what moves
they become. The text form is read as R86 states it; the points R86 leaves open are in log entry 21. -/

namespace Sys2Proof.Machine

/-- One line of a program: a command, a pseudo-instruction (R87) or a host directive (R86). ENC.ENCODE carries what the
external `pack` gave for its message (43_encoder.md R205). -/
inductive Line where
  | command (i : Instr)
  | regNewDefault
  | crcOver (data : List Byte)
  | encEncode (sys comp msg : Byte) (payload : List Byte)
  | srcPush (bytes : List Byte)
  | srcEnd
  | srcErr (e : IoErr)
  | snkAnswer (a : Answer)
  deriving DecidableEq, Repr

/-- The moves of a list of commands; none of them assembles unless every one is well formed (30_encoding.md R86). -/
def assembleCommands (is : List Instr) : Option (List Move) :=
  if is.all Instr.wellFormed then some (is.map fun i => .command (encode i)) else none

/-- The moves of one line (30_encoding.md R86, R87). -/
def assembleLine (c : Config) : Line → Option (List Move)
  | .command i => assembleCommands [i]
  | .regNewDefault => assembleCommands [.regNew [c.defaultDialect]]
  | .crcOver data => assembleCommands [.crcInit, .crcBlock data, .crcFinal]
  | .encEncode sys comp msg payload => assembleCommands [.encPacket 0 sys comp msg payload]
  | .srcPush bytes => some (bytes.map fun b => .source (.byte b))
  | .srcEnd => some [.source .endOfSource]
  | .srcErr e => some [.source (.err e)]
  | .snkAnswer a => some [.answer a]

/-! ### Text -/

/-- A token of a line. -/
inductive Token where
  | word (cs : List Char)
  | number (n : Nat)
  | text (bytes : List Byte)
  | openList
  | closeList
  | comma
  | openParen
  | closeParen
  deriving DecidableEq, Repr

/-- The double quote. -/
def quoteChar : Char := Char.ofNat 34

/-- A character of a mnemonic, a name or a number. -/
def wordChar (c : Char) : Bool := c.isAlphanum || c == '.' || c == '_'

/-- The value of a digit in the given base. -/
def digitValue (base : Nat) (c : Char) : Option Nat :=
  let v :=
    if c.isDigit then c.toNat - '0'.toNat
    else if 'a' ≤ c ∧ c ≤ 'f' then c.toNat - 'a'.toNat + 10
    else if 'A' ≤ c ∧ c ≤ 'F' then c.toNat - 'A'.toNat + 10
    else base
  if v < base then some v else none

/-- A run of digits, the most significant first, onto `acc`. -/
def digits (base : Nat) : Nat → List Char → Option Nat
  | acc, [] => some acc
  | acc, c :: cs =>
    match digitValue base c with
    | some v => digits base (acc * base + v) cs
    | none => none

/-- "Numbers are decimal, or hexadecimal with the prefix `0x`" (R86). -/
def readNumber : List Char → Option Nat
  | '0' :: 'x' :: c :: cs => digits 16 0 (c :: cs)
  | cs => digits 10 0 cs

/-- One byte per ASCII character (R86). -/
def asciiBytes : List Char → Option (List Byte)
  | [] => some []
  | c :: cs =>
    if c.toNat < 128 then
      match asciiBytes cs with
      | some bs => some (BitVec.ofNat 8 c.toNat :: bs)
      | none => none
    else none

/-- The tokens of a line; a semicolon outside a string starts a comment. A string has no escapes, and blanks are the space and the
tab: DESIGN CHOICE (safe), log entry 21. The first argument bounds the recursion and is at least the number of
characters left. -/
def tokens : Nat → List Char → Option (List Token)
  | _, [] => some []
  | 0, _ :: _ => none
  | fuel + 1, c :: cs =>
    if c = ' ' ∨ c = '\t' then tokens fuel cs
    else if c = ';' then some []
    else if c = '[' then (tokens fuel cs).map (.openList :: ·)
    else if c = ']' then (tokens fuel cs).map (.closeList :: ·)
    else if c = ',' then (tokens fuel cs).map (.comma :: ·)
    else if c = '(' then (tokens fuel cs).map (.openParen :: ·)
    else if c = ')' then (tokens fuel cs).map (.closeParen :: ·)
    else if c = quoteChar then
      match asciiBytes (cs.takeWhile (· ≠ quoteChar)), cs.dropWhile (· ≠ quoteChar) with
      | some bs, _ :: rest => (tokens fuel rest).map (.text bs :: ·)
      | _, _ => none
    else if c.isDigit then
      match readNumber ((c :: cs).takeWhile wordChar) with
      | some n => (tokens fuel (cs.dropWhile wordChar)).map (.number n :: ·)
      | none => none
    else if c.isAlpha then
      (tokens fuel (cs.dropWhile wordChar)).map (.word ((c :: cs).takeWhile wordChar) :: ·)
    else none

/-- An operand. -/
inductive Operand where
  | number (n : Nat)
  | bytes (bs : List Byte)
  | name (cs : List Char)
  | call (cs : List Char) (arg : Operand)
  deriving Repr

/-- A number that is a byte. -/
def byteOf (n : Nat) : Option Byte := if n < 256 then some (BitVec.ofNat 8 n) else none

/-- The rest of a byte sequence after its first `[` and, but for the first element, after a comma. -/
def sequenceTail : List Token → Option (List Byte × List Token)
  | .number n :: .closeList :: ts =>
    match byteOf n with
    | some b => some ([b], ts)
    | none => none
  | .number n :: .comma :: ts =>
    match byteOf n, sequenceTail ts with
    | some b, some (bs, rest) => some (b :: bs, rest)
    | _, _ => none
  | _ => none

/-- One operand and the tokens after it. -/
def readOperand : List Token → Option (Operand × List Token)
  | .number n :: ts => some (.number n, ts)
  | .text bs :: ts => some (.bytes bs, ts)
  | .openList :: .closeList :: ts => some (.bytes [], ts)
  | .openList :: ts => (sequenceTail ts).map fun r => (.bytes r.1, r.2)
  | .word f :: .openParen :: .number n :: .closeParen :: ts => some (.call f (.number n), ts)
  | .word f :: .openParen :: .word e :: .closeParen :: ts => some (.call f (.name e), ts)
  | .word w :: ts => some (.name w, ts)
  | _ => none

/-- The operands of a line, separated by commas. The first argument bounds the recursion. -/
def readOperands : Nat → List Token → Option (List Operand)
  | _, [] => some []
  | 0, _ :: _ => none
  | fuel + 1, ts =>
    match readOperand ts with
    | some (o, []) => some [o]
    | some (o, .comma :: t :: rest) => (readOperands fuel (t :: rest)).map (o :: ·)
    | _ => none

/-- An error value: a number, or the letter e and a number as in 95_test_vectors.md §0. -/
def errorOf : Operand → Option IoErr
  | .number n => some ⟨n⟩
  | .name ('e' :: cs) => (digits 10 0 cs).map IoErr.mk
  | _ => none

/-- The byte of an operand. -/
def byteOperand : Operand → Option Byte
  | .number n => byteOf n
  | _ => none

/-- A mnemonic and its operands as a line (R86, R87). ENC.ENCODE has no text form: its message is a value of the caller's
program (43_encoder.md R205). REG.NEW's dialect list is read as a byte-sequence operand, so a double-quoted string is accepted there
as well as the form `[d0, …]` that R86 gives: DESIGN CHOICE (safe), log entry 21. -/
def lineOf (mnemonic : String) (ops : List Operand) : Option Line :=
  match mnemonic, ops with
  | "CRC.INIT", [] => some (.command .crcInit)
  | "CRC.BYTE", [b] => (byteOperand b).map fun b => .command (.crcByte b)
  | "CRC.BLOCK", [.bytes bs] => some (.command (.crcBlock bs))
  | "CRC.FINAL", [] => some (.command .crcFinal)
  | "REG.NEW", [.bytes ds] => some (.command (.regNew ds))
  | "REG.REGISTER", [d] => (byteOperand d).map fun d => .command (.regRegister d)
  | "REG.LOOKUP", [id] => (byteOperand id).map fun id => .command (.regLookup id)
  | "DEC.DECODE", [] => some (.command .decDecode)
  | "DEC.DECODE_BUF", [.bytes bs] => some (.command (.decDecodeBuf bs))
  | "DEC.SEQ", [] => some (.command .decSeq)
  | "ENC.PACKET", [sys, comp, msg, .bytes payload] => do
    return .command (.encPacket 0 (← byteOperand sys) (← byteOperand comp) (← byteOperand msg) payload)
  | "ENC.PACKET", [sys, comp, msg, .bytes payload, seqIn] => do
    return .command
      (.encPacket (← byteOperand seqIn) (← byteOperand sys) (← byteOperand comp) (← byteOperand msg) payload)
  | "ENC.SEQ", [] => some (.command .encSeq)
  | "REG.NEW.DEFAULT", [] => some .regNewDefault
  | "CRC.OVER", [.bytes bs] => some (.crcOver bs)
  | "SRC.PUSH", [.bytes bs] => some (.srcPush bs)
  | "SRC.END", [] => some .srcEnd
  | "SRC.ERR", [e] => (errorOf e).map .srcErr
  | "SNK.ANSWER", [.call ['A', 'c', 'c', 'e', 'p', 't', 'e', 'd'] (.number k)] => some (.snkAnswer (.accepted k))
  | "SNK.ANSWER", [.call ['E', 'r', 'r'] e] => (errorOf e).map fun e => .snkAnswer (.err e)
  | _, _ => none

/-- One line of text; `none` where it does not assemble, the empty list where it holds no command. -/
def assembleText (c : Config) (text : List Char) : Option (List Move) :=
  match tokens text.length text with
  | some [] => some []
  | some (.word w :: ts) =>
    match readOperands ts.length ts with
    | some ops => (lineOf (String.ofList w) ops).bind (assembleLine c)
    | none => none
  | _ => none

end Sys2Proof.Machine
end

