-- ==== Sys2Proof/Safety.lean ====
section
/-! DEFINITION. What a claim may assume of a state and what it may call a normal end: the machine's invariant (the ranges
spec/10_state.md R23, R26, R27, R28 give the registers, and what the decoder's and the encoder's registers mean while a command
is in progress), fault freedom (spec/60_exceptions.md R229) and the end of a run (R238). -/

namespace Sys2Proof.Machine

/-- The first `k` registers of a file are written and the others are not. -/
def writtenTo {n : Nat} (k : Nat) (v : Vector (Option Byte) n) : Prop :=
  ∀ j, (h : j < n) → (v[j].isSome = true ↔ j < k)

/-- The values of the written registers of a file, in order. -/
def writtenValues {n : Nat} (v : Vector (Option Byte) n) : List Byte := v.toList.filterMap id

/-- L of the frame in progress, DEC_HDR[0] (42_decoder.md R147). -/
def declaredLength (s : State) : Nat := (s.decHdr[0].getD 0).toNat

/-- DEC_CRC is the sum of the header and payload bytes received so far (42_decoder.md R152). -/
def runningSum (s : State) : Prop :=
  s.decCrc = crcOver crcInitial (writtenValues s.decHdr ++ writtenValues s.decPay)

/-- What the decoder's frame registers hold in each phase (10_state.md R26, R27; 42_decoder.md R142 to R149). -/
def decoderInv (s : State) : Prop :=
  match s.decPhase with
  | .idle => True
  | .seeking => writtenTo 0 s.decHdr ∧ writtenTo 0 s.decPay ∧ writtenTo 0 s.decCk
  | .header k => writtenTo k s.decHdr ∧ writtenTo 0 s.decPay ∧ writtenTo 0 s.decCk ∧ runningSum s
  | .body i =>
    i ≤ declaredLength s + 1 ∧ writtenTo 5 s.decHdr ∧ writtenTo (min i (declaredLength s)) s.decPay ∧
      writtenTo (i - declaredLength s) s.decCk ∧ runningSum s
  | .verify => writtenTo 5 s.decHdr ∧ writtenTo (declaredLength s) s.decPay ∧ writtenTo 2 s.decCk ∧ runningSum s

/-- A pending sink request is a whole frame that carries ENC_SEQ and the checksum its message id resolves to under the
present REG_LIST (43_encoder.md R192, R193; 20_memory.md R61 item 4); ENC_FRAME never exceeds 263 bytes (10_state.md R28). -/
def encoderInv (s : State) : Prop :=
  s.encFrame.length ≤ 263 ∧
  (s.encPhase = .flush →
    ∃ sys comp msg seed, ∃ payload : List Byte,
      payload.length ≤ maxPayload ∧ lookup s msg = some seed ∧
        s.encFrame = frameBytes s.encSeq sys comp msg payload seed)

/-- Every index in REG_LIST names a dialect (10_state.md R23). -/
def registryInv (s : State) : Prop := ∀ d ∈ s.regList, d.toNat < s.cfg.numDialects

/-- The machine's invariant. -/
structure Inv (s : State) : Prop where
  config   : s.cfg.WellFormed
  registry : registryInv s
  decoder  : decoderInv s
  encoder  : encoderInv s

/-- "before any successful decode" DEC_SEQ is DEC_SEQ_RESET (42_decoder.md R170, 10_state.md R24): as long as no OK response with a
Packet has come out of the decoder. -/
def decSeqInv (s : State) : Prop :=
  (∀ r ∈ s.responses.decoder, r.status = .ok → r.packet = none) → s.decSeq = s.cfg.decSeqReset

/-- "before any encode" ENC_SEQ is ENC_SEQ_RESET (43_encoder.md R200, 10_state.md R25): as long as no OK response but those of
ENC.SEQ, which carry a value, has come out of the encoder. -/
def encSeqInv (s : State) : Prop :=
  (∀ r ∈ s.responses.encoder, r.status = .ok → r.value ≠ none) → s.encSeq = s.cfg.encSeqReset

/-- No model fault has been recorded: the premise of every claim about a program (60_exceptions.md R229). -/
def FaultFree (s : State) : Prop := s.faults = FaultSet.empty

/-- The end of a run (60_exceptions.md R238): nothing more is issued, every unit is IDLE (so every command that did not fault has
had its response), no fault is recorded. -/
def NormalEnd (s : State) : Prop :=
  s.moves = [] ∧ s.decPhase = .idle ∧ s.encPhase = .idle ∧ FaultFree s

/-- How many responses have come out. -/
def responseCount (s : State) : Nat :=
  s.responses.crc.length + s.responses.registry.length + s.responses.decoder.length + s.responses.encoder.length

/-- Commands the decoder has in progress. -/
def decodesInProgress : DecPhase → Nat
  | .idle => 0
  | .seeking => 1
  | .header _ => 1
  | .body _ => 1
  | .verify => 1

/-- Commands the encoder has in progress. -/
def encodesInProgress : EncPhase → Nat
  | .idle => 0
  | .flush => 1

/-- How many commands are in progress: one for each busy unit. -/
def inProgress (s : State) : Nat := decodesInProgress s.decPhase + encodesInProgress s.encPhase

/-! ### What an operation leaves unchanged -/

/-- The decoder's registers are unchanged (10_state.md R24, R26, R27). -/
structure SameDecoder (s t : State) : Prop where
  phase : t.decPhase = s.decPhase
  hdr   : t.decHdr = s.decHdr
  pay   : t.decPay = s.decPay
  ck    : t.decCk = s.decCk
  crc   : t.decCrc = s.decCrc
  seq   : t.decSeq = s.decSeq

/-- The encoder's registers are unchanged (10_state.md R25, R28). -/
structure SameEncoder (s t : State) : Prop where
  phase : t.encPhase = s.encPhase
  seq   : t.encSeq = s.encSeq
  frame : t.encFrame = s.encFrame

/-- The source, the sink, the parameters and the moves are unchanged: every byte outside the registers. -/
structure SameOutside (s t : State) : Prop where
  cfg   : t.cfg = s.cfg
  src   : t.src = s.src
  snk   : t.snk = s.snk
  moves : t.moves = s.moves

/-- `b` is `s` as DEC.DECODE_BUF has it when it starts: every entry of the frame registers `none` (10_state.md R27), some value in
DEC_CRC (R21) and the model's own draw counter moved on (log entry 10). -/
def BufferStarted (s b : State) : Prop :=
  ∃ c n, b = { s with
    decHdr := Vector.replicate 5 none, decPay := Vector.replicate 255 none, decCk := Vector.replicate 2 none,
    decCrc := c, draws := n }

/-- The faults other than those listed are unchanged (10_state.md R29). -/
def SameFaultsBut (fs : List ModelFault) (s t : State) : Prop :=
  ∀ f, f ∉ fs → faultRecorded t.faults f = faultRecorded s.faults f

/-- An outcome with its next state changed by `f`: for comparing two runs. -/
def mapNext (f : State → State) : Host.Outcome State Fault Refusal → Host.Outcome State Fault Refusal
  | .next s => .next (f s)
  | .fault r => .fault r
  | .refused r => .refused r

/-! ### Responses and runs of commands, for claims to write a next state with -/

/-- The response port after one more CRC response. -/
def Responses.withCrc (rs : Responses) (r : Response) : Responses := { rs with crc := rs.crc ++ [r] }
/-- The response port after one more registry response. -/
def Responses.withRegistry (rs : Responses) (r : Response) : Responses := { rs with registry := rs.registry ++ [r] }
/-- The response port after one more decoder response. -/
def Responses.withDecoder (rs : Responses) (r : Response) : Responses := { rs with decoder := rs.decoder ++ [r] }
/-- The response port after one more encoder response. -/
def Responses.withEncoder (rs : Responses) (r : Response) : Responses := { rs with encoder := rs.encoder ++ [r] }

/-- A list of commands, one after another, up to the first that gives no next state. -/
def execAll : List Instr → State → Host.Outcome State Fault Refusal
  | [], s => .next s
  | i :: is, s =>
    match exec i s with
    | .next t => execAll is t
    | o => o

/-- The dialects of the spec's examples (95_test_vectors.md §0); synthetic, and no board's. -/
def exampleDialects : List Dialect := [[(0x00, 0x32), (0x01, 0x7C)], [(0x01, 0x10), (0x02, 0x99)], []]

/-! ### Decodes and encodes as a whole -/

/-- `F` is a valid frame for the present registry: some header fields, at most 255 payload bytes and the checksum that the
message id's crc-extra gives (30_encoding.md R70, R72). -/
def ValidFrame (s : State) (F : List Byte) (seq sys comp msg : Byte) (payload : List Byte) : Prop :=
  payload.length ≤ maxPayload ∧ ∃ seed, lookup s msg = some seed ∧ F = frameBytes seq sys comp msg payload seed

/-- The response `r` is one that `result` allows: a draw is any value. -/
def responseFits (result : StreamResult) (r : Response) : Prop :=
  r.value = none ∧
  match result with
  | .plain st => r.status = st ∧ r.packet = none
  | .headerCut st => r.status = st
  | .bodyCut st seq sys comp msg => r.status = st ∧ ∃ pay ck, r.packet = some ⟨seq, sys, comp, msg, pay, ck⟩
  | .whole st p => r.status = st ∧ r.packet = some p

/-- DEC_SEQ after a decode that ends as `result`: the frame's sequence id on OK, otherwise as before (42_decoder.md R153). -/
def sequenceAfter (result : StreamResult) (before : Byte) : Byte :=
  match result with
  | .plain _ => before
  | .headerCut _ => before
  | .bodyCut _ _ _ _ _ => before
  | .whole st p => if st = .ok then p.sequenceId else before

/-- From `s` to `t` one decode has ended as `result` says: the decoder is IDLE, one response has come out, DEC_SEQ follows the
frame on OK only, and nothing outside the decoder, SRC, the response port and the model's own fields has changed. -/
structure DecodeEnded (result : StreamResult) (s t : State) : Prop where
  idle     : t.decPhase = .idle
  response : ∃ r, t.responses = s.responses.withDecoder r ∧ responseFits result r
  sequence : t.decSeq = sequenceAfter result s.decSeq
  cfg      : t.cfg = s.cfg
  acc      : t.acc = s.acc
  registry : t.regList = s.regList
  encoder  : SameEncoder s t
  sink     : t.snk = s.snk
  faults   : t.faults = s.faults

/-- The moves by which the host encodes a list of packets one after another, the sink accepting every frame whole. -/
def encodeMoves (ps : List (Byte × Byte × Byte × Byte × List Byte)) : List Move :=
  ps.flatMap fun (seqIn, sys, comp, msg, payload) =>
    [.command (encode (.encPacket seqIn sys comp msg payload)), .answer (.accepted (8 + payload.length))]

end Sys2Proof.Machine
end

