-- ==== Sys2Proof/Certificates/Slice0/Obligations.lean ====
section
/-! DEFINITION. The statements for the provers, in the order of the spec's files: the encodings (30), the checksum engine (40), the
registry (41), the decoder (42), the encoder (43), and the rules of the whole machine (00, 10, 20, 60, 70). -/

open Sys2Proof Sys2Proof.Machine

/-! ### Encodings (30_encoding.md) -/

/-- 30_encoding.md R80 to R82: every operand of every well-formed command comes back from its bytes. -/
def Obligations.DecodeInvertsEncode : Prop :=
  ∀ i : Instr, i.WellFormed → decode (encode i) = .command i

/-- 30_encoding.md R80 to R84: a record has at most one meaning; the bytes of a command are its encoding. -/
def Obligations.EncodeInvertsDecode : Prop :=
  ∀ (record : List Byte) (i : Instr), decode record = .command i → i.WellFormed ∧ encode i = record

/-- 30_encoding.md R84: C0 is 1 byte, C8 is 2, CB is 3 + n, CN is 2 + k, CP is 6 + L, found from the opcode and at most the two
bytes after it; fewer or more bytes than the format requires are not a command. -/
def Obligations.CommandLengthFromThreeBytes : Prop :=
  (∀ (op b1 b2 : Byte),
    commandLength op b1 b2 =
      if op ∈ ([0x01, 0x04, 0x20, 0x22, 0x31] : List Byte) then some 1
      else if op ∈ ([0x02, 0x11, 0x12] : List Byte) then some 2
      else if op ∈ ([0x03, 0x21] : List Byte) then some (3 + (b1.toNat + 256 * b2.toNat))
      else if op = 0x10 then some (2 + b1.toNat)
      else if op = 0x30 then some (6 + b1.toNat)
      else none) ∧
  (∀ (op : Byte) (rest : List Byte) (n : Nat),
    commandLength op (rest.getD 0 0) (rest.getD 1 0) = some n →
      ((∃ i, decode (op :: rest) = .command i) ↔ rest.length + 1 = n) ∧
      (rest.length + 1 ≠ n → decode (op :: rest) = .notWhole))

/-- 30_encoding.md R85: every opcode byte not in the map is illegal (0x00, 0x05 to 0x0F, 0x13 to 0x1F, 0x23 to 0x2F, 0x32 to
0xFF); issuing one records F_ILLEGAL and no unit's state changes; every other opcode byte is in the map. -/
def Obligations.UnlistedOpcodeRecordsIllegal : Prop :=
  ∀ (op : Byte) (rest : List Byte),
    ((op = 0x00 ∨ (0x05 ≤ op ∧ op ≤ 0x0F) ∨ (0x13 ≤ op ∧ op ≤ 0x1F) ∨ (0x23 ≤ op ∧ op ≤ 0x2F) ∨ 0x32 ≤ op) ↔
      decode (op :: rest) = .illegal op) ∧
    (decode (op :: rest) = .illegal op → ∀ (s : State) (ms : List Move),
      s.moves = .command (op :: rest) :: ms →
        step s = .next { s with moves := ms, faults := { s.faults with illegal := true } })

/-- 30_encoding.md R89, the spec's own words; `lo` and `hi` stand for any two checksum bytes. A sanity statement. -/
def Obligations.SpecExampleWordsDecode : Prop :=
  ∀ lo hi : Byte,
    decode [0x02, 0x41] = .command (.crcByte 0x41) ∧
    decode [0x03, 0x09, 0x00, 0x31, 0x32, 0x33, 0x34, 0x35, 0x36, 0x37, 0x38, 0x39] =
      .command (.crcBlock [0x31, 0x32, 0x33, 0x34, 0x35, 0x36, 0x37, 0x38, 0x39]) ∧
    decode [0x10, 0x02, 0x00, 0x01] = .command (.regNew [0, 1]) ∧
    decode [0x12, 0x00] = .command (.regLookup 0) ∧
    decode [0x21, 0x08, 0x00, 0xFE, 0x00, 0x00, 0x01, 0x01, 0x00, lo, hi] =
      .command (.decDecodeBuf [0xFE, 0x00, 0x00, 0x01, 0x01, 0x00, lo, hi]) ∧
    decode [0x30, 0x00, 0x00, 0x01, 0x01, 0x00] = .command (.encPacket 0 1 1 0 [])

/-- 30_encoding.md R87: what each pseudo-instruction expands to (`pack` has given `msg` and `payload`). -/
def Obligations.PseudoInstructionsExpand : Prop :=
  ∀ (c : Config),
    assembleLine c .regNewDefault = assembleCommands [.regNew [c.defaultDialect]] ∧
    (∀ sys comp msg payload, assembleLine c (.encEncode sys comp msg payload) =
      assembleCommands [.encPacket 0 sys comp msg payload]) ∧
    (∀ data, assembleLine c (.crcOver data) = assembleCommands [.crcInit, .crcBlock data, .crcFinal]) ∧
    (∀ is : List Instr, (∀ i ∈ is, i.WellFormed) →
      assembleCommands is = some (is.map fun i => .command (encode i))) ∧
    (∀ is : List Instr, (∃ i ∈ is, ¬ i.WellFormed) → assembleCommands is = none)

/-! ### Checksum engine (40_checksum.md) -/

/-- 40_checksum.md R103, CRC.INIT: its encoding; ACC <- 0xFFFF and OK from every state, nothing else; a second one changes no
accumulator; CRC.FINAL after it returns 0xFFFF. -/
def Obligations.CrcInitCommand : Prop :=
  decode [0x01] = .command .crcInit ∧
  ∀ s : State,
    exec .crcInit s = .next { s with acc := some 0xFFFF, responses := s.responses.withCrc ⟨.ok, none, none⟩ } ∧
    (∀ t, execAll [.crcInit, .crcInit] s = .next t → t.acc = some 0xFFFF) ∧
    (∃ t, execAll [.crcInit, .crcFinal] s = .next t ∧
      t.responses.crc = s.responses.crc ++ [⟨.ok, none, none⟩, ⟨.ok, none, some 0xFFFF⟩])

/-- 40_checksum.md R104, CRC.BYTE b: its encoding; F_UNINIT on an unwritten ACC with no other change; otherwise ACC <-
crc_step(ACC, b) and OK, for every b; the corner cases and the example. -/
def Obligations.CrcByteCommand : Prop :=
  (∀ (b : Byte) (s : State),
    decode [0x02, b] = .command (.crcByte b) ∧
    (s.acc = none → exec (.crcByte b) s = .next { s with faults := { s.faults with uninit := true } }) ∧
    (∀ a, s.acc = some a → exec (.crcByte b) s =
      .next { s with acc := some (crcStep a b), responses := s.responses.withCrc ⟨.ok, none, none⟩ })) ∧
  crcStep 0x0000 0x00 = 0x0000 ∧ crcStep 0xFFFF 0xFF = 0x00FF ∧ crcStep 0x00FF 0xFF = 0x0000 ∧
  crcStep 0xFFFF 0x00 = 0x0F87

/-- 40_checksum.md R105, CRC.BLOCK data: its encoding; F_UNINIT on an unwritten ACC, for n = 0 too; otherwise ACC <-
crc_over(ACC, data) and OK; n = 0 leaves ACC; the result is that of the CRC.BYTE commands in order; the example. -/
def Obligations.CrcBlockCommand : Prop :=
  (∀ (data : List Byte) (s : State), data.length ≤ 65535 →
    decode (0x03 :: BitVec.ofNat 8 data.length :: BitVec.ofNat 8 (data.length / 256) :: data) =
      .command (.crcBlock data) ∧
    (s.acc = none → exec (.crcBlock data) s = .next { s with faults := { s.faults with uninit := true } }) ∧
    (∀ a, s.acc = some a →
      exec (.crcBlock data) s =
        .next { s with acc := some (crcOver a data), responses := s.responses.withCrc ⟨.ok, none, none⟩ } ∧
      crcOver a [] = a ∧
      ∃ t, execAll (data.map .crcByte) s = .next t ∧ t.acc = some (crcOver a data))) ∧
  crcOver 0xFFFF [0x31, 0x32, 0x33, 0x34] = 0x8B13 ∧
  crcOver 0x8B13 [0x35, 0x36, 0x37, 0x38, 0x39] = 0x6F91 ∧
  crcOver 0xFFFF [0x31, 0x32, 0x33, 0x34, 0x35, 0x36, 0x37, 0x38, 0x39] = 0x6F91

/-- 40_checksum.md R106, CRC.FINAL: its encoding; F_UNINIT on an unwritten ACC; otherwise OK with the raw register, ACC unchanged;
CRC.OVER "123456789" returns 0x6F91 (no complement, 90_conflicts.md C1). -/
def Obligations.CrcFinalCommand : Prop :=
  decode [0x04] = .command .crcFinal ∧
  ∀ s : State,
    (s.acc = none → exec .crcFinal s = .next { s with faults := { s.faults with uninit := true } }) ∧
    (∀ a, s.acc = some a → exec .crcFinal s = .next { s with responses := s.responses.withCrc ⟨.ok, none, some a⟩ }) ∧
    (∃ t, execAll [.crcInit, .crcFinal] s = .next t ∧
      t.responses.crc = s.responses.crc ++ [⟨.ok, none, none⟩, ⟨.ok, none, some 0xFFFF⟩]) ∧
    (∃ t, execAll [.crcInit, .crcBlock [0x31, 0x32, 0x33, 0x34, 0x35, 0x36, 0x37, 0x38, 0x39], .crcFinal] s = .next t ∧
      t.responses.crc = s.responses.crc ++ [⟨.ok, none, none⟩, ⟨.ok, none, none⟩, ⟨.ok, none, some 0x6F91⟩])

/-- 40_checksum.md R101: absorbing nothing is the identity, absorbing in pieces is absorbing the whole, absorbing is crc_step
from the first byte on, and the checksum of a frame is crc_over(0xFFFF, frame[1..6+L) ++ [crc_extra]). -/
def Obligations.CrcOverAbsorbsInPieces : Prop :=
  (∀ (acc : Word) (b : Byte) (s t : List Byte),
    crcOver acc [] = acc ∧ crcOver acc (b :: s) = crcOver (crcStep acc b) s ∧
    crcOver acc (s ++ t) = crcOver (crcOver acc s) t) ∧
  (∀ (seq sys comp msg x : Byte) (payload : List Byte),
    let frame := frameBytes seq sys comp msg payload x
    ∃ c : Word, c = crcOver 0xFFFF ((frame.drop 1).take (5 + payload.length) ++ [x]) ∧
      frame = [0xFE, BitVec.ofNat 8 payload.length, seq, sys, comp, msg] ++ payload ++
        [c.extractLsb' 0 8, c.extractLsb' 8 8])

/-- 40_checksum.md R108: the byte-wise form, written out, computes crc_step. -/
def Obligations.CrcBytewiseFormIsStep : Prop :=
  ∀ (acc : Word) (b : Byte),
    crcStep acc b =
      let tmp0 : Byte := b ^^^ acc.setWidth 8
      let tmp : Byte := tmp0 ^^^ (tmp0 <<< 4)
      (acc >>> 8) ^^^ ((tmp.setWidth 16 : Word) <<< 8) ^^^ ((tmp.setWidth 16 : Word) <<< 3) ^^^
        ((tmp.setWidth 16 : Word) >>> 4)

/-- The rows 0 to 15 of the table of 40_checksum.md R107. -/
def x25TableLow : List Word :=
  [0x0000, 0x1189, 0x2312, 0x329B, 0x4624, 0x57AD, 0x6536, 0x74BF,
   0x8C48, 0x9DC1, 0xAF5A, 0xBED3, 0xCA6C, 0xDBE5, 0xE97E, 0xF8F7,
   0x1081, 0x0108, 0x3393, 0x221A, 0x56A5, 0x472C, 0x75B7, 0x643E,
   0x9CC9, 0x8D40, 0xBFDB, 0xAE52, 0xDAED, 0xCB64, 0xF9FF, 0xE876,
   0x2102, 0x308B, 0x0210, 0x1399, 0x6726, 0x76AF, 0x4434, 0x55BD,
   0xAD4A, 0xBCC3, 0x8E58, 0x9FD1, 0xEB6E, 0xFAE7, 0xC87C, 0xD9F5,
   0x3183, 0x200A, 0x1291, 0x0318, 0x77A7, 0x662E, 0x54B5, 0x453C,
   0xBDCB, 0xAC42, 0x9ED9, 0x8F50, 0xFBEF, 0xEA66, 0xD8FD, 0xC974] ++
  [0x4204, 0x538D, 0x6116, 0x709F, 0x0420, 0x15A9, 0x2732, 0x36BB,
   0xCE4C, 0xDFC5, 0xED5E, 0xFCD7, 0x8868, 0x99E1, 0xAB7A, 0xBAF3,
   0x5285, 0x430C, 0x7197, 0x601E, 0x14A1, 0x0528, 0x37B3, 0x263A,
   0xDECD, 0xCF44, 0xFDDF, 0xEC56, 0x98E9, 0x8960, 0xBBFB, 0xAA72,
   0x6306, 0x728F, 0x4014, 0x519D, 0x2522, 0x34AB, 0x0630, 0x17B9,
   0xEF4E, 0xFEC7, 0xCC5C, 0xDDD5, 0xA96A, 0xB8E3, 0x8A78, 0x9BF1,
   0x7387, 0x620E, 0x5095, 0x411C, 0x35A3, 0x242A, 0x16B1, 0x0738,
   0xFFCF, 0xEE46, 0xDCDD, 0xCD54, 0xB9EB, 0xA862, 0x9AF9, 0x8B70]

/-- The rows 16 to 31 of the table of 40_checksum.md R107. -/
def x25TableHigh : List Word :=
  [0x8408, 0x9581, 0xA71A, 0xB693, 0xC22C, 0xD3A5, 0xE13E, 0xF0B7,
   0x0840, 0x19C9, 0x2B52, 0x3ADB, 0x4E64, 0x5FED, 0x6D76, 0x7CFF,
   0x9489, 0x8500, 0xB79B, 0xA612, 0xD2AD, 0xC324, 0xF1BF, 0xE036,
   0x18C1, 0x0948, 0x3BD3, 0x2A5A, 0x5EE5, 0x4F6C, 0x7DF7, 0x6C7E,
   0xA50A, 0xB483, 0x8618, 0x9791, 0xE32E, 0xF2A7, 0xC03C, 0xD1B5,
   0x2942, 0x38CB, 0x0A50, 0x1BD9, 0x6F66, 0x7EEF, 0x4C74, 0x5DFD,
   0xB58B, 0xA402, 0x9699, 0x8710, 0xF3AF, 0xE226, 0xD0BD, 0xC134,
   0x39C3, 0x284A, 0x1AD1, 0x0B58, 0x7FE7, 0x6E6E, 0x5CF5, 0x4D7C] ++
  [0xC60C, 0xD785, 0xE51E, 0xF497, 0x8028, 0x91A1, 0xA33A, 0xB2B3,
   0x4A44, 0x5BCD, 0x6956, 0x78DF, 0x0C60, 0x1DE9, 0x2F72, 0x3EFB,
   0xD68D, 0xC704, 0xF59F, 0xE416, 0x90A9, 0x8120, 0xB3BB, 0xA232,
   0x5AC5, 0x4B4C, 0x79D7, 0x685E, 0x1CE1, 0x0D68, 0x3FF3, 0x2E7A,
   0xE70E, 0xF687, 0xC41C, 0xD595, 0xA12A, 0xB0A3, 0x8238, 0x93B1,
   0x6B46, 0x7ACF, 0x4854, 0x59DD, 0x2D62, 0x3CEB, 0x0E70, 0x1FF9,
   0xF78F, 0xE606, 0xD49D, 0xC514, 0xB1AB, 0xA022, 0x92B9, 0x8330,
   0x7BC7, 0x6A4E, 0x58D5, 0x495C, 0x3DE3, 0x2C6A, 0x1EF1, 0x0F78]

/-- 40_checksum.md R107: the printed table is crc_step(0x0000, i), and one step from any accumulator is one look into it. -/
def Obligations.X25TableGivesTheStep : Prop :=
  (∀ i : Byte, (x25TableLow ++ x25TableHigh)[i.toNat]? = some (crcStep 0x0000 i)) ∧
  (∀ (acc : Word) (b : Byte),
    some (crcStep acc b) =
      ((x25TableLow ++ x25TableHigh)[((acc ^^^ b.setWidth 16) &&& 0xFF).toNat]?).map ((acc >>> 8) ^^^ ·))

/-- 40_checksum.md R109: two sequences of equal length that differ in exactly one byte have different sums. -/
def Obligations.CrcDetectsOneChangedByte : Prop :=
  ∀ (acc : Word) (before after : List Byte) (b b' : Byte), b ≠ b' →
    crcOver acc (before ++ b :: after) ≠ crcOver acc (before ++ b' :: after)

/-- What a CRC command leaves unchanged (40_checksum.md R102, 10_state.md R21): all but ACC, its own responses and F_UNINIT;
CRC.FINAL leaves ACC too. -/
def Obligations.CrcCommandsFrame : Prop :=
  ∀ (i : Instr) (s t : State),
    (i = .crcInit ∨ (∃ b, i = .crcByte b) ∨ (∃ data, i = .crcBlock data) ∨ i = .crcFinal) →
    exec i s = .next t →
      (i = .crcFinal → t.acc = s.acc) ∧ t.regList = s.regList ∧ SameDecoder s t ∧ SameEncoder s t ∧ SameOutside s t ∧
      SameFaultsBut [.uninit] s t ∧ t.draws = s.draws ∧
      t.responses.registry = s.responses.registry ∧ t.responses.decoder = s.responses.decoder ∧
      t.responses.encoder = s.responses.encoder

/-! ### Registry (41_registry.md) -/

/-- 41_registry.md R121, REG.NEW: its encoding; F_REGISTRY_RACE while the decoder or the encoder is busy, then F_BAD_DIALECT, each
with no other change; otherwise REG_LIST becomes the list, empty or with repeats, and OK; [DEFAULT_DIALECT] restores the reset
value; the example. -/
def Obligations.RegNewCommand : Prop :=
  ∀ (ds : List Byte) (s : State), ds.length ≤ 255 →
    decode (0x10 :: BitVec.ofNat 8 ds.length :: ds) = .command (.regNew ds) ∧
    (s.decPhase ≠ .idle ∨ s.encPhase ≠ .idle →
      exec (.regNew ds) s = .next { s with faults := { s.faults with registryRace := true } }) ∧
    (s.decPhase = .idle → s.encPhase = .idle →
      ((∃ d ∈ ds, s.cfg.numDialects ≤ d.toNat) →
        exec (.regNew ds) s = .next { s with faults := { s.faults with badDialect := true } }) ∧
      ((∀ d ∈ ds, d.toNat < s.cfg.numDialects) →
        exec (.regNew ds) s =
          .next { s with regList := ds, responses := s.responses.withRegistry ⟨.ok, none, none⟩ })) ∧
    (∀ id, lookup { s with regList := [] } id = none) ∧
    (∀ src crc, (State.bind s.cfg src crc).regList = [s.cfg.defaultDialect]) ∧
    (s.cfg.dialects = exampleDialects → lookup { s with regList := [1, 0] } 0x01 = some 0x10)

/-- 41_registry.md R123, REG.REGISTER d: its encoding; the same faults in the same order; otherwise d joins the end of REG_LIST and
OK; an id some earlier dialect defines keeps its crc-extra; the example. -/
def Obligations.RegRegisterCommand : Prop :=
  ∀ (d : Byte) (s : State),
    decode [0x11, d] = .command (.regRegister d) ∧
    (s.decPhase ≠ .idle ∨ s.encPhase ≠ .idle →
      exec (.regRegister d) s = .next { s with faults := { s.faults with registryRace := true } }) ∧
    (s.decPhase = .idle → s.encPhase = .idle →
      (s.cfg.numDialects ≤ d.toNat →
        exec (.regRegister d) s = .next { s with faults := { s.faults with badDialect := true } }) ∧
      (d.toNat < s.cfg.numDialects →
        exec (.regRegister d) s =
          .next { s with regList := s.regList ++ [d], responses := s.responses.withRegistry ⟨.ok, none, none⟩ })) ∧
    (∀ id x, lookup s id = some x → lookup { s with regList := s.regList ++ [d] } id = some x) ∧
    (d ∈ s.regList → ∀ id, lookup { s with regList := s.regList ++ [d] } id = lookup s id) ∧
    (s.cfg.dialects = exampleDialects →
      lookup { s with regList := [0, 1] } 0x01 = some 0x7C ∧ lookup { s with regList := [0, 1] } 0x02 = some 0x99)

/-- 41_registry.md R125, REG.LOOKUP id: its encoding; OK with the crc-extra zero-extended, 0x00 being a value like any other, or
UNKNOWN_MESSAGE with no packet; no register changes, and no state makes it fault; the examples. -/
def Obligations.RegLookupCommand : Prop :=
  ∀ (id : Byte) (s : State),
    decode [0x12, id] = .command (.regLookup id) ∧
    (∀ x, lookup s id = some x →
      exec (.regLookup id) s =
        .next { s with responses := s.responses.withRegistry ⟨.ok, none, some (x.setWidth 16)⟩ }) ∧
    (lookup s id = none →
      exec (.regLookup id) s = .next { s with responses := s.responses.withRegistry ⟨.unknownMessage, none, none⟩ }) ∧
    (s.regList = [] → lookup s id = none) ∧
    (s.cfg.dialects = exampleDialects → s.regList = [0] → lookup s 0 = some 0x32 ∧ lookup s 2 = none)

/-- 41_registry.md R124: the first dialect of the resolution order that defines the id wins, and an id absent from every
registered dialect is NotFound. -/
def Obligations.LookupIsFirstMatch : Prop :=
  ∀ (s : State) (id : Byte), registryInv s →
    (∀ x, lookup s id = some x ↔
      ∃ before d after t, s.regList = before ++ d :: after ∧ s.cfg.dialects[d.toNat]? = some t ∧ t.lookup id = some x ∧
        ∀ e ∈ before, ∀ u, s.cfg.dialects[e.toNat]? = some u → u.lookup id = none) ∧
    (lookup s id = none ↔ ∀ d ∈ s.regList, ∀ t, s.cfg.dialects[d.toNat]? = some t → t.lookup id = none)

/-- 41_registry.md R126: later copies of a dialect change no lookup, and appending a dialect can only turn NotFound into Found. -/
def Obligations.RepeatedDialectsChangeNoLookup : Prop :=
  ∀ (s : State) (id : Byte),
    lookup s id = lookup { s with regList := s.regList.eraseDups } id ∧
    ∀ d : Byte, lookup { s with regList := s.regList ++ [d] } id =
      match lookup s id with
      | some x => some x
      | none => lookup { s with regList := [d] } id

/-- 20_memory.md R61 item 4, 41_registry.md R122: no step changes REG_LIST while the decoder or the encoder is busy. -/
def Obligations.RegistryFixedWhileBusy : Prop :=
  ∀ s t : State, step s = .next t → s.decPhase ≠ .idle ∨ s.encPhase ≠ .idle → t.regList = s.regList

/-- What a REG command leaves unchanged (41_registry.md R120, 10_state.md R21): all but REG_LIST, its own responses and its two
faults; REG.LOOKUP leaves REG_LIST and FAULTS too. -/
def Obligations.RegistryCommandsFrame : Prop :=
  ∀ (i : Instr) (s t : State),
    ((∃ ds, i = .regNew ds) ∨ (∃ d, i = .regRegister d) ∨ (∃ id, i = .regLookup id)) →
    exec i s = .next t →
      ((∃ id, i = .regLookup id) → t.regList = s.regList ∧ t.faults = s.faults) ∧
      t.acc = s.acc ∧ SameDecoder s t ∧ SameEncoder s t ∧ SameOutside s t ∧
      SameFaultsBut [.registryRace, .badDialect] s t ∧ t.draws = s.draws ∧
      t.responses.crc = s.responses.crc ∧ t.responses.decoder = s.responses.decoder ∧
      t.responses.encoder = s.responses.encoder

/-! ### Decoder (42_decoder.md) -/

/-- 42_decoder.md R142, DEC.DECODE's start step: its encoding; F_BUSY on a busy decoder with no other change; otherwise every frame
register is unwritten, DEC_PHASE is SEEKING, nothing else changes and there is no response yet. -/
def Obligations.DecDecodeStarts : Prop :=
  decode [0x20] = .command .decDecode ∧
  ∀ s : State,
    (s.decPhase ≠ .idle → exec .decDecode s = .next { s with faults := { s.faults with busy := true } }) ∧
    (s.decPhase = .idle → exec .decDecode s =
      .next { s with
        decPhase := .seeking, decHdr := Vector.replicate 5 none, decPay := Vector.replicate 255 none,
        decCk := Vector.replicate 2 none })

/-- 42_decoder.md R143, R144, SEEKING: a byte other than 0xFE is dropped; 0xFE sets DEC_CRC to 0xFFFF and goes to HEADER(0); End
and Err end the decode with no packet. -/
def Obligations.SeekingStep : Prop :=
  ∀ (s : State) (rest : List Symbol), s.decPhase = .seeking →
    (∀ b, b ≠ 0xFE → s.src = .byte b :: rest → decoderTurn s = .next { s with src := rest }) ∧
    (s.src = .byte 0xFE :: rest → decoderTurn s = .next { s with src := rest, decCrc := 0xFFFF, decPhase := .header 0 }) ∧
    (s.src = .endOfSource :: rest → decoderTurn s = .next { s with
      src := rest, decPhase := .idle, responses := s.responses.withDecoder ⟨.endOfStream, none, none⟩ }) ∧
    (∀ e, s.src = .err e :: rest → decoderTurn s = .next { s with
      src := rest, decPhase := .idle, responses := s.responses.withDecoder ⟨.ioError e, none, none⟩ })

/-- 42_decoder.md R145, HEADER(k) with a byte: any byte, 0xFE too, is written to DEC_HDR[k] and absorbed; after HEADER(4) comes
BODY(0). -/
def Obligations.HeaderByteStep : Prop :=
  ∀ (s : State) (k : Fin 5) (b : Byte) (rest : List Symbol), s.decPhase = .header k → s.src = .byte b :: rest →
    ∃ ph, (∀ j : Fin 5, k.val + 1 = j.val → ph = .header j) ∧ (k.val = 4 → ph = .body 0) ∧
      decoderTurn s = .next { s with
        src := rest, decHdr := s.decHdr.set k (some b), decCrc := crcStep s.decCrc b, decPhase := ph }

/-- 42_decoder.md R146, HEADER(k) with End or Err: TRUNCATED or IO_ERROR(e); the diagnostic packet is a draw, any Option Packet,
and `n` is the model's own draw counter (log entry 8). DEC_SEQ is unchanged. -/
def Obligations.HeaderCutStep : Prop :=
  ∀ (s : State) (k : Fin 5) (rest : List Symbol), s.decPhase = .header k →
    (s.src = .endOfSource :: rest → ∃ diag n, decoderTurn s = .next { s with
      src := rest, decPhase := .idle, draws := n,
      responses := s.responses.withDecoder ⟨.truncated, diag, none⟩ }) ∧
    (∀ e, s.src = .err e :: rest → ∃ diag n, decoderTurn s = .next { s with
      src := rest, decPhase := .idle, draws := n,
      responses := s.responses.withDecoder ⟨.ioError e, diag, none⟩ })

/-- 42_decoder.md R148, R149, BODY(i) with a byte: a payload byte for i < L is written and absorbed; the bytes for i = L and
i = L + 1 are the low and high checksum bytes, not absorbed; after the second comes VERIFY. -/
def Obligations.BodyByteStep : Prop :=
  ∀ (s : State) (i : Nat) (l b : Byte) (rest : List Symbol),
    s.decPhase = .body i → s.decHdr[0] = some l → s.src = .byte b :: rest →
    (∀ h : i < l.toNat, decoderTurn s = .next { s with
      src := rest, decPay := s.decPay.set i (some b) (by have := l.isLt; omega), decCrc := crcStep s.decCrc b,
      decPhase := .body (i + 1) }) ∧
    (i = l.toNat → decoderTurn s = .next { s with
      src := rest, decCk := s.decCk.set 0 (some b), decPhase := .body (l.toNat + 1) }) ∧
    (i = l.toNat + 1 → decoderTurn s = .next { s with
      src := rest, decCk := s.decCk.set 1 (some b), decPhase := .verify })

/-- 42_decoder.md R150, BODY(i) with End or Err: TRUNCATED or IO_ERROR(e) with the header fields received; payload and checksum of
the packet are draws, and `n` is the model's own draw counter (log entry 8). The registry is not consulted. DEC_SEQ is unchanged. -/
def Obligations.BodyCutStep : Prop :=
  ∀ (s : State) (i : Nat) (seq sys comp msg : Byte) (rest : List Symbol),
    s.decPhase = .body i → s.decHdr[1] = some seq → s.decHdr[2] = some sys → s.decHdr[3] = some comp →
    s.decHdr[4] = some msg →
    (s.src = .endOfSource :: rest → ∃ pay ck n, decoderTurn s = .next { s with
      src := rest, decPhase := .idle, draws := n,
      responses := s.responses.withDecoder ⟨.truncated, some ⟨seq, sys, comp, msg, pay, ck⟩, none⟩ }) ∧
    (∀ e, s.src = .err e :: rest → ∃ pay ck n, decoderTurn s = .next { s with
      src := rest, decPhase := .idle, draws := n,
      responses := s.responses.withDecoder ⟨.ioError e, some ⟨seq, sys, comp, msg, pay, ck⟩, none⟩ })

/-- 42_decoder.md R151, R152, R153, R155, VERIFY with the registers written: it reads no symbol; an unknown id gives UNKNOWN_MESSAGE,
before any comparison; a sum with the seed absorbed last that differs from the received checksum gives CHECKSUM_MISMATCH; else DEC_SEQ
takes the frame's sequence id and the response is OK. The packet carries every field as received in each case. Where the machine's
decoder invariant holds, DEC_CRC is the sum of the five header bytes and the payload. -/
def Obligations.VerifyStep : Prop :=
  ∀ (s : State) (l seq sys comp msg lo hi : Byte) (p : Packet),
    s.decPhase = .verify → s.decHdr = #v[some l, some seq, some sys, some comp, some msg] →
    s.decCk = #v[some lo, some hi] → p.payload.bytes.length = l.toNat →
    (∀ j, (h : j < p.payload.bytes.length) → s.decPay[j]? = some (some p.payload.bytes[j])) →
    p.sequenceId = seq → p.systemId = sys → p.componentId = comp → p.messageId = msg →
    p.checksum = lo.setWidth 16 ||| (hi.setWidth 16 <<< 8) →
      (lookup s msg = none → decoderTurn s = .next { s with
        decPhase := .idle, responses := s.responses.withDecoder ⟨.unknownMessage, some p, none⟩ }) ∧
      (∀ x, lookup s msg = some x → crcStep s.decCrc x ≠ p.checksum → decoderTurn s = .next { s with
        decPhase := .idle, responses := s.responses.withDecoder ⟨.checksumMismatch, some p, none⟩ }) ∧
      (∀ x, lookup s msg = some x → crcStep s.decCrc x = p.checksum → decoderTurn s = .next { s with
        decPhase := .idle, decSeq := seq, responses := s.responses.withDecoder ⟨.ok, some p, none⟩ }) ∧
      (decoderInv s → s.decCrc = crcOver 0xFFFF ([l, seq, sys, comp, msg] ++ p.payload.bytes))

/-- 20_memory.md R50, R66: a decoder that reads an empty SRC holds, and no timeout ends it. That its turn, and a turn of an idle
decoder, which has no step, answer the same state is the model's choice of how to show this (DESIGN CHOICE, log entry 5). -/
def Obligations.DecoderHoldsOnEmptySource : Prop :=
  ∀ s : State, (s.decPhase ≠ .verify ∧ s.src = []) ∨ s.decPhase = .idle → decoderTurn s = .next s

/-- 42_decoder.md R160 to R166, DEC.DECODE_BUF: its encoding; F_BUSY, then F_BAD_OPERAND, each with no other change; INVALID_HEADER
for fewer than 6 bytes or another first byte; TRUNCATED for n < 8 + L, with the header fields and drawn payload and checksum (`n` is
the model's own draw counter, log entry 8); else the bytes from offset 8 + L on are ignored, the lookup comes before the comparison,
and DEC_SEQ changes on OK only; the example. Where no fault is recorded, `b` is the state with DEC_HDR, DEC_PAY and DEC_CK reset to
`none` and some value in DEC_CRC, as 10_state.md R27 and R21 have the command start; R160's own list of registers written names
DEC_SEQ alone, and this reading of the two is the model's (BufferStarted; DEDUCED, log entry 10). -/
def Obligations.DecDecodeBufCommand : Prop :=
  ∀ (buf : List Byte) (s : State), buf.length ≤ 65535 →
    decode (0x21 :: BitVec.ofNat 8 buf.length :: BitVec.ofNat 8 (buf.length / 256) :: buf) =
      .command (.decDecodeBuf buf) ∧
    (s.decPhase ≠ .idle → exec (.decDecodeBuf buf) s = .next { s with faults := { s.faults with busy := true } }) ∧
    (s.decPhase = .idle → s.cfg.maxBuf < buf.length →
      exec (.decDecodeBuf buf) s = .next { s with faults := { s.faults with badOperand := true } }) ∧
    (s.decPhase = .idle → buf.length ≤ s.cfg.maxBuf → ∃ b, BufferStarted s b ∧
      (buf.length < 6 ∨ buf[0]? ≠ some 0xFE → exec (.decDecodeBuf buf) s =
        .next { b with responses := s.responses.withDecoder ⟨.invalidHeader, none, none⟩ }) ∧
      (∀ l seq sys comp msg tail, buf = 0xFE :: l :: seq :: sys :: comp :: msg :: tail → buf.length < 8 + l.toNat →
        ∃ pay ck n, exec (.decDecodeBuf buf) s = .next { b with
          draws := n,
          responses := s.responses.withDecoder ⟨.truncated, some ⟨seq, sys, comp, msg, pay, ck⟩, none⟩ }) ∧
      (∀ (l lo hi : Byte) (tail : List Byte) (p : Packet),
        buf = 0xFE :: l :: p.sequenceId :: p.systemId :: p.componentId :: p.messageId ::
          (p.payload.bytes ++ lo :: hi :: tail) →
        p.payload.bytes.length = l.toNat → p.checksum = lo.setWidth 16 ||| (hi.setWidth 16 <<< 8) →
        (lookup s p.messageId = none → exec (.decDecodeBuf buf) s =
          .next { b with responses := s.responses.withDecoder ⟨.unknownMessage, some p, none⟩ }) ∧
        (∀ x, lookup s p.messageId = some x →
          (crcOver 0xFFFF ([l, p.sequenceId, p.systemId, p.componentId, p.messageId] ++ p.payload.bytes ++ [x]) ≠
              p.checksum → exec (.decDecodeBuf buf) s =
            .next { b with responses := s.responses.withDecoder ⟨.checksumMismatch, some p, none⟩ }) ∧
          (crcOver 0xFFFF ([l, p.sequenceId, p.systemId, p.componentId, p.messageId] ++ p.payload.bytes ++ [x]) =
              p.checksum → exec (.decDecodeBuf buf) s =
            .next { b with
              decSeq := p.sequenceId, responses := s.responses.withDecoder ⟨.ok, some p, none⟩ })))) ∧
    (s.decPhase = .idle → 8 ≤ s.cfg.maxBuf → lookup s 0 = some 0x32 → ∃ b, BufferStarted s b ∧
      exec (.decDecodeBuf [0xFE, 0x00, 0x00, 0x01, 0x01, 0x00, 0x86, 0x5C]) s = .next { b with
        decSeq := 0, responses := s.responses.withDecoder
          ⟨.ok, some ⟨0, 1, 1, 0, payloadOf [], 0x5C86⟩, none⟩ })

/-- 42_decoder.md R170, DEC.SEQ: its encoding; F_BUSY on a busy decoder; otherwise OK with DEC_SEQ, nothing else changed; before any
successful decode it returns DEC_SEQ_RESET: at reset, and after every step for as long as no OK response with a Packet has come out
of the decoder; the example. -/
def Obligations.DecSeqCommand : Prop :=
  decode [0x22] = .command .decSeq ∧
  (∀ s : State,
    (s.decPhase ≠ .idle → exec .decSeq s = .next { s with faults := { s.faults with busy := true } }) ∧
    (s.decPhase = .idle → exec .decSeq s =
      .next { s with responses := s.responses.withDecoder ⟨.ok, none, some (s.decSeq.setWidth 16)⟩ })) ∧
  (∃ t, exec .decSeq State.reset = .next t ∧
    t.responses.decoder = [⟨.ok, none, some (State.reset.cfg.decSeqReset.setWidth 16)⟩]) ∧
  decSeqInv State.reset ∧
  (∀ s t : State, decSeqInv s → step s = .next t → decSeqInv t) ∧
  (∀ s : State, decSeqInv s → (∀ r ∈ s.responses.decoder, r.status = .ok → r.packet = none) → s.decPhase = .idle →
    exec .decSeq s =
      .next { s with responses := s.responses.withDecoder ⟨.ok, none, some (s.cfg.decSeqReset.setWidth 16)⟩ }) ∧
  (∀ s : State, s.decPhase = .idle → 8 ≤ s.cfg.maxBuf → lookup s 0 = some 0x32 →
    ∃ t r, execAll [.decDecodeBuf [0xFE, 0x00, 0x00, 0x01, 0x01, 0x00, 0x86, 0x5C], .decSeq] s = .next t ∧
      t.responses.decoder = s.responses.decoder ++ [r, ⟨.ok, none, some 0x0000⟩])

/-- 20_memory.md R53, 42_decoder.md R161: every buffer read of a buffer decode is inside the buffer, so no step records F_OOB. -/
def Obligations.BufferReadsStayInside : Prop :=
  (∀ buf : List Byte, viewBuffer buf ≠ none) ∧
  (∀ s t : State, step s = .next t → t.faults.oob = s.faults.oob)

/-- 42_decoder.md R154: DEC.DECODE run step by step on SRC ends as the one function `decode(SRC)` says, with the symbols it leaves, in
at most two steps more than the symbols it is given. -/
def Obligations.StreamDecodeIsOneFunction : Prop :=
  ∀ (s : State) (result : StreamResult) (rest : List Symbol),
    s.decPhase = .idle → s.moves = [.command [0x20]] → decodeStream (lookup s) s.src = some (result, rest) →
      ∃ k t, k ≤ s.src.length + 2 ∧ Host.Core.run Sys2Proof.core k s = .next t ∧ t.src = rest ∧ t.moves = [] ∧
        DecodeEnded result s t

/-- 42_decoder.md R168: on a complete frame, valid or not, stream decode and buffer decode give the same status and Packet and the
same DEC_SEQ. -/
def Obligations.StreamAndBufferAgree : Prop :=
  ∀ (s : State) (l : Byte) (tail : List Byte),
    s.decPhase = .idle → s.moves = [.command [0x20]] → s.src = (0xFE :: l :: tail).map Symbol.byte →
    tail.length + 2 = 8 + l.toNat → tail.length + 2 ≤ s.cfg.maxBuf →
      ∃ k t u, Host.Core.run Sys2Proof.core k s = .next t ∧ exec (.decDecodeBuf (0xFE :: l :: tail)) s = .next u ∧
        t.decPhase = .idle ∧ t.src = [] ∧ t.responses = u.responses ∧ t.decSeq = u.decSeq ∧
        ∃ st p, u.responses = s.responses.withDecoder ⟨st, some p, none⟩

/-- 42_decoder.md R158: garbage without 0xFE, a valid frame and End: one DEC.DECODE skips the garbage, returns OK with the frame's
Packet, all six fields of it, and leaves the End. -/
def Obligations.ResynchronizationSkipsGarbage : Prop :=
  ∀ (s : State) (garbage F : List Byte) (seq sys comp msg : Byte) (payload : List Byte),
    (∀ b ∈ garbage, b ≠ 0xFE) → ValidFrame s F seq sys comp msg payload →
    s.decPhase = .idle → s.moves = [.command [0x20]] → s.src = (garbage ++ F).map Symbol.byte ++ [.endOfSource] →
      ∃ k t p, Host.Core.run Sys2Proof.core k s = .next t ∧ t.src = [.endOfSource] ∧ t.decPhase = .idle ∧
        t.responses = s.responses.withDecoder ⟨.ok, some p, none⟩ ∧ t.decSeq = seq ∧
        p.sequenceId = seq ∧ p.systemId = sys ∧ p.componentId = comp ∧ p.messageId = msg ∧ p.payload.bytes = payload ∧
        ∃ x, lookup s msg = some x ∧
          p.checksum = crcOver 0xFFFF ([BitVec.ofNat 8 payload.length, seq, sys, comp, msg] ++ payload ++ [x])

/-- 42_decoder.md R171: a complete frame whose id no registered dialect defines gives UNKNOWN_MESSAGE whatever its checksum bytes are,
with every header field as received, in both decoders, and leaves DEC_SEQ. -/
def Obligations.UnknownMessageWhateverTheChecksum : Prop :=
  ∀ (s : State) (l seq sys comp msg lo hi : Byte) (payload : List Byte),
    s.decPhase = .idle → payload.length = l.toNat → 8 + l.toNat ≤ s.cfg.maxBuf → lookup s msg = none →
      (∃ t p, exec (.decDecodeBuf ([0xFE, l, seq, sys, comp, msg] ++ payload ++ [lo, hi])) s = .next t ∧
        t.responses = s.responses.withDecoder ⟨.unknownMessage, some p, none⟩ ∧ t.decSeq = s.decSeq ∧
        p.sequenceId = seq ∧ p.systemId = sys ∧ p.componentId = comp ∧ p.messageId = msg) ∧
      (∀ after, ∃ p,
        decodeStream (lookup s) (([0xFE, l, seq, sys, comp, msg] ++ payload ++ [lo, hi]).map Symbol.byte ++ after) =
          some (.whole .unknownMessage p, after) ∧
        p.sequenceId = seq ∧ p.systemId = sys ∧ p.componentId = comp ∧ p.messageId = msg)

/-- 42_decoder.md R169: a valid frame with exactly one byte changed at an offset from 2 to 7 + L other than the message id's is
rejected with CHECKSUM_MISMATCH, as a buffer and as a stream (R154) that ends with the frame's last byte, and DEC_SEQ stays. -/
def Obligations.CorruptedByteIsRejected : Prop :=
  ∀ (s : State) (F F' : List Byte) (seq sys comp msg : Byte) (payload : List Byte) (j : Nat),
    s.decPhase = .idle → ValidFrame s F seq sys comp msg payload → F.length ≤ s.cfg.maxBuf →
    2 ≤ j → j ≠ 5 → F'.length = F.length → F'[j]? ≠ F[j]? → (∀ k, k ≠ j → F'[k]? = F[k]?) →
      ∃ t p, exec (.decDecodeBuf F') s = .next t ∧
        t.responses = s.responses.withDecoder ⟨.checksumMismatch, some p, none⟩ ∧ t.decSeq = s.decSeq ∧
        ∀ after, decodeStream (lookup s) (F'.map Symbol.byte ++ after) = some (.whole .checksumMismatch p, after)

/-- What a DEC command leaves unchanged (42_decoder.md R140, R142, R160, R170; 10_state.md R21): all but the decoder's registers, its
own responses, FAULTS and the draw counter; DEC.DECODE leaves DEC_CRC and DEC_SEQ, DEC.DECODE_BUF DEC_PHASE, and
its frame registers are unchanged on a fault, which gives no response, and otherwise reset (BufferStarted; DEDUCED, log entry 10), DEC.SEQ all the decoder's
registers. -/
def Obligations.DecoderCommandsFrame : Prop :=
  ∀ (i : Instr) (s t : State),
    (i = .decDecode ∨ (∃ buf, i = .decDecodeBuf buf) ∨ i = .decSeq) → exec i s = .next t →
      (i = .decDecode → t.decCrc = s.decCrc ∧ t.decSeq = s.decSeq ∧ t.responses = s.responses ∧ t.draws = s.draws) ∧
      ((∃ buf, i = .decDecodeBuf buf) →
        (t.responses = s.responses → SameDecoder s t) ∧
        (t.responses ≠ s.responses → ∃ b, BufferStarted s b ∧ SameDecoder b { t with decSeq := s.decSeq })) ∧
      (i = .decSeq → SameDecoder s t ∧ t.draws = s.draws) ∧
      t.acc = s.acc ∧ t.regList = s.regList ∧ SameEncoder s t ∧ SameOutside s t ∧
      SameFaultsBut [.busy, .badOperand] s t ∧
      t.responses.crc = s.responses.crc ∧ t.responses.registry = s.responses.registry ∧
      t.responses.encoder = s.responses.encoder

/-! ### Encoder (43_encoder.md) -/

/-- 43_encoder.md R192 step 1, R193, R196, ENC.PACKET: its encoding; F_BUSY on a busy encoder; an unknown id ends it with no sink
request, SNK and ENC_SEQ unchanged and any bytes in ENC_FRAME (log entries 8 and 11); otherwise ENC_FRAME is the frame, its checksum over the
header bytes after the marker, the payload and the seed from 0xFFFF, little-endian, and the encoder awaits the sink. ACC is
unchanged. -/
def Obligations.EncPacketBuildsTheFrame : Prop :=
  ∀ (seqIn sys comp msg : Byte) (payload : List Byte) (s : State), payload.length ≤ 255 →
    let l : Byte := BitVec.ofNat 8 payload.length
    decode ([0x30, l, seqIn, sys, comp, msg] ++ payload) = .command (.encPacket seqIn sys comp msg payload) ∧
    (s.encPhase ≠ .idle → exec (.encPacket seqIn sys comp msg payload) s =
      .next { s with faults := { s.faults with busy := true } }) ∧
    (s.encPhase = .idle →
      (lookup s msg = none → ∃ (any : List Byte) (n : Nat), any.length ≤ 263 ∧
        exec (.encPacket seqIn sys comp msg payload) s = .next { s with
          encFrame := any, draws := n,
          responses := s.responses.withEncoder ⟨.unknownMessage, none, none⟩ }) ∧
      (∀ x, lookup s msg = some x →
        ∃ c : Word, c = crcOver 0xFFFF ([l, s.encSeq, sys, comp, msg] ++ payload ++ [x]) ∧
          exec (.encPacket seqIn sys comp msg payload) s = .next { s with
            encPhase := .flush
            encFrame := [0xFE, l, s.encSeq, sys, comp, msg] ++ payload ++
              [c.extractLsb' 0 8, c.extractLsb' 8 8] }))

/-- 43_encoder.md R192 step 2, R195, R197, R198, the sink's answer to a pending request: the whole frame accepted gives OK and ENC_SEQ +
1 modulo 256 in one step; fewer bytes give SHORT_WRITE and those bytes stay in SNK; an error passes through with SNK unchanged; ENC_SEQ
advances on OK only. -/
def Obligations.SinkAnswerEndsTheEncode : Prop :=
  ∀ (s : State) (ms : List Move), s.encPhase = .flush →
    (s.moves = .answer (.accepted s.encFrame.length) :: ms → step s = .next { s with
      moves := ms, snk := s.snk ++ s.encFrame, encSeq := s.encSeq + 1, encPhase := .idle,
      responses := s.responses.withEncoder ⟨.ok, none, none⟩ }) ∧
    (∀ k, k < s.encFrame.length → s.moves = .answer (.accepted k) :: ms → step s = .next { s with
      moves := ms, snk := s.snk ++ s.encFrame.take k, encPhase := .idle,
      responses := s.responses.withEncoder ⟨.shortWrite, none, none⟩ }) ∧
    (∀ e, s.moves = .answer (.err e) :: ms → step s = .next { s with
      moves := ms, encPhase := .idle, responses := s.responses.withEncoder ⟨.ioError e, none, none⟩ })

/-- 43_encoder.md R194: the packet's own sequence field changes no result, and byte 2 of the frame is ENC_SEQ. -/
def Obligations.SequenceFieldIsIgnored : Prop :=
  ∀ (q q' sys comp msg : Byte) (payload : List Byte) (s : State),
    exec (.encPacket q sys comp msg payload) s = exec (.encPacket q' sys comp msg payload) s ∧
    (∀ t, s.encPhase = .idle → exec (.encPacket q sys comp msg payload) s = .next t → t.encPhase = .flush →
      t.encFrame[2]? = some s.encSeq)

/-- 43_encoder.md R200, ENC.SEQ: its encoding; F_BUSY on a busy encoder; otherwise OK with ENC_SEQ, nothing else changed; before any
encode it returns ENC_SEQ_RESET: at reset, and after every step for as long as no OK response but those of ENC.SEQ has come out of
the encoder; after the example of R192 it returns 1. -/
def Obligations.EncSeqCommand : Prop :=
  decode [0x31] = .command .encSeq ∧
  (∀ s : State,
    (s.encPhase ≠ .idle → exec .encSeq s = .next { s with faults := { s.faults with busy := true } }) ∧
    (s.encPhase = .idle → exec .encSeq s =
      .next { s with responses := s.responses.withEncoder ⟨.ok, none, some (s.encSeq.setWidth 16)⟩ })) ∧
  (∃ t, exec .encSeq State.reset = .next t ∧
    t.responses.encoder = [⟨.ok, none, some (State.reset.cfg.encSeqReset.setWidth 16)⟩]) ∧
  encSeqInv State.reset ∧
  (∀ s t : State, encSeqInv s → step s = .next t → encSeqInv t) ∧
  (∀ s : State, encSeqInv s → (∀ r ∈ s.responses.encoder, r.status = .ok → r.value ≠ none) → s.encPhase = .idle →
    exec .encSeq s =
      .next { s with responses := s.responses.withEncoder ⟨.ok, none, some (s.cfg.encSeqReset.setWidth 16)⟩ }) ∧
  (∀ s : State, s.encPhase = .idle → s.encSeq = 0 → lookup s 0 = some 0x32 →
    s.moves = [.command [0x30, 0x00, 0x00, 0x01, 0x01, 0x00], .answer (.accepted 8), .command [0x31]] →
    ∃ t, Host.Core.run Sys2Proof.core 3 s = .next t ∧
      t.snk = s.snk ++ [0xFE, 0x00, 0x00, 0x01, 0x01, 0x00, 0x86, 0x5C] ∧
      t.responses.encoder = s.responses.encoder ++ [⟨.ok, none, none⟩, ⟨.ok, none, some 0x0001⟩])

/-- 43_encoder.md R201: N encodes in a row that all return OK carry the sequence ids s, s + 1, …, s + N - 1 modulo 256, whatever the
packets' own sequence fields, and ENC_SEQ ends at s + N. -/
def Obligations.SequenceIdsAreConsecutive : Prop :=
  ∀ (ps : List (Byte × Byte × Byte × Byte × List Byte)) (s : State) (ms : List Move),
    s.encPhase = .idle → s.moves = encodeMoves ps ++ ms →
    (∀ q sys comp msg payload, (q, sys, comp, msg, payload) ∈ ps → payload.length ≤ 255 ∧ lookup s msg ≠ none) →
      ∃ t frames, Host.Core.run Sys2Proof.core (2 * ps.length) s = .next t ∧ t.moves = ms ∧ t.encPhase = .idle ∧
        t.encSeq = s.encSeq + BitVec.ofNat 8 ps.length ∧ t.snk = s.snk ++ List.flatten frames ∧
        frames.length = ps.length ∧
        t.responses.encoder = s.responses.encoder ++ List.replicate ps.length ⟨.ok, none, none⟩ ∧
        ∀ j q sys comp msg payload, ps[j]? = some (q, sys, comp, msg, payload) →
          ∃ F, frames[j]? = some F ∧ ValidFrame s F (s.encSeq + BitVec.ofNat 8 j) sys comp msg payload

/-- 43_encoder.md R202: a frame that ENC.PACKET hands to the sink decodes, under the same registry, as a buffer and as a stream, to OK
with the packet's own sys, comp, msg and payload, the encoder's sequence id and the computed checksum. In the next state of
DEC.DECODE_BUF the frame registers are reset and DEC_CRC has some value (`b`; DEDUCED, log entry 10). -/
def Obligations.DecodeInvertsEncodePacket : Prop :=
  ∀ (q sys comp msg : Byte) (payload : List Byte) (s t d : State),
    s.encPhase = .idle → exec (.encPacket q sys comp msg payload) s = .next t → t.encPhase = .flush →
    d.cfg = s.cfg → d.regList = s.regList → d.decPhase = .idle → t.encFrame.length ≤ d.cfg.maxBuf →
      ∃ p : Packet, p.sequenceId = s.encSeq ∧ p.systemId = sys ∧ p.componentId = comp ∧ p.messageId = msg ∧
        p.payload.bytes = payload ∧
        (∃ x, lookup s msg = some x ∧
          p.checksum = crcOver 0xFFFF ([BitVec.ofNat 8 payload.length, s.encSeq, sys, comp, msg] ++ payload ++ [x])) ∧
        (∃ b, BufferStarted d b ∧ exec (.decDecodeBuf t.encFrame) d = .next { b with
          decSeq := s.encSeq, responses := d.responses.withDecoder ⟨.ok, some p, none⟩ }) ∧
        ∀ after, decodeStream (lookup d) (t.encFrame.map Symbol.byte ++ after) = some (.whole .ok p, after)

/-- What an ENC command leaves unchanged (43_encoder.md R190, R200; 10_state.md R21): all but ENC_PHASE, ENC_FRAME, its own responses,
F_BUSY and the draw counter; in particular SNK, ENC_SEQ, ACC and the decoder; ENC.SEQ leaves the encoder's registers too. -/
def Obligations.EncoderCommandsFrame : Prop :=
  ∀ (i : Instr) (s t : State),
    ((∃ q sys comp msg payload, i = .encPacket q sys comp msg payload) ∨ i = .encSeq) → exec i s = .next t →
      (i = .encSeq → SameEncoder s t ∧ t.draws = s.draws) ∧
      t.encSeq = s.encSeq ∧ t.acc = s.acc ∧ t.regList = s.regList ∧ SameDecoder s t ∧ SameOutside s t ∧
      SameFaultsBut [.busy] s t ∧
      t.responses.crc = s.responses.crc ∧ t.responses.registry = s.responses.registry ∧
      t.responses.decoder = s.responses.decoder

/-! ### The whole machine -/

/-- 10_state.md R36, 70_reset_and_hazards.md R250: the state at reset. The counters are the parameters DEC_SEQ_RESET and ENC_SEQ_RESET;
DEC_CRC and SRC may hold anything, and no statement rests on them (log entry 9). -/
def Obligations.ResetState : Prop :=
  State.reset.acc = none ∧ State.reset.regList = [State.reset.cfg.defaultDialect] ∧ State.reset.decPhase = .idle ∧
  State.reset.encPhase = .idle ∧ writtenTo 0 State.reset.decHdr ∧ writtenTo 0 State.reset.decPay ∧
  writtenTo 0 State.reset.decCk ∧ State.reset.encFrame = [] ∧ State.reset.decSeq = State.reset.cfg.decSeqReset ∧
  State.reset.encSeq = State.reset.cfg.encSeqReset ∧ FaultFree State.reset

/-- The invariant (10_state.md R23, R26, R27, R28; 00_scope.md R9) holds at reset. -/
def Obligations.ResetMeetsTheInvariant : Prop := Inv State.reset

/-- From every state that meets the invariant, not only those a run reaches, a step gives a state that meets it (10_state.md R23, R26,
R27, R28; 42_decoder.md R152; 20_memory.md R61 item 4). -/
def Obligations.StepKeepsTheInvariant : Prop := ∀ s t : State, Inv s → step s = .next t → Inv t

/-- From a state that meets the invariant a step never stops with a fault, and it is refused only for an input the spec gives no move:
a record that is not one whole command, or an answer to no request or of more bytes than asked (20_memory.md R55, 30_encoding.md R84,
60_exceptions.md R237). -/
def Obligations.StepStopsOnlyOnInputsWithoutMove : Prop :=
  ∀ s : State, Inv s →
    (∀ r, step s ≠ .fault r) ∧
    (∀ r, step s = .refused r →
      (∃ record ms, s.moves = .command record :: ms ∧ decode record = .notWhole ∧ r = .notWholeCommand) ∨
      (∃ a ms, s.moves = .answer a :: ms ∧ s.encPhase = .idle ∧ r = .noPendingRequest) ∨
      (∃ k ms, s.moves = .answer (.accepted k) :: ms ∧ s.encPhase = .flush ∧ s.encFrame.length < k ∧
        r = .acceptedTooMuch))

/-- The inputs that cannot be written down or have no move are refused by name: over-long lists (30_encoding.md R86, 10_state.md R30),
records that are not one whole command (R84), answers without a request or beyond it (20_memory.md R55, 60_exceptions.md R237). -/
def Obligations.InputsWithoutMoveAreRefused : Prop :=
  ∀ (s : State) (ms : List Move),
    (∀ data : List Byte, 65535 < data.length →
      exec (.crcBlock data) s = .refused .operandTooLong ∧ exec (.decDecodeBuf data) s = .refused .operandTooLong) ∧
    (∀ ds : List Byte, 255 < ds.length → exec (.regNew ds) s = .refused .operandTooLong) ∧
    (∀ q sys comp msg payload, 255 < payload.length →
      exec (.encPacket q sys comp msg payload) s = .refused .operandTooLong) ∧
    (∀ record, decode record = .notWhole → s.moves = .command record :: ms → step s = .refused .notWholeCommand) ∧
    (∀ a, s.encPhase = .idle → s.moves = .answer a :: ms → step s = .refused .noPendingRequest) ∧
    (∀ k, s.encPhase = .flush → s.encFrame.length < k → s.moves = .answer (.accepted k) :: ms →
      step s = .refused .acceptedTooMuch)

/-- 60_exceptions.md R229, 10_state.md R29: a record that adds a fault changes nothing else and gives no response; no step of the
machine removes a fault; and a faulted state is no normal end. -/
def Obligations.FaultsAreStickyAndChangeNothingElse : Prop :=
  (∀ (record : List Byte) (s t : State), issueRecord record s = .next t → t.faults ≠ s.faults →
    ∃ f, t = { s with faults := addFault f s.faults }) ∧
  (∀ (s t : State) (f : ModelFault), step s = .next t → faultRecorded s.faults f = true →
    faultRecorded t.faults f = true) ∧
  (∀ (s : State) (f : ModelFault), faultRecorded s.faults f = true → ¬ NormalEnd s)

/-- 10_state.md R31, 60_exceptions.md R220, R237: a command either records a fault and gives no response, or is one response given now
or one unit busy more; no other move changes the sum of the responses given and the units busy. So every command that does not fault
ends with exactly one response. -/
def Obligations.EveryCommandHasOneResponse : Prop :=
  (∀ (i : Instr) (s t : State), exec i s = .next t →
    (∃ f, t = { s with faults := addFault f s.faults }) ∨
      responseCount t + inProgress t = responseCount s + inProgress s + 1) ∧
  (∀ (m : Move) (s t : State), (∀ record, m ≠ .command record) → takeMove m s = .next t →
    responseCount t + inProgress t = responseCount s + inProgress s ∧ t.faults = s.faults)

/-- 00_scope.md R10, 60_exceptions.md R237: no step changes the dialect tables or any other parameter. -/
def Obligations.ParametersNeverChange : Prop := ∀ s t : State, step s = .next t → t.cfg = s.cfg

/-- 20_memory.md R63, 10_state.md R33: DEC_SEQ and ENC_SEQ change only in the step of the unit's OK response, to the frame's sequence id
and to the next number. -/
def Obligations.CountersChangeOnlyWithOk : Prop :=
  ∀ s t : State, step s = .next t →
    (t.decSeq ≠ s.decSeq → ∃ p, t.responses = s.responses.withDecoder ⟨.ok, some p, none⟩ ∧ t.decSeq = p.sequenceId) ∧
    (t.encSeq ≠ s.encSeq → t.responses = s.responses.withEncoder ⟨.ok, none, none⟩ ∧ t.encSeq = s.encSeq + 1)

/-- 20_memory.md R51, R55, R58: in one step SRC gains one symbol, loses its first one, or stays, and loses none while the decoder is
idle; SNK only grows, by the first bytes of the pending request, and not at all while no request is pending. -/
def Obligations.StreamsOnlyMoveForward : Prop :=
  ∀ s t : State, step s = .next t →
    (t.src = s.src ∨ (∃ x ms, s.moves = .source x :: ms ∧ t.src = s.src ++ [x]) ∨
      (s.decPhase ≠ .idle ∧ ∃ x, s.src = x :: t.src)) ∧
    (t.snk = s.snk ∨ (s.encPhase = .flush ∧ ∃ k, t.snk = s.snk ++ s.encFrame.take k))

/-- 40_checksum.md R111: no move but a CRC command reads or writes ACC: two runs that differ in ACC alone differ in ACC alone. -/
def Obligations.AccumulatorIsOnlyForCrcCommands : Prop :=
  ∀ (s : State) (a : Option Word),
    (∀ i : Instr, i ≠ .crcInit → (∀ b, i ≠ .crcByte b) → (∀ data, i ≠ .crcBlock data) → i ≠ .crcFinal →
      exec i { s with acc := a } = mapNext (fun t => { t with acc := a }) (exec i s)) ∧
    decoderTurn { s with acc := a } = mapNext (fun t => { t with acc := a }) (decoderTurn s) ∧
    (∀ x, sinkAnswer x { s with acc := a } = mapNext (fun t => { t with acc := a }) (sinkAnswer x s))

/-- 43_encoder.md R203: no encoder command or sink answer reads or writes DEC_SEQ, and no decoder command or turn reads or writes
ENC_SEQ. -/
def Obligations.SequenceCountersAreIndependent : Prop :=
  ∀ (s : State) (n : Byte),
    (∀ q sys comp msg payload, exec (.encPacket q sys comp msg payload) { s with decSeq := n } =
      mapNext (fun t => { t with decSeq := n }) (exec (.encPacket q sys comp msg payload) s)) ∧
    exec .encSeq { s with decSeq := n } = mapNext (fun t => { t with decSeq := n }) (exec .encSeq s) ∧
    (∀ x, sinkAnswer x { s with decSeq := n } = mapNext (fun t => { t with decSeq := n }) (sinkAnswer x s)) ∧
    exec .decDecode { s with encSeq := n } = mapNext (fun t => { t with encSeq := n }) (exec .decDecode s) ∧
    (∀ buf, exec (.decDecodeBuf buf) { s with encSeq := n } =
      mapNext (fun t => { t with encSeq := n }) (exec (.decDecodeBuf buf) s)) ∧
    exec .decSeq { s with encSeq := n } = mapNext (fun t => { t with encSeq := n }) (exec .decSeq s) ∧
    decoderTurn { s with encSeq := n } = mapNext (fun t => { t with encSeq := n }) (decoderTurn s)

/-- 20_memory.md R64, 60_exceptions.md R237: when the next move puts on the port the bytes of a well-formed command, the step is exec of
that command at the state with the move taken off; nothing else is added. -/
def Obligations.StepRunsTheDecodedCommand : Prop :=
  ∀ (s : State) (record : List Byte) (ms : List Move) (i : Instr),
    s.moves = .command record :: ms → decode record = .command i → step s = exec i { s with moves := ms }

/-- 20_memory.md R50, R61, R66: the other moves: the host appends a symbol, the decoder takes its turn; and with nothing listed the
decoder goes on by itself. -/
def Obligations.StepTakesTheNextMove : Prop :=
  ∀ (s : State) (ms : List Move),
    (∀ x, s.moves = .source x :: ms → step s = .next { s with moves := ms, src := s.src ++ [x] }) ∧
    (s.moves = .decoder :: ms → step s = decoderTurn { s with moves := ms }) ∧
    (s.moves = [] → step s = decoderTurn s)
end

