-- ==== Sys2Proof/Laws/Decode.lean ====
section
/-! SUPPORT. Byte order, the opcode map and the five formats: one lemma for what each of them reads. -/

namespace Sys2Proof

/-! ### Byte order (20_memory.md R52) -/

/-- The number a little-endian pair is. -/
theorem le16_toNat (lo hi : Byte) : (le16 lo hi).toNat = lo.toNat + 256 * hi.toNat := by
  have hl := lo.isLt
  have hh := hi.isLt
  have hs : hi.toNat <<< 8 % 65536 = hi.toNat <<< 8 := Nat.mod_eq_of_lt (by rw [Nat.shiftLeft_eq]; omega)
  have hlo : lo.toNat % 65536 = lo.toNat := Nat.mod_eq_of_lt (by omega)
  have hhi : hi.toNat % 65536 = hi.toNat := Nat.mod_eq_of_lt (by omega)
  simp only [le16, zext16, BitVec.toNat_or, BitVec.toNat_shiftLeft, BitVec.truncate_eq_setWidth, BitVec.toNat_setWidth,
    Nat.reducePow, hlo, hhi, hs]
  rw [Nat.or_comm, ← Nat.shiftLeft_add_eq_or_of_lt hl, Nat.shiftLeft_eq]
  omega

/-- The low byte of a number. -/
theorem loByte_ofNat (n : Nat) : loByte (BitVec.ofNat 16 n) = BitVec.ofNat 8 n := by
  apply BitVec.eq_of_toNat_eq
  simp [loByte]

/-- The high byte of a number. -/
theorem hiByte_ofNat (n : Nat) : hiByte (BitVec.ofNat 16 n) = BitVec.ofNat 8 (n / 256) := by
  apply BitVec.eq_of_toNat_eq
  simp [hiByte, Nat.shiftRight_eq_div_pow]
  omega

/-- The bytes of a sum give it back. -/
@[simp] theorem le16_loByte_hiByte (c : Word) : le16 (loByte c) (hiByte c) = c := by
  apply BitVec.eq_of_toNat_eq
  rw [le16_toNat]
  have := c.isLt
  simp [loByte, hiByte, Nat.shiftRight_eq_div_pow]
  omega

/-- The low byte of a pair. -/
@[simp] theorem loByte_le16 (lo hi : Byte) : loByte (le16 lo hi) = lo := by
  apply BitVec.eq_of_toNat_eq
  have := lo.isLt
  simp [loByte, le16_toNat]
  omega

/-- The high byte of a pair. -/
@[simp] theorem hiByte_le16 (lo hi : Byte) : hiByte (le16 lo hi) = hi := by
  apply BitVec.eq_of_toNat_eq
  have := lo.isLt
  have := hi.isLt
  simp [hiByte, le16_toNat, Nat.shiftRight_eq_div_pow]
  omega

/-! ### The opcode map (30_encoding.md R81) -/

/-- The row of a function's own opcode byte. -/
theorem opcodeRow_byte (op : Op) : ∃ f, opcodeRow op.byte = some (op, f) := by
  cases op <;> exact ⟨_, rfl⟩

/-- No two rows share an opcode byte, and a row's function has that byte. -/
theorem opcodeRow_eq_some {b : Byte} {op : Op} {f : Format} (h : opcodeRow b = some (op, f)) : op.byte = b := by
  have all : ∀ b : Byte, ∀ r, opcodeRow b = some r → r.1.byte = b := by decide
  exact all b _ h

/-! ### The formats (30_encoding.md R80) -/

/-- A C0 command is its opcode. -/
theorem takeC0_eq_command {i j : Instr} {rest : List Byte} : takeC0 i rest = .command j ↔ rest = [] ∧ j = i := by
  cases rest <;> simp [takeC0, eq_comm]

/-- A C8 command has one operand byte. -/
theorem takeC8_eq_command {f : Byte → Instr} {j : Instr} {rest : List Byte} :
    takeC8 f rest = .command j ↔ ∃ b, rest = [b] ∧ j = f b := by
  rcases rest with _ | ⟨b, _ | ⟨c, rest⟩⟩ <;> simp [takeC8, eq_comm]

/-- A CB command has a 16-bit count and that many bytes. -/
theorem takeCB_eq_command {f : List Byte → Instr} {j : Instr} {rest : List Byte} :
    takeCB f rest = .command j ↔
      ∃ lo hi data, rest = lo :: hi :: data ∧ data.length = (le16 lo hi).toNat ∧ j = f data := by
  rcases rest with _ | ⟨lo, _ | ⟨hi, data⟩⟩
  · simp [takeCB]
  · simp [takeCB]
  · by_cases h : data.length = (le16 lo hi).toNat <;> simp [takeCB, h, eq_comm]

/-- A CN command has an 8-bit count and that many indices. -/
theorem takeCN_eq_command {f : List Byte → Instr} {j : Instr} {rest : List Byte} :
    takeCN f rest = .command j ↔ ∃ k ds, rest = k :: ds ∧ ds.length = k.toNat ∧ j = f ds := by
  rcases rest with _ | ⟨k, ds⟩
  · simp [takeCN]
  · by_cases h : ds.length = k.toNat <;> simp [takeCN, h, eq_comm]
    exact fun h' => absurd h'.symm h

/-- A CP command has a length, four header bytes and the payload. -/
theorem takeCP_eq_command {f : Byte → Byte → Byte → Byte → List Byte → Instr} {j : Instr} {rest : List Byte} :
    takeCP f rest = .command j ↔
      ∃ l q sys comp msg payload, rest = l :: q :: sys :: comp :: msg :: payload ∧ payload.length = l.toNat ∧
        j = f q sys comp msg payload := by
  rcases rest with _ | ⟨l, _ | ⟨q, _ | ⟨sys, _ | ⟨comp, _ | ⟨msg, payload⟩⟩⟩⟩⟩
  · simp [takeCP]
  · simp [takeCP]
  · simp [takeCP]
  · simp [takeCP]
  · simp [takeCP]
  · by_cases h : payload.length = l.toNat <;> simp [takeCP, h, eq_comm]
    exact fun h' => absurd h'.symm h

end Sys2Proof
end

