-- ==== Sys2Proof/Laws/Crc.lean ====
section
/-! SUPPORT. The checksum step: it is linear, it is one look into the table, and it is injective in each argument
(spec/40_checksum.md R107, R109). -/

namespace Sys2Proof.Machine

/-- The loop of the step is linear. -/
theorem crcShift_xor (n : Nat) (a b : Word) : crcShift n (a ^^^ b) = crcShift n a ^^^ crcShift n b := by
  induction n generalizing a b with
  | zero => rfl
  | succ n ih =>
    have cancel : ∀ x y z : Word, x ^^^ y = (x ^^^ z) ^^^ (y ^^^ z) := by
      intro x y z
      rw [show (x ^^^ z) ^^^ (y ^^^ z) = x ^^^ y ^^^ (z ^^^ z) by ac_rfl]
      simp
    simp only [crcShift]
    rw [← ih]
    congr 1
    rw [BitVec.getLsbD_xor, BitVec.ushiftRight_xor_distrib]
    cases a.getLsbD 0 <;> cases b.getLsbD 0 <;> simp
    · ac_rfl
    · ac_rfl
    · exact cancel _ _ _

/-- The loop moves a high byte down unchanged. -/
theorem crcShift_high (h : Byte) : crcShift 8 (zext16 h <<< 8) = zext16 h := by
  revert h; decide +kernel

/-- A word is its two bytes. -/
theorem word_eq_bytes (w : Word) : w = (zext16 (hiByte w) <<< 8) ^^^ zext16 (loByte w) := by
  apply BitVec.eq_of_getLsbD_eq
  intro i hi
  by_cases h : i < 8
  · simp [hiByte, loByte, zext16, h, hi]
  · have h1 : 8 + (i - 8) = i := by omega
    have h2 : i - 8 < 8 := by omega
    simp [hiByte, loByte, zext16, h, hi, h1, h2]

/-- The high byte of an accumulator with a byte exclusive-ored in. -/
theorem hiByte_xor_zext16 (acc : Word) (b : Byte) : zext16 (hiByte (acc ^^^ zext16 b)) = acc >>> 8 := by
  apply BitVec.eq_of_getLsbD_eq
  intro i hi
  by_cases h : i < 8
  · simp [zext16, hiByte, h, hi]
  · have : acc.getLsbD (8 + i) = false := BitVec.getLsbD_of_ge acc (8 + i) (by omega)
    simp [zext16, hiByte, h, this]

/-- The low byte of an accumulator with a byte exclusive-ored in. -/
theorem loByte_xor_zext16 (acc : Word) (b : Byte) : loByte (acc ^^^ zext16 b) = b ^^^ loByte acc := by
  apply BitVec.eq_of_getLsbD_eq
  intro i hi
  have : i < 16 := by omega
  simp [loByte, zext16, hi, this, Bool.xor_comm]

/-- One step is one look into the table (40_checksum.md R107). -/
theorem crcStep_eq_table (acc : Word) (b : Byte) : crcStep acc b = crcStepTable acc b := by
  unfold crcStepTable crcTable crcStep
  conv_lhs => rw [word_eq_bytes (acc ^^^ zext16 b), crcShift_xor, crcShift_high, hiByte_xor_zext16]
  simp

/-- Every table entry has a high byte of its own. -/
theorem hiByte_crcTable_inj {i j : Byte} (h : hiByte (crcTable i) = hiByte (crcTable j)) : i = j := by
  have hz : ∀ i : Byte, hiByte (crcTable i) = 0 → i = 0 := by decide +kernel
  have hx : crcTable (i ^^^ j) = crcTable i ^^^ crcTable j := by
    unfold crcTable crcStep
    rw [← crcShift_xor]
    simp [zext16]
  have hh : hiByte (crcTable i ^^^ crcTable j) = hiByte (crcTable i) ^^^ hiByte (crcTable j) :=
    BitVec.extractLsb'_xor
  exact BitVec.xor_eq_zero_iff.mp (hz _ (by rw [hx, hh, h]; simp))

/-- The high byte of a step is the high byte of the table entry it looks up. -/
theorem hiByte_crcStep (acc : Word) (b : Byte) : hiByte (crcStep acc b) = hiByte (crcTable (b ^^^ loByte acc)) := by
  rw [crcStep_eq_table, crcStepTable, loByte_xor_zext16]
  apply BitVec.eq_of_getLsbD_eq
  intro i hi
  have : acc.getLsbD (8 + (8 + i)) = false := BitVec.getLsbD_of_ge acc _ (by omega)
  simp [hiByte, hi, this]

/-- Steps from one accumulator with different bytes differ. -/
theorem crcStep_inj_byte {acc : Word} {b c : Byte} (h : crcStep acc b = crcStep acc c) : b = c := by
  have hi := congrArg hiByte h
  rw [hiByte_crcStep, hiByte_crcStep] at hi
  exact (BitVec.xor_left_inj _).mp (hiByte_crcTable_inj hi)

/-- Steps with one byte from different accumulators differ. -/
theorem crcStep_inj_acc {acc acc' : Word} {b : Byte} (h : crcStep acc b = crcStep acc' b) : acc = acc' := by
  have hi := congrArg hiByte h
  rw [hiByte_crcStep, hiByte_crcStep] at hi
  have hlo : loByte acc = loByte acc' := (BitVec.xor_right_inj _).mp (hiByte_crcTable_inj hi)
  rw [crcStep_eq_table, crcStep_eq_table, crcStepTable, crcStepTable, loByte_xor_zext16, loByte_xor_zext16, hlo] at h
  have hs : acc >>> 8 = acc' >>> 8 := (BitVec.xor_left_inj _).mp h
  have hhi : zext16 (hiByte acc) = zext16 (hiByte acc') := by
    have ha := hiByte_xor_zext16 acc 0
    have hb := hiByte_xor_zext16 acc' 0
    rw [show acc ^^^ zext16 0 = acc by simp [zext16]] at ha
    rw [show acc' ^^^ zext16 0 = acc' by simp [zext16]] at hb
    rw [ha, hb, hs]
  rw [word_eq_bytes acc, word_eq_bytes acc', hlo, hhi]

/-- Absorbing in pieces. -/
theorem crcOver_append (acc : Word) (s t : List Byte) : crcOver acc (s ++ t) = crcOver (crcOver acc s) t := by
  simp [crcOver]

/-- Absorbing one sequence from different accumulators gives different sums. -/
theorem crcOver_inj_acc {acc acc' : Word} {s : List Byte} (h : crcOver acc s = crcOver acc' s) : acc = acc' := by
  induction s generalizing acc acc' with
  | nil => exact h
  | cons b s ih => exact crcStep_inj_acc (ih h)

end Sys2Proof.Machine
end

