-- ==== Sys2Proof/Laws/State.lean ====
section
/-! SUPPORT. The fields of State under each of its named updates: one lemma per field per update, so that no later proof unfolds
a record update. -/

namespace Sys2Proof.Machine

/-! ### Reporting an outcome -/

@[simp] theorem complete_eq_respond (u : BlockUnit) (p : Option Packet) (v : Option Word) (s : State) :
    complete u p v s = respond u ⟨.ok, p, v⟩ s := rfl

@[simp] theorem raise_eq_respond (u : BlockUnit) (st : Status) (p : Option Packet) (s : State) :
    raise u st p s = respond u ⟨st, p, none⟩ s := rfl

@[simp] theorem abortDecode_eq_respond (st : Status) (p : Option Packet) (s : State) :
    abortDecode st p s = respond .decoder ⟨st, p, none⟩ { s with decPhase := .idle } := rfl

@[simp] theorem addResponse_crc (r : Response) (rs : Responses) :
    addResponse .crc r rs = { rs with crc := rs.crc ++ [r] } := rfl

@[simp] theorem addResponse_registry (r : Response) (rs : Responses) :
    addResponse .registry r rs = { rs with registry := rs.registry ++ [r] } := rfl

@[simp] theorem addResponse_decoder (r : Response) (rs : Responses) :
    addResponse .decoder r rs = { rs with decoder := rs.decoder ++ [r] } := rfl

@[simp] theorem addResponse_encoder (r : Response) (rs : Responses) :
    addResponse .encoder r rs = { rs with encoder := rs.encoder ++ [r] } := rfl

/-- A fault that joins the set is in it. -/
@[simp] theorem faultRecorded_addFault_self (f : ModelFault) (fs : FaultSet) :
    faultRecorded (addFault f fs) f = true := by cases f <;> rfl

/-- A fault that joins the set leaves the others as they were. -/
theorem faultRecorded_addFault_ne {f g : ModelFault} (h : g ≠ f) (fs : FaultSet) :
    faultRecorded (addFault f fs) g = faultRecorded fs g := by
  cases f <;> cases g <;> first | rfl | exact absurd rfl h

/-- FAULTS is its members: two sets with the same members are equal. -/
theorem faultSet_ext {a b : FaultSet} (h : ∀ f, faultRecorded a f = faultRecorded b f) : a = b := by
  have h1 := h .illegal
  have h2 := h .busy
  have h3 := h .registryRace
  have h4 := h .uninit
  have h5 := h .badDialect
  have h6 := h .badOperand
  have h7 := h .oob
  cases a
  cases b
  simp_all [faultRecorded]

/-! ### recordFault -/

@[simp] theorem recordFault_cfg (f : ModelFault) (s : State) : (recordFault f s).cfg = s.cfg := rfl
@[simp] theorem recordFault_acc (f : ModelFault) (s : State) : (recordFault f s).acc = s.acc := rfl
@[simp] theorem recordFault_regList (f : ModelFault) (s : State) : (recordFault f s).regList = s.regList := rfl
@[simp] theorem recordFault_decPhase (f : ModelFault) (s : State) : (recordFault f s).decPhase = s.decPhase := rfl
@[simp] theorem recordFault_decHdr (f : ModelFault) (s : State) : (recordFault f s).decHdr = s.decHdr := rfl
@[simp] theorem recordFault_decPay (f : ModelFault) (s : State) : (recordFault f s).decPay = s.decPay := rfl
@[simp] theorem recordFault_decCk (f : ModelFault) (s : State) : (recordFault f s).decCk = s.decCk := rfl
@[simp] theorem recordFault_decCrc (f : ModelFault) (s : State) : (recordFault f s).decCrc = s.decCrc := rfl
@[simp] theorem recordFault_decSeq (f : ModelFault) (s : State) : (recordFault f s).decSeq = s.decSeq := rfl
@[simp] theorem recordFault_encPhase (f : ModelFault) (s : State) : (recordFault f s).encPhase = s.encPhase := rfl
@[simp] theorem recordFault_encSeq (f : ModelFault) (s : State) : (recordFault f s).encSeq = s.encSeq := rfl
@[simp] theorem recordFault_encFrame (f : ModelFault) (s : State) : (recordFault f s).encFrame = s.encFrame := rfl
@[simp] theorem recordFault_faults (f : ModelFault) (s : State) : (recordFault f s).faults = addFault f s.faults := rfl
@[simp] theorem recordFault_src (f : ModelFault) (s : State) : (recordFault f s).src = s.src := rfl
@[simp] theorem recordFault_snk (f : ModelFault) (s : State) : (recordFault f s).snk = s.snk := rfl
@[simp] theorem recordFault_responses (f : ModelFault) (s : State) : (recordFault f s).responses = s.responses := rfl
@[simp] theorem recordFault_moves (f : ModelFault) (s : State) : (recordFault f s).moves = s.moves := rfl
@[simp] theorem recordFault_draws (f : ModelFault) (s : State) : (recordFault f s).draws = s.draws := rfl

/-! ### respond -/

@[simp] theorem respond_cfg (u : BlockUnit) (r : Response) (s : State) : (respond u r s).cfg = s.cfg := rfl
@[simp] theorem respond_acc (u : BlockUnit) (r : Response) (s : State) : (respond u r s).acc = s.acc := rfl
@[simp] theorem respond_regList (u : BlockUnit) (r : Response) (s : State) : (respond u r s).regList = s.regList := rfl
@[simp] theorem respond_decPhase (u : BlockUnit) (r : Response) (s : State) : (respond u r s).decPhase = s.decPhase := rfl
@[simp] theorem respond_decHdr (u : BlockUnit) (r : Response) (s : State) : (respond u r s).decHdr = s.decHdr := rfl
@[simp] theorem respond_decPay (u : BlockUnit) (r : Response) (s : State) : (respond u r s).decPay = s.decPay := rfl
@[simp] theorem respond_decCk (u : BlockUnit) (r : Response) (s : State) : (respond u r s).decCk = s.decCk := rfl
@[simp] theorem respond_decCrc (u : BlockUnit) (r : Response) (s : State) : (respond u r s).decCrc = s.decCrc := rfl
@[simp] theorem respond_decSeq (u : BlockUnit) (r : Response) (s : State) : (respond u r s).decSeq = s.decSeq := rfl
@[simp] theorem respond_encPhase (u : BlockUnit) (r : Response) (s : State) : (respond u r s).encPhase = s.encPhase := rfl
@[simp] theorem respond_encSeq (u : BlockUnit) (r : Response) (s : State) : (respond u r s).encSeq = s.encSeq := rfl
@[simp] theorem respond_encFrame (u : BlockUnit) (r : Response) (s : State) : (respond u r s).encFrame = s.encFrame := rfl
@[simp] theorem respond_faults (u : BlockUnit) (r : Response) (s : State) : (respond u r s).faults = s.faults := rfl
@[simp] theorem respond_src (u : BlockUnit) (r : Response) (s : State) : (respond u r s).src = s.src := rfl
@[simp] theorem respond_snk (u : BlockUnit) (r : Response) (s : State) : (respond u r s).snk = s.snk := rfl
@[simp] theorem respond_responses (u : BlockUnit) (r : Response) (s : State) : (respond u r s).responses = addResponse u r s.responses := rfl
@[simp] theorem respond_moves (u : BlockUnit) (r : Response) (s : State) : (respond u r s).moves = s.moves := rfl
@[simp] theorem respond_draws (u : BlockUnit) (r : Response) (s : State) : (respond u r s).draws = s.draws := rfl

/-! ### drawn -/

@[simp] theorem drawn_cfg (s : State) : (drawn s).cfg = s.cfg := rfl
@[simp] theorem drawn_acc (s : State) : (drawn s).acc = s.acc := rfl
@[simp] theorem drawn_regList (s : State) : (drawn s).regList = s.regList := rfl
@[simp] theorem drawn_decPhase (s : State) : (drawn s).decPhase = s.decPhase := rfl
@[simp] theorem drawn_decHdr (s : State) : (drawn s).decHdr = s.decHdr := rfl
@[simp] theorem drawn_decPay (s : State) : (drawn s).decPay = s.decPay := rfl
@[simp] theorem drawn_decCk (s : State) : (drawn s).decCk = s.decCk := rfl
@[simp] theorem drawn_decCrc (s : State) : (drawn s).decCrc = s.decCrc := rfl
@[simp] theorem drawn_decSeq (s : State) : (drawn s).decSeq = s.decSeq := rfl
@[simp] theorem drawn_encPhase (s : State) : (drawn s).encPhase = s.encPhase := rfl
@[simp] theorem drawn_encSeq (s : State) : (drawn s).encSeq = s.encSeq := rfl
@[simp] theorem drawn_encFrame (s : State) : (drawn s).encFrame = s.encFrame := rfl
@[simp] theorem drawn_faults (s : State) : (drawn s).faults = s.faults := rfl
@[simp] theorem drawn_src (s : State) : (drawn s).src = s.src := rfl
@[simp] theorem drawn_snk (s : State) : (drawn s).snk = s.snk := rfl
@[simp] theorem drawn_responses (s : State) : (drawn s).responses = s.responses := rfl
@[simp] theorem drawn_moves (s : State) : (drawn s).moves = s.moves := rfl
@[simp] theorem drawn_draws (s : State) : (drawn s).draws = s.draws + 1 := rfl

/-! ### resetFrame -/

@[simp] theorem resetFrame_cfg (s : State) : (resetFrame s).cfg = s.cfg := rfl
@[simp] theorem resetFrame_acc (s : State) : (resetFrame s).acc = s.acc := rfl
@[simp] theorem resetFrame_regList (s : State) : (resetFrame s).regList = s.regList := rfl
@[simp] theorem resetFrame_decPhase (s : State) : (resetFrame s).decPhase = s.decPhase := rfl
@[simp] theorem resetFrame_decHdr (s : State) : (resetFrame s).decHdr = Vector.replicate 5 none := rfl
@[simp] theorem resetFrame_decPay (s : State) : (resetFrame s).decPay = Vector.replicate 255 none := rfl
@[simp] theorem resetFrame_decCk (s : State) : (resetFrame s).decCk = Vector.replicate 2 none := rfl
@[simp] theorem resetFrame_decCrc (s : State) : (resetFrame s).decCrc = s.decCrc := rfl
@[simp] theorem resetFrame_decSeq (s : State) : (resetFrame s).decSeq = s.decSeq := rfl
@[simp] theorem resetFrame_encPhase (s : State) : (resetFrame s).encPhase = s.encPhase := rfl
@[simp] theorem resetFrame_encSeq (s : State) : (resetFrame s).encSeq = s.encSeq := rfl
@[simp] theorem resetFrame_encFrame (s : State) : (resetFrame s).encFrame = s.encFrame := rfl
@[simp] theorem resetFrame_faults (s : State) : (resetFrame s).faults = s.faults := rfl
@[simp] theorem resetFrame_src (s : State) : (resetFrame s).src = s.src := rfl
@[simp] theorem resetFrame_snk (s : State) : (resetFrame s).snk = s.snk := rfl
@[simp] theorem resetFrame_responses (s : State) : (resetFrame s).responses = s.responses := rfl
@[simp] theorem resetFrame_moves (s : State) : (resetFrame s).moves = s.moves := rfl
@[simp] theorem resetFrame_draws (s : State) : (resetFrame s).draws = s.draws := rfl

/-! ### startBuffer -/

@[simp] theorem startBuffer_cfg (s : State) : (startBuffer s).cfg = s.cfg := rfl
@[simp] theorem startBuffer_acc (s : State) : (startBuffer s).acc = s.acc := rfl
@[simp] theorem startBuffer_regList (s : State) : (startBuffer s).regList = s.regList := rfl
@[simp] theorem startBuffer_decPhase (s : State) : (startBuffer s).decPhase = s.decPhase := rfl
@[simp] theorem startBuffer_decHdr (s : State) : (startBuffer s).decHdr = Vector.replicate 5 none := rfl
@[simp] theorem startBuffer_decPay (s : State) : (startBuffer s).decPay = Vector.replicate 255 none := rfl
@[simp] theorem startBuffer_decCk (s : State) : (startBuffer s).decCk = Vector.replicate 2 none := rfl
@[simp] theorem startBuffer_decCrc (s : State) : (startBuffer s).decCrc = freeRunningSum s := rfl
@[simp] theorem startBuffer_decSeq (s : State) : (startBuffer s).decSeq = s.decSeq := rfl
@[simp] theorem startBuffer_encPhase (s : State) : (startBuffer s).encPhase = s.encPhase := rfl
@[simp] theorem startBuffer_encSeq (s : State) : (startBuffer s).encSeq = s.encSeq := rfl
@[simp] theorem startBuffer_encFrame (s : State) : (startBuffer s).encFrame = s.encFrame := rfl
@[simp] theorem startBuffer_faults (s : State) : (startBuffer s).faults = s.faults := rfl
@[simp] theorem startBuffer_src (s : State) : (startBuffer s).src = s.src := rfl
@[simp] theorem startBuffer_snk (s : State) : (startBuffer s).snk = s.snk := rfl
@[simp] theorem startBuffer_responses (s : State) : (startBuffer s).responses = s.responses := rfl
@[simp] theorem startBuffer_moves (s : State) : (startBuffer s).moves = s.moves := rfl
@[simp] theorem startBuffer_draws (s : State) : (startBuffer s).draws = s.draws + 1 := rfl

/-! ### startDecode -/

@[simp] theorem startDecode_cfg (s : State) : (startDecode s).cfg = s.cfg := rfl
@[simp] theorem startDecode_acc (s : State) : (startDecode s).acc = s.acc := rfl
@[simp] theorem startDecode_regList (s : State) : (startDecode s).regList = s.regList := rfl
@[simp] theorem startDecode_decPhase (s : State) : (startDecode s).decPhase = .seeking := rfl
@[simp] theorem startDecode_decHdr (s : State) : (startDecode s).decHdr = Vector.replicate 5 none := rfl
@[simp] theorem startDecode_decPay (s : State) : (startDecode s).decPay = Vector.replicate 255 none := rfl
@[simp] theorem startDecode_decCk (s : State) : (startDecode s).decCk = Vector.replicate 2 none := rfl
@[simp] theorem startDecode_decCrc (s : State) : (startDecode s).decCrc = s.decCrc := rfl
@[simp] theorem startDecode_decSeq (s : State) : (startDecode s).decSeq = s.decSeq := rfl
@[simp] theorem startDecode_encPhase (s : State) : (startDecode s).encPhase = s.encPhase := rfl
@[simp] theorem startDecode_encSeq (s : State) : (startDecode s).encSeq = s.encSeq := rfl
@[simp] theorem startDecode_encFrame (s : State) : (startDecode s).encFrame = s.encFrame := rfl
@[simp] theorem startDecode_faults (s : State) : (startDecode s).faults = s.faults := rfl
@[simp] theorem startDecode_src (s : State) : (startDecode s).src = s.src := rfl
@[simp] theorem startDecode_snk (s : State) : (startDecode s).snk = s.snk := rfl
@[simp] theorem startDecode_responses (s : State) : (startDecode s).responses = s.responses := rfl
@[simp] theorem startDecode_moves (s : State) : (startDecode s).moves = s.moves := rfl
@[simp] theorem startDecode_draws (s : State) : (startDecode s).draws = s.draws := rfl

/-! ### appendSymbol -/

@[simp] theorem appendSymbol_cfg (x : Symbol) (s : State) : (appendSymbol x s).cfg = s.cfg := rfl
@[simp] theorem appendSymbol_acc (x : Symbol) (s : State) : (appendSymbol x s).acc = s.acc := rfl
@[simp] theorem appendSymbol_regList (x : Symbol) (s : State) : (appendSymbol x s).regList = s.regList := rfl
@[simp] theorem appendSymbol_decPhase (x : Symbol) (s : State) : (appendSymbol x s).decPhase = s.decPhase := rfl
@[simp] theorem appendSymbol_decHdr (x : Symbol) (s : State) : (appendSymbol x s).decHdr = s.decHdr := rfl
@[simp] theorem appendSymbol_decPay (x : Symbol) (s : State) : (appendSymbol x s).decPay = s.decPay := rfl
@[simp] theorem appendSymbol_decCk (x : Symbol) (s : State) : (appendSymbol x s).decCk = s.decCk := rfl
@[simp] theorem appendSymbol_decCrc (x : Symbol) (s : State) : (appendSymbol x s).decCrc = s.decCrc := rfl
@[simp] theorem appendSymbol_decSeq (x : Symbol) (s : State) : (appendSymbol x s).decSeq = s.decSeq := rfl
@[simp] theorem appendSymbol_encPhase (x : Symbol) (s : State) : (appendSymbol x s).encPhase = s.encPhase := rfl
@[simp] theorem appendSymbol_encSeq (x : Symbol) (s : State) : (appendSymbol x s).encSeq = s.encSeq := rfl
@[simp] theorem appendSymbol_encFrame (x : Symbol) (s : State) : (appendSymbol x s).encFrame = s.encFrame := rfl
@[simp] theorem appendSymbol_faults (x : Symbol) (s : State) : (appendSymbol x s).faults = s.faults := rfl
@[simp] theorem appendSymbol_src (x : Symbol) (s : State) : (appendSymbol x s).src = s.src ++ [x] := rfl
@[simp] theorem appendSymbol_snk (x : Symbol) (s : State) : (appendSymbol x s).snk = s.snk := rfl
@[simp] theorem appendSymbol_responses (x : Symbol) (s : State) : (appendSymbol x s).responses = s.responses := rfl
@[simp] theorem appendSymbol_moves (x : Symbol) (s : State) : (appendSymbol x s).moves = s.moves := rfl
@[simp] theorem appendSymbol_draws (x : Symbol) (s : State) : (appendSymbol x s).draws = s.draws := rfl

/-! ### withRecord -/

@[simp] theorem withRecord_cfg (record : List Byte) (s : State) : (withRecord record s).cfg = s.cfg := rfl
@[simp] theorem withRecord_acc (record : List Byte) (s : State) : (withRecord record s).acc = s.acc := rfl
@[simp] theorem withRecord_regList (record : List Byte) (s : State) : (withRecord record s).regList = s.regList := rfl
@[simp] theorem withRecord_decPhase (record : List Byte) (s : State) : (withRecord record s).decPhase = s.decPhase := rfl
@[simp] theorem withRecord_decHdr (record : List Byte) (s : State) : (withRecord record s).decHdr = s.decHdr := rfl
@[simp] theorem withRecord_decPay (record : List Byte) (s : State) : (withRecord record s).decPay = s.decPay := rfl
@[simp] theorem withRecord_decCk (record : List Byte) (s : State) : (withRecord record s).decCk = s.decCk := rfl
@[simp] theorem withRecord_decCrc (record : List Byte) (s : State) : (withRecord record s).decCrc = s.decCrc := rfl
@[simp] theorem withRecord_decSeq (record : List Byte) (s : State) : (withRecord record s).decSeq = s.decSeq := rfl
@[simp] theorem withRecord_encPhase (record : List Byte) (s : State) : (withRecord record s).encPhase = s.encPhase := rfl
@[simp] theorem withRecord_encSeq (record : List Byte) (s : State) : (withRecord record s).encSeq = s.encSeq := rfl
@[simp] theorem withRecord_encFrame (record : List Byte) (s : State) : (withRecord record s).encFrame = s.encFrame := rfl
@[simp] theorem withRecord_faults (record : List Byte) (s : State) : (withRecord record s).faults = s.faults := rfl
@[simp] theorem withRecord_src (record : List Byte) (s : State) : (withRecord record s).src = s.src := rfl
@[simp] theorem withRecord_snk (record : List Byte) (s : State) : (withRecord record s).snk = s.snk := rfl
@[simp] theorem withRecord_responses (record : List Byte) (s : State) : (withRecord record s).responses = s.responses := rfl
@[simp] theorem withRecord_moves (record : List Byte) (s : State) : (withRecord record s).moves = .command record :: s.moves := rfl
@[simp] theorem withRecord_draws (record : List Byte) (s : State) : (withRecord record s).draws = s.draws := rfl

end Sys2Proof.Machine
end

