-- ==== Sys2Proof/Laws/Ops.lean ====
section
/-! SUPPORT. What each shared operation can do, said once: later proofs cite these and do not unfold the operation. -/

namespace Sys2Proof.Machine

/-! ### Operand forms -/

/-- A list operand within its bound goes to the block. -/
theorem withinFormat_of_le {limit : Nat} {data : List Byte} {t : State} (h : data.length ≤ limit) :
    withinFormat limit data t = .next t := by simp [withinFormat, h]

/-- A longer one is refused. -/
theorem withinFormat_of_gt {limit : Nat} {data : List Byte} {t : State} (h : limit < data.length) :
    withinFormat limit data t = .refused .operandTooLong := by simp [withinFormat, h]

/-- If a bounded command answers a next state, its list was within the bound and the state is the one given. -/
theorem withinFormat_eq_next {limit : Nat} {data : List Byte} {t u : State} :
    withinFormat limit data t = .next u ↔ data.length ≤ limit ∧ u = t := by
  by_cases h : data.length ≤ limit <;> simp [withinFormat, h, eq_comm]

/-- Reading a run of bytes gives them where they are all in the buffer. -/
theorem bufReads_of_le {buf : List Byte} {i n : Nat} (h : i + n ≤ buf.length) :
    bufReads buf i n = some ((buf.drop i).take n) := by
  induction n generalizing i with
  | zero => simp [bufReads]
  | succ n ih =>
    have hi : i < buf.length := by omega
    rw [bufReads, bufRead, List.getElem?_eq_getElem hi, ih (by omega), List.drop_eq_getElem_cons hi, List.take_succ_cons]
    rfl

/-- The values of registers that are all written. -/
@[simp] theorem writtenBytes_map_some (bs : List Byte) : writtenBytes (bs.map some) = some bs := by
  induction bs with
  | nil => rfl
  | cons b bs ih => simp [writtenBytes, ih]

/-- A payload of at most 255 bytes is kept whole. -/
theorem payloadOf_bytes_of_le {bs : List Byte} (h : bs.length ≤ 255) : (payloadOf bs).bytes = bs := by
  simp [payloadOf, List.take_of_length_le h]

/-- A Packet's payload is its bytes. -/
theorem payloadOf_bytes (p : Payload) : payloadOf p.bytes = p := by
  cases p with
  | mk bytes bound => simp [payloadOf, List.take_of_length_le bound]

/-! ### Registry -/

@[simp] theorem lookupIn_nil (ds : List Dialect) (id : Byte) : lookupIn ds [] id = none := rfl

/-- Lookup tries the first index and goes on where its dialect defines nothing. -/
theorem lookupIn_cons (ds : List Dialect) (d : Byte) (l : List Byte) (id : Byte) :
    lookupIn ds (d :: l) id = ((ds[d.toNat]?).bind fun t => t.lookup id).or (lookupIn ds l id) := by
  rw [lookupIn]
  simp only [dialectSeed]
  cases (ds[d.toNat]?).bind fun t => t.lookup id <;> rfl

/-- Lookup over a longer order. -/
theorem lookupIn_append (ds : List Dialect) (l m : List Byte) (id : Byte) :
    lookupIn ds (l ++ m) id = (lookupIn ds l id).or (lookupIn ds m id) := by
  induction l with
  | nil => simp
  | cons d l ih => simp [lookupIn_cons, ih, Option.or_assoc]

/-- A lookup depends on the dialects and the resolution order alone. -/
theorem lookup_congr {s t : State} (hc : t.cfg = s.cfg) (hr : t.regList = s.regList) (id : Byte) :
    lookup t id = lookup s id := by simp [lookup, hc, hr]

/-- What a registry change can do. -/
theorem changeRegistry_cases (ds new : List Byte) (s : State) :
    ((s.decPhase ≠ .idle ∨ s.encPhase ≠ .idle) ∧ changeRegistry ds new s = recordFault .registryRace s) ∨
    (s.decPhase = .idle ∧ s.encPhase = .idle ∧ (∀ d ∈ ds, d.toNat < s.cfg.numDialects) ∧
      changeRegistry ds new s = respond .registry ⟨.ok, none, none⟩ { s with regList := new }) ∨
    (s.decPhase = .idle ∧ s.encPhase = .idle ∧ (∃ d ∈ ds, s.cfg.numDialects ≤ d.toNat) ∧
      changeRegistry ds new s = recordFault .badDialect s) := by
  by_cases hb : s.decPhase ≠ .idle ∨ s.encPhase ≠ .idle
  · exact .inl ⟨hb, by simp only [changeRegistry, lookupInFlight, hb, decide_true, if_true]⟩
  · have hi : s.decPhase = .idle ∧ s.encPhase = .idle := by
      constructor <;> by_contra h <;> exact hb (by simp [h])
    by_cases ha : ∀ d ∈ ds, d.toNat < s.cfg.numDialects
    · refine .inr (.inl ⟨hi.1, hi.2, ha, ?_⟩)
      have : ds.all (dialectExists s.cfg) = true := by
        simpa [List.all_eq_true, dialectExists] using ha
      simp [changeRegistry, lookupInFlight, hi, this]
    · refine .inr (.inr ⟨hi.1, hi.2, by simpa using ha, ?_⟩)
      have : ds.all (dialectExists s.cfg) = false := by
        rw [Bool.eq_false_iff]
        simpa [List.all_eq_true, dialectExists] using ha
      simp [changeRegistry, lookupInFlight, hi, this]

/-! ### The frame -/

/-- A frame is 8 + L bytes (30_encoding.md R74). -/
@[simp] theorem frameBytes_length (seq sys comp msg : Byte) (payload : List Byte) (seed : Byte) :
    (frameBytes seq sys comp msg payload seed).length = 8 + payload.length := by
  simp [frameBytes]; omega

/-- The verdict on a whole frame: what it changes in each of its three cases. -/
theorem concludeFrame_cases (crc : Word) (p : Packet) (s : State) :
    (lookup s p.messageId = none ∧
      concludeFrame crc p s = respond .decoder ⟨.unknownMessage, some p, none⟩ { s with decPhase := .idle }) ∨
    (∃ x, lookup s p.messageId = some x ∧ crcStep crc x ≠ p.checksum ∧
      concludeFrame crc p s = respond .decoder ⟨.checksumMismatch, some p, none⟩ { s with decPhase := .idle }) ∨
    (∃ x, lookup s p.messageId = some x ∧ crcStep crc x = p.checksum ∧
      concludeFrame crc p s =
        respond .decoder ⟨.ok, some p, none⟩ { s with decPhase := .idle, decSeq := p.sequenceId }) := by
  cases h : lookup s p.messageId with
  | none => exact .inl ⟨rfl, by simp [concludeFrame, frameStatus, h]⟩
  | some x =>
    by_cases hc : crcStep crc x = p.checksum
    · exact .inr (.inr ⟨x, rfl, hc, by simp [concludeFrame, frameStatus, h, hc]⟩)
    · exact .inr (.inl ⟨x, rfl, hc, by simp [concludeFrame, frameStatus, h, hc]⟩)

/-! What the verdict leaves unchanged, whatever it is. -/

@[simp] theorem concludeFrame_decPhase (crc : Word) (p : Packet) (s : State) : (concludeFrame crc p s).decPhase = .idle := by
  unfold concludeFrame; split <;> rfl
@[simp] theorem concludeFrame_cfg (crc : Word) (p : Packet) (s : State) : (concludeFrame crc p s).cfg = s.cfg := by
  unfold concludeFrame; split <;> rfl
@[simp] theorem concludeFrame_acc (crc : Word) (p : Packet) (s : State) : (concludeFrame crc p s).acc = s.acc := by
  unfold concludeFrame; split <;> rfl
@[simp] theorem concludeFrame_regList (crc : Word) (p : Packet) (s : State) : (concludeFrame crc p s).regList = s.regList := by
  unfold concludeFrame; split <;> rfl
@[simp] theorem concludeFrame_decHdr (crc : Word) (p : Packet) (s : State) : (concludeFrame crc p s).decHdr = s.decHdr := by
  unfold concludeFrame; split <;> rfl
@[simp] theorem concludeFrame_decPay (crc : Word) (p : Packet) (s : State) : (concludeFrame crc p s).decPay = s.decPay := by
  unfold concludeFrame; split <;> rfl
@[simp] theorem concludeFrame_decCk (crc : Word) (p : Packet) (s : State) : (concludeFrame crc p s).decCk = s.decCk := by
  unfold concludeFrame; split <;> rfl
@[simp] theorem concludeFrame_decCrc (crc : Word) (p : Packet) (s : State) : (concludeFrame crc p s).decCrc = s.decCrc := by
  unfold concludeFrame; split <;> rfl
@[simp] theorem concludeFrame_encPhase (crc : Word) (p : Packet) (s : State) : (concludeFrame crc p s).encPhase = s.encPhase := by
  unfold concludeFrame; split <;> rfl
@[simp] theorem concludeFrame_encSeq (crc : Word) (p : Packet) (s : State) : (concludeFrame crc p s).encSeq = s.encSeq := by
  unfold concludeFrame; split <;> rfl
@[simp] theorem concludeFrame_encFrame (crc : Word) (p : Packet) (s : State) : (concludeFrame crc p s).encFrame = s.encFrame := by
  unfold concludeFrame; split <;> rfl
@[simp] theorem concludeFrame_faults (crc : Word) (p : Packet) (s : State) : (concludeFrame crc p s).faults = s.faults := by
  unfold concludeFrame; split <;> rfl
@[simp] theorem concludeFrame_src (crc : Word) (p : Packet) (s : State) : (concludeFrame crc p s).src = s.src := by
  unfold concludeFrame; split <;> rfl
@[simp] theorem concludeFrame_snk (crc : Word) (p : Packet) (s : State) : (concludeFrame crc p s).snk = s.snk := by
  unfold concludeFrame; split <;> rfl
@[simp] theorem concludeFrame_moves (crc : Word) (p : Packet) (s : State) : (concludeFrame crc p s).moves = s.moves := by
  unfold concludeFrame; split <;> rfl
@[simp] theorem concludeFrame_draws (crc : Word) (p : Packet) (s : State) : (concludeFrame crc p s).draws = s.draws := by
  unfold concludeFrame; split <;> rfl

/-! ### Units -/

/-- A CRC command on a written ACC. -/
@[simp] theorem withAcc_some {s : State} {a : Word} (h : s.acc = some a) (k : Word → State) : withAcc s k = k a := by
  simp [withAcc, h]

/-- A CRC command on an unwritten ACC. -/
@[simp] theorem withAcc_none {s : State} (h : s.acc = none) (k : Word → State) :
    withAcc s k = recordFault .uninit s := by simp [withAcc, h]

/-- A decoder command on an idle decoder. -/
theorem whenDecoderIdle_idle {s : State} (h : s.decPhase = .idle) (t : State) : whenDecoderIdle s t = t := by
  simp [whenDecoderIdle, h]

/-- A decoder command on a busy decoder. -/
theorem whenDecoderIdle_busy {s : State} (h : s.decPhase ≠ .idle) (t : State) :
    whenDecoderIdle s t = recordFault .busy s := by simp [whenDecoderIdle, h]

/-- An encoder command on an idle encoder. -/
theorem whenEncoderIdle_idle {s : State} (h : s.encPhase = .idle) (t : State) : whenEncoderIdle s t = t := by
  simp [whenEncoderIdle, h]

/-- An encoder command on a busy encoder. -/
theorem whenEncoderIdle_busy {s : State} (h : s.encPhase ≠ .idle) (t : State) :
    whenEncoderIdle s t = recordFault .busy s := by simp [whenEncoderIdle, h]

/-- The first step of an encode on an idle encoder. -/
theorem startEncode_cases (sys comp msg : Byte) (payload : List Byte) (s : State) :
    (lookup s msg = none ∧ startEncode sys comp msg payload s =
      respond .encoder ⟨.unknownMessage, none, none⟩ (drawn { s with encFrame := freeEncFrame s })) ∨
    (∃ x, lookup s msg = some x ∧ startEncode sys comp msg payload s =
      { s with encFrame := frameBytes s.encSeq sys comp msg payload x, encPhase := .flush }) := by
  cases h : lookup s msg with
  | none => exact .inl ⟨rfl, by simp [startEncode, h]⟩
  | some x => exact .inr ⟨x, rfl, by simp [startEncode, h]⟩

/-- ENC_FRAME after UNKNOWN_MESSAGE stays within its size. -/
theorem freeEncFrame_length (s : State) : (freeEncFrame s).length ≤ 263 := by simp [freeEncFrame]

/-- If the sink's answer gives a next state, a request was pending and the state is one of the three of 43_encoder.md R192. -/
theorem sinkAnswer_eq_next {a : Answer} {s t : State} (h : sinkAnswer a s = .next t) :
    s.encPhase = .flush ∧
    ((a = .accepted s.encFrame.length ∧ t = respond .encoder ⟨.ok, none, none⟩
        { s with snk := s.snk ++ s.encFrame, encPhase := .idle, encSeq := s.encSeq + 1 }) ∨
     (∃ k, a = .accepted k ∧ k < s.encFrame.length ∧ t = respond .encoder ⟨.shortWrite, none, none⟩
        { s with snk := s.snk ++ s.encFrame.take k, encPhase := .idle }) ∨
     (∃ e, a = .err e ∧ t = respond .encoder ⟨.ioError e, none, none⟩ { s with encPhase := .idle })) := by
  unfold sinkAnswer at h
  split at h
  · cases h
  · rename_i hf
    refine ⟨hf, ?_⟩
    split at h
    · rename_i k
      split at h
      · cases h
        by_cases hk : k = s.encFrame.length
        · subst hk
          exact .inl ⟨rfl, by simp [flushAccepted]⟩
        · exact .inr (.inl ⟨k, rfl, by omega, by simp [flushAccepted, hk]⟩)
      · cases h
    · cases h
      exact .inr (.inr ⟨_, rfl, rfl⟩)

/-- A reading step: it holds on an empty source and otherwise hands on the first symbol. -/
theorem readSymbol_nil {use : Symbol → State → Host.Outcome State Fault Refusal} {s : State} (h : s.src = []) :
    readSymbol use s = .next s := by simp [readSymbol, h]

/-- A reading step on a source with a symbol. -/
theorem readSymbol_cons {use : Symbol → State → Host.Outcome State Fault Refusal} {s : State} {x : Symbol}
    {rest : List Symbol} (h : s.src = x :: rest) : readSymbol use s = use x { s with src := rest } := by
  simp [readSymbol, h]

/-! ### The view of a buffer (42_decoder.md R160) -/

/-- The first byte of a buffer. -/
theorem bufRead_zero (b : Byte) (tail : List Byte) : bufRead (b :: tail) 0 = some b := rfl

/-- A later byte of a buffer. -/
theorem bufRead_succ (b : Byte) (tail : List Byte) (i : Nat) : bufRead (b :: tail) (i + 1) = bufRead tail i := rfl

/-- Fewer than six bytes. -/
theorem viewBuffer_short {buf : List Byte} (h : buf.length < 6) : viewBuffer buf = some .invalidHeader := by
  simp [viewBuffer, h]

/-- Another first byte than the marker. -/
theorem viewBuffer_noMarker {b : Byte} {tail : List Byte} (h : b ≠ startMarker) :
    viewBuffer (b :: tail) = some .invalidHeader := by
  by_cases hl : (b :: tail).length < 6
  · exact viewBuffer_short hl
  · have h' : b ≠ 254#8 := h
    simp only [viewBuffer, if_neg hl]
    simp [bufRead, h']

/-- A header whose frame overruns the buffer. -/
theorem viewBuffer_cut {l seq sys comp msg : Byte} {tail : List Byte} (h : tail.length < l.toNat + 2) :
    viewBuffer (startMarker :: l :: seq :: sys :: comp :: msg :: tail) = some (.cut seq sys comp msg) := by
  have h6 : ¬ (startMarker :: l :: seq :: sys :: comp :: msg :: tail).length < 6 := by simp
  have h8 : (startMarker :: l :: seq :: sys :: comp :: msg :: tail).length < 8 + l.toNat := by simp; omega
  simp only [viewBuffer, if_neg h6]
  simp only [bufRead, List.getElem?_cons_zero, List.getElem?_cons_succ, Option.bind_eq_bind, Option.bind_some,
    ne_eq, not_true_eq_false, if_false, if_pos h8]
  rfl

/-- A whole frame, with or without bytes after it. -/
theorem viewBuffer_whole {l seq sys comp msg lo hi : Byte} {payload tail : List Byte} (h : payload.length = l.toNat) :
    viewBuffer (startMarker :: l :: seq :: sys :: comp :: msg :: (payload ++ lo :: hi :: tail)) =
      some (.whole (crcOver crcInitial (l :: seq :: sys :: comp :: msg :: payload))
        ⟨seq, sys, comp, msg, payloadOf payload, le16 lo hi⟩) := by
  have h6 : ¬ (startMarker :: l :: seq :: sys :: comp :: msg :: (payload ++ lo :: hi :: tail)).length < 6 := by simp
  have h8 : ¬ (startMarker :: l :: seq :: sys :: comp :: msg :: (payload ++ lo :: hi :: tail)).length < 8 + l.toNat := by
    simp; omega
  have hp : bufReads (startMarker :: l :: seq :: sys :: comp :: msg :: (payload ++ lo :: hi :: tail)) 6 l.toNat =
      some payload := by
    rw [bufReads_of_le (by simp; omega)]
    simp [← h]
  have hc : bufReads (startMarker :: l :: seq :: sys :: comp :: msg :: (payload ++ lo :: hi :: tail)) 1 (5 + l.toNat) =
      some (l :: seq :: sys :: comp :: msg :: payload) := by
    rw [bufReads_of_le (by simp; omega), Nat.add_comm 5]
    simp [← h]
  have hlo : bufRead (startMarker :: l :: seq :: sys :: comp :: msg :: (payload ++ lo :: hi :: tail)) (6 + l.toNat) =
      some lo := by
    rw [Nat.add_comm 6]
    simp [bufRead, ← h]
  have hhi : bufRead (startMarker :: l :: seq :: sys :: comp :: msg :: (payload ++ lo :: hi :: tail)) (7 + l.toNat) =
      some hi := by
    rw [Nat.add_comm 7]
    simp [bufRead, ← h]
  unfold viewBuffer
  rw [if_neg h6]
  simp only [bufRead_zero, bufRead_succ, Option.bind_eq_bind, Option.bind_some, ne_eq, not_true_eq_false, if_false,
    if_neg h8, hp, hlo, hhi, hc]
  rfl

/-- The start of a buffer decode changes no lookup. -/
@[simp] theorem lookup_startBuffer (s : State) (id : Byte) : lookup (startBuffer s) id = lookup s id :=
  lookup_congr rfl rfl id

/-- A buffer decode of an operand the configuration accepts answers what the buffer holds. -/
theorem decodeBuffer_of_view {buf : List Byte} {s : State} {v : BufferView} (hb : buf.length ≤ s.cfg.maxBuf)
    (hv : viewBuffer buf = some v) : decodeBuffer buf s = answerBuffer v (startBuffer s) := by
  rw [decodeBuffer, if_neg (by omega), hv]

/-- Every read of a buffer decode is inside the buffer (42_decoder.md R161). -/
theorem viewBuffer_ne_none (buf : List Byte) : viewBuffer buf ≠ none := by
  unfold viewBuffer
  split
  · simp
  · rename_i h6
    rcases buf with _ | ⟨b0, _ | ⟨l, _ | ⟨b2, _ | ⟨b3, _ | ⟨b4, _ | ⟨b5, tail⟩⟩⟩⟩⟩⟩ <;> simp at h6
    simp only [bufRead_zero, bufRead_succ, Option.bind_eq_bind, Option.bind_some]
    split
    · simp
    · split
      · simp
      · rename_i h8
        rw [bufReads_of_le (by omega), bufReads_of_le (by omega)]
        have e1 : bufRead (b0 :: l :: b2 :: b3 :: b4 :: b5 :: tail) (6 + l.toNat) ≠ none := by
          simp [bufRead] at h8 ⊢; omega
        have e2 : bufRead (b0 :: l :: b2 :: b3 :: b4 :: b5 :: tail) (7 + l.toNat) ≠ none := by
          simp [bufRead] at h8 ⊢; omega
        obtain ⟨x, hx⟩ := Option.ne_none_iff_exists'.mp e1
        obtain ⟨y, hy⟩ := Option.ne_none_iff_exists'.mp e2
        simp [hx, hy]

end Sys2Proof.Machine
end

