-- ==== Sys2Proof/Laws/PerInstr.lean ====
section
/-! SUPPORT. One statement about every instruction as syntax: the high half of its opcode byte names its unit (spec/30_encoding.md
R80, R81). -/

namespace Sys2Proof.Laws.UnitNibble

/-- The number of the unit that executes an instruction: CRC 0, registry 1, decoder 2, encoder 3 (30_encoding.md R80). -/
def unitNumber : Instr → Nat
  | .crcInit => 0
  | .crcByte _ => 0
  | .crcBlock _ => 0
  | .crcFinal => 0
  | .regNew _ => 1
  | .regRegister _ => 1
  | .regLookup _ => 1
  | .decDecode => 2
  | .decDecodeBuf _ => 2
  | .decSeq => 2
  | .encPacket _ _ _ _ _ => 3
  | .encSeq => 3

/-- The encoding starts with an opcode byte whose bits 7 to 4 are the unit's number. -/
def Statement (i : Instr) : Prop := ∃ b rest, encode i = b :: rest ∧ b.extractLsb' 4 4 = BitVec.ofNat 4 (unitNumber i)

theorem crcInit : Statement .crcInit := ⟨_, _, rfl, rfl⟩
theorem crcByte (b : Byte) : Statement (.crcByte b) := ⟨_, _, rfl, rfl⟩
theorem crcBlock (data : List Byte) : Statement (.crcBlock data) := ⟨_, _, rfl, rfl⟩
theorem crcFinal : Statement .crcFinal := ⟨_, _, rfl, rfl⟩
theorem regNew (ds : List Byte) : Statement (.regNew ds) := ⟨_, _, rfl, rfl⟩
theorem regRegister (d : Byte) : Statement (.regRegister d) := ⟨_, _, rfl, rfl⟩
theorem regLookup (id : Byte) : Statement (.regLookup id) := ⟨_, _, rfl, rfl⟩
theorem decDecode : Statement .decDecode := ⟨_, _, rfl, rfl⟩
theorem decDecodeBuf (buf : List Byte) : Statement (.decDecodeBuf buf) := ⟨_, _, rfl, rfl⟩
theorem decSeq : Statement .decSeq := ⟨_, _, rfl, rfl⟩
theorem encPacket (seqIn sys comp msg : Byte) (payload : List Byte) :
    Statement (.encPacket seqIn sys comp msg payload) := ⟨_, _, rfl, rfl⟩
theorem encSeq : Statement .encSeq := ⟨_, _, rfl, rfl⟩

end Sys2Proof.Laws.UnitNibble
end

