-- ==== Sys2Proof/Laws/Registers.lean ====
section
/-! SUPPORT. The decoder's frame registers: what writing the next one does, and what is read back from registers that are written
(spec/10_state.md R27, spec/42_decoder.md R155). -/

namespace Sys2Proof.Machine

/-- L is DEC_HDR[0]. -/
theorem declaredLength_eq {s : State} {l : Byte} (h : s.decHdr[0] = some l) : declaredLength s = l.toNat := by
  simp [declaredLength, h]

/-- A file nothing has written. -/
theorem writtenTo_replicate (n : Nat) : writtenTo 0 (Vector.replicate n (none : Option Byte)) := by
  intro j hj; simp

/-- Writing the register after the last written one. -/
theorem writtenTo_set {n k : Nat} {v : Vector (Option Byte) n} {b : Byte} (hk : k < n) (h : writtenTo k v) :
    writtenTo (k + 1) (v.set k (some b)) := by
  intro j hj
  rw [Vector.getElem_set]
  split
  · simp; omega
  · rw [h j hj]; omega

/-- The registers of a file written up to `k` are `k` values and then nothing. -/
theorem writtenTo_toList {n k : Nat} {v : Vector (Option Byte) n} (hk : k ≤ n) (h : writtenTo k v) :
    ∃ bs : List Byte, bs.length = k ∧ v.toList = bs.map some ++ List.replicate (n - k) none := by
  induction k generalizing v with
  | zero =>
    refine ⟨[], rfl, ?_⟩
    rw [List.map_nil, List.nil_append, List.eq_replicate_iff]
    refine ⟨by simp, fun a ha => ?_⟩
    obtain ⟨j, hj, rfl⟩ := List.mem_iff_getElem.mp ha
    have := h j (by simpa using hj)
    simpa using this
  | succ k ih =>
    obtain ⟨bs, hl, hv⟩ := ih (v := v.set k none) (by omega) (by
      intro j hj
      rw [Vector.getElem_set]
      split
      · simp; omega
      · rw [h j hj]; omega)
    obtain ⟨b, hb⟩ := Option.isSome_iff_exists.mp ((h k (by omega)).mpr (by omega))
    refine ⟨bs ++ [b], by simp [hl], ?_⟩
    have hset : v = (v.set k none).set k (some b) := by
      ext j hj : 1
      simp only [Vector.getElem_set]
      split
      · subst_vars; rw [hb]
      · rfl
    rw [hset, Vector.toList_set, hv, ← hl, show n - bs.length = (n - (bs.length + 1)) + 1 by omega, List.replicate_succ]
    rw [List.set_append_right _ _ (by simp)]
    simp

/-- The values of a file written up to `k`. -/
theorem writtenValues_eq {n k : Nat} {v : Vector (Option Byte) n} {bs : List Byte}
    (h : v.toList = bs.map some ++ List.replicate k none) : writtenValues v = bs := by
  simp [writtenValues, h, List.filterMap_append, List.filterMap_map]

/-- A file nothing has written has no values. -/
theorem writtenValues_unwritten {n : Nat} {v : Vector (Option Byte) n} (h : writtenTo 0 v) : writtenValues v = [] := by
  obtain ⟨bs, hl, hv⟩ := writtenTo_toList (Nat.zero_le n) h
  rw [writtenValues_eq hv, List.length_eq_zero_iff.mp hl]

/-- Writing the next register adds its value at the end. -/
theorem writtenValues_set {n k : Nat} {v : Vector (Option Byte) n} {b : Byte} (hk : k < n) (h : writtenTo k v) :
    writtenValues (v.set k (some b)) = writtenValues v ++ [b] := by
  obtain ⟨bs, hl, hv⟩ := writtenTo_toList (by omega) h
  rw [writtenValues_eq hv]
  have hset : (v.set k (some b)).toList = (bs ++ [b]).map some ++ List.replicate (n - (k + 1)) none := by
    rw [Vector.toList_set, hv, ← hl, show n - bs.length = (n - (bs.length + 1)) + 1 by omega, List.replicate_succ,
      List.set_append_right _ _ (by simp)]
    simp
  exact writtenValues_eq hset

/-- Five written header registers. -/
theorem writtenTo_five {v : Vector (Option Byte) 5} (h : writtenTo 5 v) :
    ∃ l seq sys comp msg, v = #v[some l, some seq, some sys, some comp, some msg] := by
  obtain ⟨bs, hl, hv⟩ := writtenTo_toList (Nat.le_refl 5) h
  rcases bs with _ | ⟨l, _ | ⟨seq, _ | ⟨sys, _ | ⟨comp, _ | ⟨msg, _ | ⟨x, bs⟩⟩⟩⟩⟩⟩ <;> simp at hl
  refine ⟨l, seq, sys, comp, msg, ?_⟩
  apply Vector.toList_inj.mp
  rw [hv]
  rfl

/-- Two written checksum registers. -/
theorem writtenTo_two {v : Vector (Option Byte) 2} (h : writtenTo 2 v) : ∃ lo hi, v = #v[some lo, some hi] := by
  obtain ⟨bs, hl, hv⟩ := writtenTo_toList (Nat.le_refl 2) h
  rcases bs with _ | ⟨lo, _ | ⟨hi, _ | ⟨x, bs⟩⟩⟩ <;> simp at hl
  refine ⟨lo, hi, ?_⟩
  apply Vector.toList_inj.mp
  rw [hv]
  rfl

/-- `packet_of` of registers that are written (42_decoder.md R155). -/
theorem packetOf_eq {pay : Vector (Option Byte) 255} {l seq sys comp msg lo hi : Byte} {payload : List Byte}
    (hp : pay.toList.take l.toNat = payload.map some) :
    packetOf #v[some l, some seq, some sys, some comp, some msg] pay #v[some lo, some hi] =
      some ⟨seq, sys, comp, msg, payloadOf payload, le16 lo hi⟩ := by
  have h : writtenBytes (pay.toList.take l.toNat) = some payload := by rw [hp, writtenBytes_map_some]
  simp only [packetOf]
  show (do
    let payload ← writtenBytes (pay.toList.take l.toNat)
    pure (⟨seq, sys, comp, msg, payloadOf payload, le16 lo hi⟩ : Packet)) = _
  rw [h]
  rfl

/-- The start of a buffer decode, as claims name it. -/
theorem bufferStarted_startBuffer (s : State) : BufferStarted s (startBuffer s) :=
  ⟨freeRunningSum s, s.draws + 1, rfl⟩

end Sys2Proof.Machine
end

