-- ==== Sys2Proof/Laws/Step.lean ====
section
/-! SUPPORT. What a command, a turn of the decoder and a step can do, said once: if it answers a next state, that state is one of
the cases listed. Rules of the whole machine are derived from these lemmas and do not unfold the step. -/

namespace Sys2Proof.Machine

/-- The next states a command can answer. -/
inductive CommandEffect (s : State) : State → Prop where
  /-- A model fault is recorded. -/
  | fault (f : ModelFault) : CommandEffect s (recordFault f s)
  /-- A CRC command responds, ACC old or new. -/
  | crc (a : Option Word) (v : Option Word) : CommandEffect s (respond .crc ⟨.ok, none, v⟩ { s with acc := a })
  /-- REG.LOOKUP responds. -/
  | lookup (st : Status) (v : Option Word) : CommandEffect s (respond .registry ⟨st, none, v⟩ s)
  /-- REG.NEW or REG.REGISTER changes REG_LIST between decodes and encodes, to indices that exist or were there before. -/
  | registry (l : List Byte) (hd : s.decPhase = .idle) (he : s.encPhase = .idle)
      (hl : ∀ d ∈ l, d ∈ s.regList ∨ d.toNat < s.cfg.numDialects) :
      CommandEffect s (respond .registry ⟨.ok, none, none⟩ { s with regList := l })
  /-- DEC.DECODE starts. -/
  | startDecode (hd : s.decPhase = .idle) : CommandEffect s (startDecode s)
  /-- DEC.SEQ responds. -/
  | decSeq (hd : s.decPhase = .idle) : CommandEffect s (respond .decoder ⟨.ok, none, some (zext16 s.decSeq)⟩ s)
  /-- DEC.DECODE_BUF finds no header. -/
  | bufferInvalid (hd : s.decPhase = .idle) : CommandEffect s (respond .decoder ⟨.invalidHeader, none, none⟩ (startBuffer s))
  /-- DEC.DECODE_BUF finds a frame cut short. -/
  | bufferCut (hd : s.decPhase = .idle) (p : Packet) :
      CommandEffect s (respond .decoder ⟨.truncated, some p, none⟩ (drawn (startBuffer s)))
  /-- DEC.DECODE_BUF finds a whole frame. -/
  | bufferWhole (hd : s.decPhase = .idle) (crc : Word) (p : Packet) : CommandEffect s (concludeFrame crc p (startBuffer s))
  /-- ENC.PACKET of an unknown id. -/
  | encodeUnknown (he : s.encPhase = .idle) :
      CommandEffect s (respond .encoder ⟨.unknownMessage, none, none⟩ (drawn { s with encFrame := freeEncFrame s }))
  /-- ENC.PACKET hands its frame to the sink. -/
  | encode (he : s.encPhase = .idle) (sys comp msg : Byte) (payload : List Byte) (x : Byte)
      (hp : payload.length ≤ maxPayload) (hx : Machine.lookup s msg = some x) :
      CommandEffect s { s with encFrame := frameBytes s.encSeq sys comp msg payload x, encPhase := .flush }
  /-- ENC.SEQ responds. -/
  | encSeq (he : s.encPhase = .idle) : CommandEffect s (respond .encoder ⟨.ok, none, some (zext16 s.encSeq)⟩ s)

/-- What a command that needs ACC can do. -/
theorem withAcc_effect (s : State) (k : Word → State) (hk : ∀ a, s.acc = some a → CommandEffect s (k a)) :
    CommandEffect s (withAcc s k) := by
  cases h : s.acc with
  | none => rw [withAcc_none h]; exact .fault .uninit
  | some a => rw [withAcc_some h]; exact hk a h

/-- What a registry change can do. -/
theorem changeRegistry_effect (ds new : List Byte) (s : State) (hn : ∀ d ∈ new, d ∈ s.regList ∨ d ∈ ds) :
    CommandEffect s (changeRegistry ds new s) := by
  obtain ⟨-, h⟩ | ⟨hd, he, hall, h⟩ | ⟨-, -, -, h⟩ := changeRegistry_cases ds new s <;> rw [h]
  · exact .fault _
  · exact .registry new hd he fun d hm => (hn d hm).imp id (hall d)
  · exact .fault _

/-- What a buffer decode on an idle decoder can do. -/
theorem decodeBuffer_effect (buf : List Byte) (s : State) (hd : s.decPhase = .idle) :
    CommandEffect s (decodeBuffer buf s) := by
  unfold decodeBuffer
  split
  · exact .fault _
  · split
    · exact .fault _
    · rename_i v _
      cases v with
      | invalidHeader => exact .bufferInvalid hd
      | cut => exact .bufferCut hd _
      | whole => exact .bufferWhole hd _ _

/-- Every command: if it answers a next state, that state is one of the effects listed. -/
theorem exec_effect {i : Instr} {s t : State} (h : exec i s = .next t) : CommandEffect s t := by
  cases i with
  | crcInit => cases h; exact .crc _ _
  | crcByte b => cases h; exact withAcc_effect s _ fun a _ => .crc _ _
  | crcBlock data =>
    obtain ⟨-, rfl⟩ := withinFormat_eq_next.mp h
    exact withAcc_effect s _ fun a _ => .crc _ _
  | crcFinal => cases h; exact withAcc_effect s _ fun a _ => .crc s.acc _
  | regNew ds =>
    obtain ⟨-, rfl⟩ := withinFormat_eq_next.mp h
    exact changeRegistry_effect ds ds s fun d hd => .inr hd
  | regRegister d =>
    cases h
    exact changeRegistry_effect [d] (s.regList ++ [d]) s fun e he => by simpa using he
  | regLookup id =>
    cases h
    split
    · exact .lookup _ _
    · exact .lookup _ _
  | decDecode =>
    cases h
    by_cases hd : s.decPhase = .idle
    · rw [whenDecoderIdle_idle hd]; exact .startDecode hd
    · rw [whenDecoderIdle_busy hd]; exact .fault _
  | decDecodeBuf buf =>
    obtain ⟨-, rfl⟩ := withinFormat_eq_next.mp h
    by_cases hd : s.decPhase = .idle
    · rw [whenDecoderIdle_idle hd]; exact decodeBuffer_effect buf s hd
    · rw [whenDecoderIdle_busy hd]; exact .fault _
  | decSeq =>
    cases h
    by_cases hd : s.decPhase = .idle
    · rw [whenDecoderIdle_idle hd]; exact .decSeq hd
    · rw [whenDecoderIdle_busy hd]; exact .fault _
  | encPacket q sys comp msg payload =>
    obtain ⟨hp, rfl⟩ := withinFormat_eq_next.mp h
    by_cases he : s.encPhase = .idle
    · rw [whenEncoderIdle_idle he]
      obtain ⟨-, h'⟩ | ⟨x, hx, h'⟩ := startEncode_cases sys comp msg payload s <;> rw [h']
      · exact .encodeUnknown he
      · exact .encode he _ _ _ _ _ hp hx
    · rw [whenEncoderIdle_busy he]; exact .fault _
  | encSeq =>
    cases h
    by_cases he : s.encPhase = .idle
    · rw [whenEncoderIdle_idle he]; exact .encSeq he
    · rw [whenEncoderIdle_busy he]; exact .fault _

/-- The next states a turn of the decoder can answer. -/
inductive TurnEffect (s : State) : State → Prop where
  /-- It has no step: idle, or reading an empty source. -/
  | hold (h : s.decPhase = .idle ∨ (s.decPhase ≠ .verify ∧ s.src = [])) : TurnEffect s s
  /-- SEEKING drops a byte. -/
  | skip (b : Byte) (rest : List Symbol) (hp : s.decPhase = .seeking) (hs : s.src = .byte b :: rest)
      (hb : b ≠ startMarker) : TurnEffect s { s with src := rest }
  /-- SEEKING accepts a marker. -/
  | marker (rest : List Symbol) (hp : s.decPhase = .seeking) (hs : s.src = .byte startMarker :: rest) :
      TurnEffect s { s with src := rest, decCrc := crcInitial, decPhase := .header 0 }
  /-- HEADER(k) takes a byte. -/
  | header (k : Fin 5) (b : Byte) (rest : List Symbol) (hp : s.decPhase = .header k) (hs : s.src = .byte b :: rest) :
      TurnEffect s { s with
        src := rest, decHdr := s.decHdr.set k (some b), decCrc := crcStep s.decCrc b
        decPhase := if h : k.val < 4 then .header ⟨k.val + 1, by omega⟩ else .body 0 }
  /-- BODY(i) takes a payload byte. -/
  | payload (i : Nat) (l b : Byte) (rest : List Symbol) (hp : s.decPhase = .body i) (hl : s.decHdr[0] = some l)
      (hi : i < l.toNat) (hs : s.src = .byte b :: rest) :
      TurnEffect s { s with
        src := rest, decPay := s.decPay.setIfInBounds i (some b), decCrc := crcStep s.decCrc b, decPhase := .body (i + 1) }
  /-- BODY(L) takes the low checksum byte. -/
  | low (l b : Byte) (rest : List Symbol) (hp : s.decPhase = .body l.toNat) (hl : s.decHdr[0] = some l)
      (hs : s.src = .byte b :: rest) :
      TurnEffect s { s with src := rest, decCk := s.decCk.set 0 (some b), decPhase := .body (l.toNat + 1) }
  /-- BODY(L + 1) takes the high checksum byte. -/
  | high (l b : Byte) (rest : List Symbol) (hp : s.decPhase = .body (l.toNat + 1)) (hl : s.decHdr[0] = some l)
      (hs : s.src = .byte b :: rest) :
      TurnEffect s { s with src := rest, decCk := s.decCk.set 1 (some b), decPhase := .verify }
  /-- End or Err while seeking. -/
  | seekEnd (x : Symbol) (st : Status) (rest : List Symbol) (hp : s.decPhase = .seeking) (hs : s.src = x :: rest) :
      TurnEffect s (respond .decoder ⟨st, none, none⟩ { s with src := rest, decPhase := .idle })
  /-- End or Err inside a frame; a free value is taken. -/
  | cut (x : Symbol) (st : Status) (diag : Option Packet) (rest : List Symbol)
      (hp : (∃ k, s.decPhase = .header k) ∨ ∃ i, s.decPhase = .body i) (hs : s.src = x :: rest) :
      TurnEffect s (respond .decoder ⟨st, diag, none⟩ (drawn { s with src := rest, decPhase := .idle }))
  /-- VERIFY. -/
  | verify (p : Packet) (hp : s.decPhase = .verify) (hpk : packetOf s.decHdr s.decPay s.decCk = some p) :
      TurnEffect s (concludeFrame s.decCrc p s)

/-- A body step ended by End or Err. -/
theorem bodyCut_effect {st : Status} {s t : State} (h : bodyCut st s = .next t) :
    ∃ diag, t = respond .decoder ⟨st, diag, none⟩ (drawn { s with decPhase := .idle }) := by
  unfold bodyCut at h
  split at h
  · cases h; exact ⟨_, rfl⟩
  · cases h

/-- A turn of the decoder: if it answers a next state, that state is one of the effects listed. -/
theorem decoderTurn_effect {s t : State} (h : decoderTurn s = .next t) : TurnEffect s t := by
  unfold decoderTurn at h
  split at h
  · rename_i hp
    cases h; exact .hold (.inl hp)
  · rename_i hp
    cases hs : s.src with
    | nil => rw [readSymbol_nil hs] at h; cases h; exact .hold (.inr ⟨by simp [hp], hs⟩)
    | cons x rest =>
      rw [readSymbol_cons hs] at h
      cases h
      cases x with
      | byte b =>
        by_cases hb : b = startMarker
        · subst hb; simpa [seekStep] using TurnEffect.marker rest hp hs
        · have hb' : b ≠ 254#8 := hb
          simpa [seekStep, hb'] using TurnEffect.skip b rest hp hs hb
      | endOfSource => exact .seekEnd _ _ rest hp hs
      | err e => exact .seekEnd _ _ rest hp hs
  · rename_i k hp
    cases hs : s.src with
    | nil => rw [readSymbol_nil hs] at h; cases h; exact .hold (.inr ⟨by simp [hp], hs⟩)
    | cons x rest =>
      rw [readSymbol_cons hs] at h
      cases h
      cases x with
      | byte b => exact .header k b rest hp hs
      | endOfSource => exact .cut _ _ _ rest (.inl ⟨k, hp⟩) hs
      | err e => exact .cut _ _ _ rest (.inl ⟨k, hp⟩) hs
  · rename_i i hp
    cases hs : s.src with
    | nil => rw [readSymbol_nil hs] at h; cases h; exact .hold (.inr ⟨by simp [hp], hs⟩)
    | cons x rest =>
      rw [readSymbol_cons hs] at h
      cases x with
      | byte b =>
        simp only [bodyStep] at h
        cases hl : s.decHdr[0] with
        | none => simp [hl] at h
        | some l =>
          simp only [hl] at h
          unfold bodyByte at h
          split at h
          · rename_i hi; cases h; exact .payload i l b rest hp hl hi hs
          · split at h
            · rename_i hi; subst hi; cases h; exact .low l b rest hp hl hs
            · split at h
              · rename_i hi; subst hi; cases h; exact .high l b rest hp hl hs
              · cases h
      | endOfSource =>
        obtain ⟨diag, rfl⟩ := bodyCut_effect h
        exact .cut _ _ diag rest (.inr ⟨i, hp⟩) hs
      | err e =>
        obtain ⟨diag, rfl⟩ := bodyCut_effect h
        exact .cut _ _ diag rest (.inr ⟨i, hp⟩) hs
  · rename_i hp
    unfold verifyStep at h
    split at h
    · rename_i p hpk; cases h; exact .verify p hp hpk
    · cases h

/-- A record on the port: if it answers a next state, a command has run or F_ILLEGAL is recorded. -/
theorem issueRecord_eq_next {record : List Byte} {s t : State} (h : issueRecord record s = .next t) :
    (∃ i, decode record = .command i ∧ exec i s = .next t) ∨
    (∃ op, decode record = .illegal op ∧ t = recordFault .illegal s) := by
  unfold issueRecord at h
  split at h
  · exact .inl ⟨_, ‹_›, h⟩
  · cases h; exact .inr ⟨_, ‹_›, rfl⟩
  · cases h

/-- One step: if it answers a next state, one move has taken place, or the decoder has gone on by itself. -/
theorem step_cases {s t : State} (h : step s = .next t) :
    (s.moves = [] ∧ decoderTurn s = .next t) ∨
    (∃ m ms, s.moves = m :: ms ∧ takeMove m { s with moves := ms } = .next t) := by
  unfold step nextMove at h
  split at h
  · exact .inl ⟨‹_›, h⟩
  · exact .inr ⟨_, _, ‹_›, h⟩

end Sys2Proof.Machine
end

