-- ==== Sys2Proof/Laws/Stream.lean ====
section
/-! SUPPORT. What `decode(SRC)` does on bytes (spec/42_decoder.md R154): how many symbols it takes and what it makes of a whole
frame, and the frame's bytes (spec/30_encoding.md R70). -/

namespace Sys2Proof.Machine

/-- Taking bytes, one at a time. -/
theorem takeBytes_cons (n : Nat) (x : Symbol) (src : List Symbol) :
    takeBytes (n + 1) (x :: src) = match x with
      | .byte b => match takeBytes n src with
        | some (.inl bs, rest) => some (.inl (b :: bs), rest)
        | some (.inr st, rest) => some (.inr st, rest)
        | none => none
      | .endOfSource => some (.inr .truncated, src)
      | .err e => some (.inr (.ioError e), src) := by
  cases x <;> rfl

/-- Taking as many bytes as there are before `after`. -/
theorem takeBytes_bytes (bs : List Byte) (after : List Symbol) :
    takeBytes bs.length (bs.map Symbol.byte ++ after) = some (.inl bs, after) := by
  induction bs with
  | nil => rfl
  | cons b bs ih =>
    rw [List.length_cons, List.map_cons, List.cons_append, takeBytes_cons]
    simp [ih]

/-- A byte other than the marker is skipped. -/
theorem decodeStream_skip (find : Byte → Option Byte) {b : Byte} (h : b ≠ startMarker) (src : List Symbol) :
    decodeStream find (.byte b :: src) = decodeStream find src := by
  rw [decodeStream]
  exact if_neg h

/-- Bytes without the marker are skipped. -/
theorem decodeStream_garbage (find : Byte → Option Byte) {garbage : List Byte} (h : ∀ b ∈ garbage, b ≠ startMarker)
    (src : List Symbol) : decodeStream find (garbage.map Symbol.byte ++ src) = decodeStream find src := by
  induction garbage with
  | nil => rfl
  | cons b bs ih =>
    rw [List.map_cons, List.cons_append, decodeStream_skip find (h b (by simp)), ih fun c hc => h c (by simp [hc])]

/-- A whole frame: it is taken to its last byte and not beyond. -/
theorem decodeStream_whole (find : Byte → Option Byte) {l seq sys comp msg lo hi : Byte} {payload : List Byte}
    (h : payload.length = l.toNat) (after : List Symbol) :
    decodeStream find ((startMarker :: l :: seq :: sys :: comp :: msg :: (payload ++ [lo, hi])).map Symbol.byte ++ after) =
      some (.whole (frameStatus (find msg) (crcOver crcInitial (l :: seq :: sys :: comp :: msg :: payload)) (le16 lo hi))
        ⟨seq, sys, comp, msg, payloadOf payload, le16 lo hi⟩, after) := by
  have h5 := takeBytes_bytes [l, seq, sys, comp, msg] ((payload ++ [lo, hi]).map Symbol.byte ++ after)
  have hb := takeBytes_bytes (payload ++ [lo, hi]) after
  rw [show (payload ++ [lo, hi]).length = l.toNat + 2 by simp [h]] at hb
  rw [List.map_cons, List.cons_append, decodeStream]
  simp only [if_true, streamFrame]
  rw [show ((l :: seq :: sys :: comp :: msg :: (payload ++ [lo, hi])).map Symbol.byte ++ after) =
    [l, seq, sys, comp, msg].map Symbol.byte ++ ((payload ++ [lo, hi]).map Symbol.byte ++ after) by simp]
  rw [show takeBytes 5 _ = _ from h5]
  simp only [streamBody, List.getD_cons_zero, List.getD_cons_succ, hb]
  simp [← h]

end Sys2Proof.Machine
end

