-- ==== Sys2Proof/Tests/Slice0.lean ====
section
/-! SUPPORT. Tests: ill-formed commands, every constructor's decoding from a word of the spec's encoding, small steps with the results
of spec/95_test_vectors.md, and for each statement with hypotheses a witness that meets them. -/

namespace Sys2Proof.Tests

open Sys2Proof.Machine

/-! ### Helpers -/

/-- The configuration of 95_test_vectors.md §0. -/
def config : Config := ⟨exampleDialects, 0, 65535, 0, 0⟩

/-- The block right after reset under that configuration, SRC empty. -/
def idle : State := State.bind config [] 0

/-- An outcome is a next state with a property. -/
def gives (o : Host.Outcome State Fault Refusal) (p : State → Bool) : Bool :=
  match o with
  | .next t => p t
  | .fault _ => false
  | .refused _ => false

/-- A list too long to write out. -/
def zeros (n : Nat) : List Byte := List.replicate n 0

@[simp] theorem length_zeros (n : Nat) : (zeros n).length = n := by simp [zeros]

/-- F0 of 95_test_vectors.md §3. -/
def frame0 : List Byte := [0xFE, 0x00, 0x00, 0x01, 0x01, 0x00, 0x86, 0x5C]

/-- The decoder inside the body of a frame with L = `l`, seq 3, sys 1, comp 1, msg 1. -/
def inBody (l : Byte) (i : Nat) : State :=
  { idle with decPhase := .body i, decHdr := #v[some l, some 3, some 1, some 1, some 1] }

/-- The decoder in VERIFY on an empty payload, message id `msg`, DEC_CRC 0 and a received checksum. -/
def inVerify (msg lo hi : Byte) : State :=
  { idle with decPhase := .verify, decHdr := #v[some 0, some 9, some 1, some 1, some msg], decCk := #v[some lo, some hi] }

/-- The block about to start a DEC.DECODE on a source. -/
def decoding (src : List Symbol) : State := { idle with src := src, moves := [.command [0x20]] }

/-- The idle block with another MAX_BUF. -/
def bounded (n : Nat) : State := { idle with cfg := { config with maxBuf := n } }

/-- The idle block with a byte left in DEC_HDR by an earlier decode. -/
def afterFrame : State := { idle with decHdr := (Vector.replicate 5 none).set 0 (some 3) }

/-- The encoder awaiting the sink's answer with the frame of W1. -/
def inFlush : State := { idle with encPhase := .flush, encFrame := frame0 }

/-! ### Well-formedness: an ill-formed term for each check -/

theorem test_wf_refuses_long_block : ¬ (Instr.crcBlock (zeros 65536)).WellFormed := by
  simp [Instr.WellFormed, Instr.wellFormed]

theorem test_wf_refuses_long_dialect_list : ¬ (Instr.regNew (zeros 256)).WellFormed := by
  simp [Instr.WellFormed, Instr.wellFormed]

theorem test_wf_refuses_long_buffer : ¬ (Instr.decDecodeBuf (zeros 65536)).WellFormed := by
  simp [Instr.WellFormed, Instr.wellFormed]

theorem test_wf_refuses_long_payload : ¬ (Instr.encPacket 0 1 1 0 (zeros 256)).WellFormed := by
  simp [Instr.WellFormed, Instr.wellFormed]

theorem test_wf_accepts_longest : (Instr.encPacket 0 1 1 0 (zeros 255)).WellFormed ∧
    (Instr.regNew (zeros 255)).WellFormed ∧ (Instr.crcBlock (zeros 65535)).WellFormed := by
  simp [Instr.WellFormed, Instr.wellFormed]

/-! ### Decoding: words written out from 30_encoding.md R80 to R82, R89 -/

theorem test_decode_crcInit : decode [0x01] = .command .crcInit := by decide
theorem test_decode_crcByte : decode [0x02, 0x41] = .command (.crcByte 0x41) := by decide
theorem test_decode_crcBlock : decode [0x03, 0x04, 0x00, 0x31, 0x32, 0x33, 0x34] =
    .command (.crcBlock [0x31, 0x32, 0x33, 0x34]) := by decide
/-- The count's high byte is its second byte: 0x0100 bytes do not fit one count of 1. -/
theorem test_decode_block_count_order : decode [0x03, 0x00, 0x01, 0x31] = .notWhole := by decide
theorem test_decode_crcFinal : decode [0x04] = .command .crcFinal := by decide
theorem test_decode_regNew : decode [0x10, 0x02, 0x01, 0x00] = .command (.regNew [1, 0]) := by decide
theorem test_decode_regRegister : decode [0x11, 0x01] = .command (.regRegister 1) := by decide
theorem test_decode_regLookup : decode [0x12, 0xFF] = .command (.regLookup 0xFF) := by decide
theorem test_decode_decDecode : decode [0x20] = .command .decDecode := by decide
theorem test_decode_decDecodeBuf : decode [0x21, 0x02, 0x00, 0xFE, 0x07] = .command (.decDecodeBuf [0xFE, 0x07]) := by decide
theorem test_decode_decSeq : decode [0x22] = .command .decSeq := by decide
/-- W7 and X4: L, seq_in, sys, comp, msg in this order. -/
theorem test_decode_encPacket : decode [0x30, 0x02, 0x42, 0x07, 0x08, 0x01, 0xFE, 0x00] =
    .command (.encPacket 0x42 0x07 0x08 0x01 [0xFE, 0x00]) := by decide
theorem test_decode_encSeq : decode [0x31] = .command .encSeq := by decide
/-- P5: 0x05 and 0xFE are no opcodes. -/
theorem test_decode_illegal : decode [0x05] = .illegal 0x05 ∧ decode [0xFE] = .illegal 0xFE := by decide
/-- R84: a command cut short is not a command. -/
theorem test_decode_cut : decode [0x02] = .notWhole ∧ decode [0x30, 0x01, 0x00, 0x01, 0x01, 0x00] = .notWhole ∧
    decode [] = .notWhole := by decide

/-! ### One step each, with the results of 95_test_vectors.md -/

/-- KC2. -/
theorem test_crcInit : gives (exec .crcInit { idle with acc := some 0x1234 }) (fun t =>
    t.acc = some 0xFFFF ∧ t.responses.crc = [⟨.ok, none, none⟩]) = true := by decide
/-- KC4 and KC9. -/
theorem test_crcByte : gives (exec (.crcByte 0xFE) { idle with acc := some 0xFFFF }) (fun t => t.acc = some 0x1176) = true := by
  decide
theorem test_crcByte_unwritten : gives (exec (.crcByte 0) idle) (fun t =>
    t.acc = none ∧ t.faults.uninit ∧ t.responses.crc = []) = true := by decide
/-- KC5 and KC10. -/
theorem test_crcBlock : gives (exec (.crcBlock [0x31, 0x32, 0x33, 0x34, 0x35, 0x36, 0x37, 0x38, 0x39])
    { idle with acc := some 0xFFFF }) (fun t => t.acc = some 0x6F91) = true := by decide +kernel
theorem test_crcBlock_empty_unwritten : gives (exec (.crcBlock []) idle) (fun t => t.faults.uninit) = true := by decide
/-- KC7. -/
theorem test_crcFinal : gives (exec .crcFinal { idle with acc := some 0x6F91 }) (fun t =>
    t.acc = some 0x6F91 ∧ t.responses.crc = [⟨.ok, none, some 0x6F91⟩]) = true := by decide
/-- Q14 and Q17. -/
theorem test_regNew : gives (exec (.regNew [1, 0]) idle) (fun t => t.regList = [1, 0]) = true := by decide
theorem test_regNew_bad : gives (exec (.regNew [0, 5]) idle) (fun t => t.regList = [0] ∧ t.faults.badDialect) = true := by
  decide
/-- Q16 and Q18. -/
theorem test_regRegister_bad : gives (exec (.regRegister 3) idle) (fun t => t.regList = [0] ∧ t.faults.badDialect) = true := by
  decide
theorem test_regRegister_race : gives (exec (.regRegister 1) (inBody 3 0)) (fun t =>
    t.regList = [0] ∧ t.faults.registryRace) = true := by decide
/-- Q6 and Q12. -/
theorem test_regLookup : gives (exec (.regLookup 1) { idle with regList := [1, 0] }) (fun t =>
    t.responses.registry = [⟨.ok, none, some 0x0010⟩]) = true := by decide
theorem test_regLookup_unknown : gives (exec (.regLookup 0xFF) idle) (fun t =>
    t.responses.registry = [⟨.unknownMessage, none, none⟩]) = true := by decide
/-- P5: the second DEC.DECODE. -/
theorem test_decDecode_busy : gives (exec .decDecode { idle with decPhase := .seeking }) (fun t =>
    t.decPhase = .seeking ∧ t.faults.busy) = true := by decide
/-- S19: the second 0xFE is L. -/
theorem test_header_takes_marker : gives (decoderTurn { idle with decPhase := .header 0, src := [.byte 0xFE] }) (fun t =>
    t.decHdr[0] = some 0xFE ∧ t.decPhase = .header 1) = true := by decide
/-- V14 and V13. -/
theorem test_decDecodeBuf : gives (exec (.decDecodeBuf
    [0xFE, 0x03, 0x03, 0x01, 0x01, 0x01, 0x41, 0x42, 0x43, 0x52, 0xEE]) idle) (fun t =>
    t.decSeq = 3 ∧ t.responses.decoder = [⟨.ok, some ⟨3, 1, 1, 1, payloadOf [0x41, 0x42, 0x43], 0xEE52⟩, none⟩]) = true ∧
    gives (exec (.decDecodeBuf [0xFE, 0xFF, 0x00, 0x01, 0x01, 0x00, 0x00]) idle)
      (fun t => t.responses.decoder.map (·.status) = [.truncated]) = true := by
  refine ⟨?_, ?_⟩ <;> decide +kernel
/-- 10_state.md R27 resets DEC_HDR at the start, 42_decoder.md R160 keeps DEC_PHASE IDLE, and a fault (60_exceptions.md R229) changes
neither. -/
theorem test_decDecodeBuf_resets_frame :
    gives (exec (.decDecodeBuf []) afterFrame) (fun t => t.decHdr[0] = none ∧ t.decPhase = .idle) = true ∧
    gives (exec (.decDecodeBuf []) { afterFrame with decPhase := .seeking }) (fun t => t.decHdr[0] = some 3) = true := by
  decide
/-- P3 line 11. -/
theorem test_decSeq : gives (exec .decSeq { idle with decSeq := 0x22 }) (fun t =>
    t.responses.decoder = [⟨.ok, none, some 0x0022⟩]) = true := by decide
/-- W8: the packet's own sequence field is ignored; W3: an unknown id makes no request. -/
theorem test_encPacket : gives (exec (.encPacket 0x77 1 1 0 []) { idle with encSeq := 0x10 }) (fun t =>
    t.encPhase = .flush ∧ t.encFrame = [0xFE, 0x00, 0x10, 0x01, 0x01, 0x00, 0xC6, 0xE8]) = true := by decide +kernel
theorem test_encPacket_unknown : gives (exec (.encPacket 0 1 1 2 [1]) idle) (fun t =>
    t.encPhase = .idle ∧ t.responses.encoder = [⟨.unknownMessage, none, none⟩]) = true := by decide
/-- W4: three of eight bytes. -/
theorem test_short_write : gives (sinkAnswer (.accepted 3) inFlush) (fun t =>
    t.snk = [0xFE, 0x00, 0x00] ∧ t.encSeq = 0 ∧ t.responses.encoder = [⟨.shortWrite, none, none⟩]) = true := by decide
/-- W2: the counter wraps. -/
theorem test_flush_wraps : gives (sinkAnswer (.accepted 8) { inFlush with encSeq := 0xFF }) (fun t => t.encSeq = 0) = true := by
  decide
/-- P4 line 13. -/
theorem test_encSeq : gives (exec .encSeq { idle with encSeq := 0x80 }) (fun t =>
    t.responses.encoder = [⟨.ok, none, some 0x0080⟩]) = true := by decide

/-! ### The host's table words and the assembler's text (30_encoding.md R86, R89) -/

theorem test_table_word : decodeTableWord 8 0x31 = some .encSeq ∧ decodeTableWord 16 0x4102 = some (.crcByte 0x41) ∧
    decodeTableWord 8 0x30 = some (.encPacket 0 0 0 0 []) := by decide
theorem test_table_word_runs : gives (step (State.reset.withFetchWord 8 0x01)) (fun t => t.acc = some 0xFFFF) = true := by decide
theorem test_assemble_block : assembleText config ['C', 'R', 'C', '.', 'B', 'L', 'O', 'C', 'K', ' ', '[', '1', ',', '0', 'x', 'F',
    'F', ']'] = some [.command [0x03, 0x02, 0x00, 0x01, 0xFF]] := by decide +kernel
theorem test_assemble_default : assembleLine config .regNewDefault = some [.command [0x10, 0x01, 0x00]] := by decide

/-! ### Witnesses: encodings -/

theorem witness_DecodeInvertsEncode : (Instr.crcInit).WellFormed ∧ (Instr.crcBlock (zeros 65535)).WellFormed ∧
    (Instr.regNew (zeros 255)).WellFormed ∧ (Instr.encPacket 0 1 1 0 (zeros 255)).WellFormed := by
  simp [Instr.WellFormed, Instr.wellFormed]

theorem witness_EncodeInvertsDecode : decode [0x30, 0x01, 0x05, 0x01, 0x02, 0x03, 0xFE] =
    .command (.encPacket 5 1 2 3 [0xFE]) := by decide

theorem witness_CommandLengthFromThreeBytes :
    commandLength 0x01 0 0 = some 1 ∧ commandLength 0x12 0xFF 0 = some 2 ∧ commandLength 0x03 0 0 = some 3 ∧
    commandLength 0x21 0xFF 0xFF = some 65538 ∧ commandLength 0x10 0 0 = some 2 ∧ commandLength 0x10 0xFF 0 = some 257 ∧
    commandLength 0x30 0 0 = some 6 ∧ commandLength 0x30 0xFF 0 = some 261 := by decide

theorem witness_UnlistedOpcodeRecordsIllegal :
    (∀ op ∈ ([0x00, 0x05, 0x0F, 0x13, 0x1F, 0x23, 0x2F, 0x32, 0xFF] : List Byte), decode [op] = .illegal op) ∧
    ({ idle with moves := [.command [0xFF]] }).moves = .command [0xFF] :: [] := by decide

theorem witness_PseudoInstructionsExpand :
    (∀ i ∈ [Instr.crcInit, .crcBlock [1], .crcFinal], i.WellFormed) ∧
    ∃ i ∈ [Instr.crcInit, .regNew (zeros 256)], ¬ i.WellFormed :=
  ⟨by decide, _, by simp, test_wf_refuses_long_dialect_list⟩

/-! ### Witnesses: checksum engine -/

/-- For every statement whose hypothesis is an unwritten or a written ACC. -/
theorem witness_acc_unwritten_and_written : idle.acc = none ∧ ({ idle with acc := some 0 }).acc = some 0 ∧
    ({ idle with acc := some 0xFFFF }).acc = some 0xFFFF := by decide

theorem witness_CrcInitCommand : ∃ t, execAll [.crcInit, .crcInit] idle = .next t := ⟨_, rfl⟩

theorem witness_CrcBlockCommand : ([] : List Byte).length ≤ 65535 ∧ (zeros 65535).length ≤ 65535 ∧
    idle.acc = none ∧ ({ idle with acc := some 0x8B13 }).acc = some 0x8B13 := by simp [idle, State.bind]

theorem witness_CrcDetectsOneChangedByte : (0x00 : Byte) ≠ 0x01 ∧ (0x7F : Byte) ≠ 0xFF := by decide

theorem witness_CrcCommandsFrame : (∃ t, exec .crcInit idle = .next t) ∧ (∃ t, exec (.crcByte 0) idle = .next t) ∧
    (∃ t, exec (.crcBlock [1]) { idle with acc := some 0 } = .next t) ∧ ∃ t, exec .crcFinal idle = .next t :=
  ⟨⟨_, rfl⟩, ⟨_, rfl⟩, ⟨_, rfl⟩, ⟨_, rfl⟩⟩

/-! ### Witnesses: registry -/

theorem witness_RegNewCommand :
    (zeros 255).length ≤ 255 ∧
    ({ idle with decPhase := .verify }).decPhase ≠ .idle ∧ inFlush.encPhase ≠ .idle ∧
    idle.decPhase = .idle ∧ idle.encPhase = .idle ∧
    (∃ d ∈ ([0, 3] : List Byte), idle.cfg.numDialects ≤ d.toNat) ∧
    (∀ d ∈ ([2, 0] : List Byte), d.toNat < idle.cfg.numDialects) ∧ idle.cfg.dialects = exampleDialects := by
  refine ⟨by simp, ?_⟩
  decide

theorem witness_RegRegisterCommand :
    (inBody 3 0).decPhase ≠ .idle ∧ idle.decPhase = .idle ∧ idle.encPhase = .idle ∧
    idle.cfg.numDialects ≤ (3 : Byte).toNat ∧ (2 : Byte).toNat < idle.cfg.numDialects ∧
    lookup idle 0 = some 0x32 ∧ 0 ∈ idle.regList ∧ idle.cfg.dialects = exampleDialects := by decide

theorem witness_RegLookupCommand :
    lookup idle 0x01 = some 0x7C ∧ lookup idle 0xFF = none ∧ ({ idle with regList := [] }).regList = [] ∧
    idle.cfg.dialects = exampleDialects ∧ idle.regList = [0] := by decide

theorem witness_LookupIsFirstMatch : registryInv { idle with regList := [2, 1, 0] } := by
  show ∀ d ∈ ([2, 1, 0] : List Byte), d.toNat < 3
  decide

theorem witness_RegistryFixedWhileBusy :
    ((inBody 3 0).decPhase ≠ .idle ∧ ∃ t, step (inBody 3 0) = .next t) ∧
    (inFlush.encPhase ≠ .idle ∧ ∃ t, step inFlush = .next t) :=
  ⟨⟨by decide, _, rfl⟩, by decide, _, rfl⟩

theorem witness_RegistryCommandsFrame : (∃ t, exec (.regNew [1]) idle = .next t) ∧
    (∃ t, exec (.regRegister 3) idle = .next t) ∧ ∃ t, exec (.regLookup 0) idle = .next t :=
  ⟨⟨_, rfl⟩, ⟨_, rfl⟩, ⟨_, rfl⟩⟩

/-! ### Witnesses: decoder -/

theorem witness_DecDecodeStarts : (inBody 3 0).decPhase ≠ .idle ∧ idle.decPhase = .idle := by decide

/-- The bytes next to the marker, the marker, End and Err. -/
theorem witness_SeekingStep : (0xFD : Byte) ≠ 0xFE ∧ (0xFF : Byte) ≠ 0xFE ∧
    ∀ x ∈ ([.byte 0xFD, .byte 0xFF, .byte 0xFE, .endOfSource, .err ⟨1⟩] : List Symbol),
      ({ idle with decPhase := .seeking, src := [x] }).decPhase = .seeking ∧
      ({ idle with decPhase := .seeking, src := [x] }).src = x :: [] := by decide

/-- HEADER(0) and HEADER(4), on a byte, on End and on Err. -/
theorem witness_HeaderSteps : ∀ k ∈ ([0, 4] : List (Fin 5)), ∀ x ∈ ([.byte 0xFE, .endOfSource, .err ⟨1⟩] : List Symbol),
    ({ idle with decPhase := .header k, src := [x] }).decPhase = .header k ∧
    ({ idle with decPhase := .header k, src := [x] }).src = x :: [] := by decide

/-- BODY(i) with i < L at both ends, i = L and i = L + 1, for L = 2, L = 0 and L = 255. -/
theorem witness_BodyByteStep :
    ∀ p ∈ ([(2, 0), (2, 1), (2, 2), (2, 3), (0, 0), (0, 1), (255, 254), (255, 255), (255, 256)] : List (Byte × Nat)),
      ({ inBody p.1 p.2 with src := [.byte 0xFE] }).decPhase = .body p.2 ∧
      ({ inBody p.1 p.2 with src := [.byte 0xFE] }).decHdr[0] = some p.1 ∧
      ({ inBody p.1 p.2 with src := [.byte 0xFE] }).src = .byte 0xFE :: [] ∧
      (p.2 < p.1.toNat ∨ p.2 = p.1.toNat ∨ p.2 = p.1.toNat + 1) := by decide

theorem witness_BodyCutStep : ∀ x ∈ ([.endOfSource, .err ⟨1⟩] : List Symbol),
    ({ inBody 2 3 with src := [x] }).decPhase = .body 3 ∧ (inBody 2 3).decHdr[1] = some 3 ∧ (inBody 2 3).decHdr[2] = some 1 ∧
    (inBody 2 3).decHdr[3] = some 1 ∧ (inBody 2 3).decHdr[4] = some 1 ∧ ({ inBody 2 3 with src := [x] }).src = x :: [] := by
  decide

/-- All three ends of VERIFY on an empty payload: id 5 is unknown; for id 0 the sum of DEC_CRC 0 and the seed 0x32 is 0x1291. -/
theorem witness_VerifyStep :
    (∀ msg lo hi : Byte, (inVerify msg lo hi).decPhase = .verify ∧
      (inVerify msg lo hi).decHdr = #v[some 0, some 9, some 1, some 1, some msg] ∧
      (inVerify msg lo hi).decCk = #v[some lo, some hi] ∧ (payloadOf []).bytes.length = (0 : Byte).toNat) ∧
    lookup (inVerify 5 0 0) 5 = none ∧
    (lookup (inVerify 0 0x90 0x12) 0 = some 0x32 ∧ crcStep (inVerify 0 0x90 0x12).decCrc 0x32 ≠ 0x1290) ∧
    (lookup (inVerify 0 0x91 0x12) 0 = some 0x32 ∧ crcStep (inVerify 0 0x91 0x12).decCrc 0x32 = 0x1291) :=
  ⟨fun _ _ _ => ⟨rfl, rfl, rfl, rfl⟩, by decide, by decide, by decide⟩

/-- A payload of one byte in DEC_PAY, as the statement on VERIFY asks for it. -/
theorem witness_VerifyStep_payload : ∀ j, (h : j < (payloadOf [0x41]).bytes.length) →
    ((Vector.replicate 255 (none : Option Byte)).set 0 (some 0x41))[j]? = some (some (payloadOf [0x41]).bytes[j]) := by
  decide +kernel

/-- A VERIFY state that meets the decoder's invariant. -/
theorem witness_VerifyStep_inv : ∃ c : Word, decoderInv { inVerify 0 0x91 0x12 with decCrc := c } := by
  have h5 : writtenTo 5 (inVerify 0 0x91 0x12).decHdr := by unfold writtenTo; decide
  have h2 : writtenTo 2 (inVerify 0 0x91 0x12).decCk := by unfold writtenTo; decide
  have h0 : writtenTo 0 (inVerify 0 0x91 0x12).decPay := writtenTo_replicate 255
  exact ⟨crcOver crcInitial (writtenValues (inVerify 0 0x91 0x12).decHdr ++ writtenValues (inVerify 0 0x91 0x12).decPay),
    h5, h0, h2, by simp only [runningSum]⟩

theorem witness_DecoderHoldsOnEmptySource :
    (({ idle with decPhase := .seeking }).decPhase ≠ .verify ∧ ({ idle with decPhase := .seeking }).src = []) ∧
    idle.decPhase = .idle := by decide

/-- Every clause of DEC.DECODE_BUF: busy; n = MAX_BUF + 1; n = MAX_BUF = 5; another first byte; n = 7 with L = 0; a whole frame of
8 bytes with an unknown id, a wrong checksum, and the right one. -/
theorem witness_DecDecodeBufCommand :
    (zeros 65535).length ≤ 65535 ∧ (inBody 3 0).decPhase ≠ .idle ∧ idle.decPhase = .idle ∧
    (bounded 7).decPhase = .idle ∧ (bounded 7).cfg.maxBuf < frame0.length ∧
    (bounded 5).decPhase = .idle ∧ (frame0.take 5).length ≤ (bounded 5).cfg.maxBuf ∧
    (frame0.take 5).length < 6 ∧ (0x00 :: frame0)[0]? ≠ some 0xFE ∧
    frame0.take 7 = 0xFE :: 0x00 :: 0x00 :: 0x01 :: 0x01 :: 0x00 :: [0x86] ∧ (frame0.take 7).length < 8 + (0x00 : Byte).toNat ∧
    frame0 = 0xFE :: 0x00 :: 0x00 :: 0x01 :: 0x01 :: 0x00 :: ((payloadOf []).bytes ++ 0x86 :: 0x5C :: []) ∧
    (payloadOf []).bytes.length = (0x00 : Byte).toNat ∧
    (0x5C86 : Word) = (0x86 : Byte).setWidth 16 ||| ((0x5C : Byte).setWidth 16 <<< 8) ∧
    lookup (bounded 8) 5 = none ∧ lookup (bounded 8) 0 = some 0x32 ∧ 8 ≤ (bounded 8).cfg.maxBuf := by
  refine ⟨?_, ?_⟩
  · simp
  · decide

theorem witness_DecDecodeBufCommand_sums :
    crcOver 0xFFFF ([0x00, 0x00, 0x01, 0x01, 0x00] ++ (payloadOf []).bytes ++ [0x32]) = 0x5C86 ∧
    crcOver 0xFFFF ([0x00, 0x00, 0x01, 0x01, 0x00] ++ (payloadOf []).bytes ++ [0x32]) ≠ 0x5C87 := by decide +kernel

theorem witness_DecSeqCommand : (inBody 3 0).decPhase ≠ .idle ∧ idle.decPhase = .idle ∧ 8 ≤ idle.cfg.maxBuf ∧
    lookup idle 0 = some 0x32 := by decide

/-- A decoder that has had an error and a DEC.SEQ but no success, and one whose step is the first success. -/
theorem witness_DecSeqCommand_before_success :
    let s : State := { idle with responses := idle.responses.withDecoder ⟨.endOfStream, none, none⟩ }
    let u : State := { idle with moves := [.command (0x21 :: 0x08 :: 0x00 :: frame0)] }
    decSeqInv s ∧ (∀ r ∈ s.responses.decoder, r.status = .ok → r.packet = none) ∧ s.decPhase = .idle ∧
    decSeqInv u ∧ ∃ t, step u = .next t :=
  ⟨fun _ => rfl, by decide, rfl, fun _ => rfl, _, rfl⟩

/-- A start of DEC.DECODE_BUF that resets a written register. -/
theorem witness_BufferStarted :
    BufferStarted afterFrame { afterFrame with decHdr := Vector.replicate 5 none, decCrc := 7, draws := 1 } := ⟨7, 1, rfl⟩

theorem witness_BufferReadsStayInside : ∃ t, step { idle with moves := [.command (0x21 :: 0x08 :: 0x00 :: frame0)] } = .next t :=
  ⟨_, rfl⟩

/-- S1 and S12 as one decode each. -/
theorem witness_StreamDecodeIsOneFunction : ∀ src : List Symbol,
    (decoding src).decPhase = .idle ∧ (decoding src).moves = [.command [0x20]] ∧ (decoding src).src = src :=
  fun _ => ⟨rfl, rfl, rfl⟩

theorem witness_StreamDecodeIsOneFunction_results :
    decodeStream (lookup (decoding [])) (frame0.map Symbol.byte ++ [.endOfSource]) =
      some (.whole .ok ⟨0, 1, 1, 0, payloadOf [], 0x5C86⟩, [.endOfSource]) ∧
    decodeStream (lookup (decoding [])) ([0xFE, 0x03, 0x03, 0x01, 0x01, 0x01, 0x41, 0x42].map Symbol.byte ++ [.endOfSource]) =
      some (.bodyCut .truncated 3 1 1 1, []) := by decide +kernel

/-- L = 0 and L = 255. -/
theorem witness_StreamAndBufferAgree : ∀ p ∈ ([(0x00, 6), (0xFF, 261)] : List (Byte × Nat)),
    let s := decoding ((0xFE :: p.1 :: zeros p.2).map Symbol.byte)
    s.decPhase = .idle ∧ s.moves = [.command [0x20]] ∧ s.src = (0xFE :: p.1 :: zeros p.2).map Symbol.byte ∧
    (zeros p.2).length + 2 = 8 + p.1.toNat ∧ (zeros p.2).length + 2 ≤ s.cfg.maxBuf := by
  intro p hp
  refine ⟨rfl, rfl, rfl, ?_⟩
  rw [length_zeros]
  revert p
  decide

theorem witness_validFrame : ValidFrame idle frame0 0 1 1 0 [] := ⟨by decide, 0x32, by decide, by decide +kernel⟩

/-- S2. -/
theorem witness_ResynchronizationSkipsGarbage :
    let s := decoding (([0x11, 0x22, 0x33, 0x00, 0xFF] ++ frame0).map Symbol.byte ++ [.endOfSource])
    (∀ b ∈ ([0x11, 0x22, 0x33, 0x00, 0xFF] : List Byte), b ≠ 0xFE) ∧ ValidFrame s frame0 0 1 1 0 [] ∧ s.decPhase = .idle ∧
    s.moves = [.command [0x20]] ∧ s.src = ([0x11, 0x22, 0x33, 0x00, 0xFF] ++ frame0).map Symbol.byte ++ [.endOfSource] :=
  ⟨by decide, witness_validFrame, rfl, rfl, rfl⟩

theorem witness_UnknownMessageWhateverTheChecksum :
    idle.decPhase = .idle ∧ ([] : List Byte).length = (0 : Byte).toNat ∧ (zeros 255).length = (0xFF : Byte).toNat ∧
    8 + (0xFF : Byte).toNat ≤ idle.cfg.maxBuf ∧ lookup idle 5 = none := by
  refine ⟨rfl, rfl, by simp, ?_⟩
  decide

/-- The first, a header and the last offset the statement allows, in F0. -/
theorem witness_CorruptedByteIsRejected :
    idle.decPhase = .idle ∧ ValidFrame idle frame0 0 1 1 0 [] ∧ frame0.length ≤ idle.cfg.maxBuf ∧
    ∀ j ∈ [2, 4, 6, 7], 2 ≤ j ∧ j ≠ 5 ∧ (frame0.set j 0xAA).length = frame0.length ∧ (frame0.set j 0xAA)[j]? ≠ frame0[j]? ∧
      ∀ k, k ≠ j → (frame0.set j 0xAA)[k]? = frame0[k]? := by
  refine ⟨rfl, witness_validFrame, by decide, fun j hj => ⟨?_, ?_, by simp, ?_, fun k hk => ?_⟩⟩
  · revert j; decide
  · revert j; decide
  · revert j; decide
  · exact List.getElem?_set_ne (Ne.symm hk)

theorem witness_DecoderCommandsFrame : (∃ t, exec .decDecode idle = .next t) ∧
    gives (exec (.decDecodeBuf frame0) idle) (fun t => t.responses ≠ idle.responses) = true ∧
    gives (exec (.decDecodeBuf frame0) (inBody 3 0)) (fun t => t.responses = (inBody 3 0).responses) = true ∧
    ∃ t, exec .decSeq (inBody 3 0) = .next t :=
  ⟨⟨_, rfl⟩, by decide +kernel, by decide +kernel, ⟨_, rfl⟩⟩

/-! ### Witnesses: encoder -/

theorem witness_EncPacketBuildsTheFrame :
    ([] : List Byte).length ≤ 255 ∧ (zeros 255).length ≤ 255 ∧ inFlush.encPhase ≠ .idle ∧
    idle.encPhase = .idle ∧ lookup idle 2 = none ∧ lookup idle 0 = some 0x32 := by
  refine ⟨by simp, by simp, ?_⟩
  decide

/-- The whole request, one byte less, no byte, and an error. -/
theorem witness_SinkAnswerEndsTheEncode :
    inFlush.encPhase = .flush ∧ inFlush.encFrame.length = 8 ∧ 7 < inFlush.encFrame.length ∧ 0 < inFlush.encFrame.length ∧
    ∀ a ∈ ([.accepted 8, .accepted 7, .accepted 0, .err ⟨1⟩] : List Answer),
      ({ inFlush with moves := [.answer a] }).moves = .answer a :: [] := by decide

theorem witness_SequenceFieldIsIgnored : idle.encPhase = .idle ∧
    ∃ t, exec (.encPacket 0x77 1 1 0 []) idle = .next t ∧ t.encPhase = .flush :=
  ⟨rfl, _, rfl, rfl⟩

theorem witness_EncSeqCommand :
    let s : State :=
      { idle with moves := [.command [0x30, 0x00, 0x00, 0x01, 0x01, 0x00], .answer (.accepted 8), .command [0x31]] }
    inFlush.encPhase ≠ .idle ∧ s.encPhase = .idle ∧ s.encSeq = 0 ∧ lookup s 0 = some 0x32 ∧
    s.moves = [.command [0x30, 0x00, 0x00, 0x01, 0x01, 0x00], .answer (.accepted 8), .command [0x31]] := by decide

/-- An encoder that has had an unknown id and an ENC.SEQ but no success, and one whose step starts an encode. -/
theorem witness_EncSeqCommand_before_encode :
    let s : State := { idle with
      responses := (idle.responses.withEncoder ⟨.unknownMessage, none, none⟩).withEncoder ⟨.ok, none, some 0⟩ }
    let u : State := { idle with moves := [.command [0x30, 0x00, 0x00, 0x01, 0x01, 0x00]] }
    encSeqInv s ∧ (∀ r ∈ s.responses.encoder, r.status = .ok → r.value ≠ none) ∧ s.encPhase = .idle ∧
    encSeqInv u ∧ ∃ t, step u = .next t :=
  ⟨fun _ => rfl, by decide, rfl, fun _ => rfl, _, rfl⟩

/-- X4: three packets of id 0. -/
theorem witness_SequenceIdsAreConsecutive :
    let ps : List (Byte × Byte × Byte × Byte × List Byte) := [(0x00, 1, 1, 0, []), (0x55, 1, 1, 0, []), (0xFE, 1, 1, 0, [])]
    let s : State := { idle with encSeq := 0xFE, moves := encodeMoves ps ++ [] }
    s.encPhase = .idle ∧ s.moves = encodeMoves ps ++ [] ∧
    ∀ p ∈ ps, p.2.2.2.2.length ≤ 255 ∧ lookup s p.2.2.2.1 ≠ none := by decide

theorem witness_DecodeInvertsEncodePacket : idle.encPhase = .idle ∧ idle.decPhase = .idle ∧
    ∃ t, exec (.encPacket 0x99 0x2A 0x07 0x01 [0x10, 0x20, 0xFE, 0x30]) idle = .next t ∧ t.encPhase = .flush ∧
      t.encFrame.length ≤ idle.cfg.maxBuf :=
  ⟨rfl, rfl, _, rfl, rfl, by decide⟩

theorem witness_EncoderCommandsFrame : (∃ t, exec (.encPacket 0 1 1 0 []) idle = .next t) ∧
    ∃ t, exec .encSeq inFlush = .next t := ⟨⟨_, rfl⟩, ⟨_, rfl⟩⟩

/-! ### Witnesses: the whole machine -/

/-- The decoder after the marker and the length byte 0 of a frame, a request pending at the sink. -/
def midFrame : State :=
  { inFlush with
    decPhase := .header 1, decHdr := (Vector.replicate 5 none).set 0 (some 0), decCrc := crcStep crcInitial 0
    src := [.byte 0x07] }

theorem witness_midFrame_inv : Inv midFrame where
  config := by decide
  registry := by
    show ∀ d ∈ ([0] : List Byte), d.toNat < 3
    decide
  decoder := by
    have h : writtenTo 1 midFrame.decHdr := writtenTo_set (by decide) (writtenTo_replicate 5)
    refine ⟨h, writtenTo_replicate 255, writtenTo_replicate 2, ?_⟩
    have hv : writtenValues midFrame.decHdr = [0] := by decide
    have hp : writtenValues midFrame.decPay = [] := writtenValues_unwritten (writtenTo_replicate 255)
    rw [runningSum, hv, hp]
    rfl
  encoder := ⟨by decide, fun _ => ⟨1, 1, 0, 0x32, [], by decide, by decide, by decide +kernel⟩⟩

theorem witness_StepKeepsTheInvariant : Inv midFrame ∧ ∃ t, step midFrame = .next t := ⟨witness_midFrame_inv, _, rfl⟩

/-- One state for each way a step is refused. -/
theorem witness_StepStopsOnlyOnInputsWithoutMove :
    (Inv { midFrame with moves := [.command [0x02]] } ∧
      step { midFrame with moves := [.command [0x02]] } = .refused .notWholeCommand) ∧
    step { idle with moves := [.answer (.accepted 0)] } = .refused .noPendingRequest ∧
    step { inFlush with moves := [.answer (.accepted 9)] } = .refused .acceptedTooMuch :=
  ⟨⟨⟨witness_midFrame_inv.config, witness_midFrame_inv.registry, witness_midFrame_inv.decoder,
    witness_midFrame_inv.encoder⟩, rfl⟩, rfl, rfl⟩

theorem witness_InputsWithoutMoveAreRefused :
    65535 < (zeros 65536).length ∧ 255 < (zeros 256).length ∧
    decode [0x02] = .notWhole ∧ idle.encPhase = .idle ∧ inFlush.encPhase = .flush ∧ inFlush.encFrame.length < 9 := by
  refine ⟨by simp, by simp, ?_⟩
  decide

theorem witness_FaultsAreStickyAndChangeNothingElse :
    (∃ t, issueRecord [0x05] idle = .next t ∧ t.faults ≠ idle.faults) ∧
    (∃ t, step { idle with faults := addFault .busy FaultSet.empty, moves := [.command [0x01]] } = .next t) ∧
    faultRecorded (addFault .busy FaultSet.empty) .busy = true :=
  ⟨⟨_, rfl, by decide⟩, ⟨_, rfl⟩, rfl⟩

theorem witness_EveryCommandHasOneResponse : (∃ t, exec .decDecode idle = .next t) ∧
    (∃ t, takeMove .decoder { midFrame with moves := [] } = .next t) ∧ ∀ record, Move.decoder ≠ .command record :=
  ⟨⟨_, rfl⟩, ⟨_, rfl⟩, fun _ => by simp⟩

/-- For every statement whose only hypothesis is a step to a next state. -/
theorem witness_step : (∃ t, step midFrame = .next t) ∧ (∃ t, step { idle with moves := [.source .endOfSource] } = .next t) ∧
    ∃ t, step { inFlush with moves := [.answer (.accepted 8)] } = .next t ∧ t.encSeq ≠ inFlush.encSeq :=
  ⟨⟨_, rfl⟩, ⟨_, rfl⟩, _, rfl, by decide⟩

/-- DEC_SEQ changes in one step: VERIFY of a frame with sequence id 9. -/
theorem witness_CountersChangeOnlyWithOk : gives (step (inVerify 0 0x91 0x12)) (fun t => t.decSeq = 9) = true := by decide

theorem witness_AccumulatorIsOnlyForCrcCommands : Instr.regLookup 0 ≠ .crcInit ∧ (∀ b, Instr.regLookup 0 ≠ .crcByte b) ∧
    (∀ data, Instr.regLookup 0 ≠ .crcBlock data) ∧ Instr.regLookup 0 ≠ .crcFinal := by simp

theorem witness_StepRunsTheDecodedCommand :
    ({ idle with moves := [.command [0x02, 0xFE], .decoder] }).moves = .command [0x02, 0xFE] :: [.decoder] ∧
    decode [0x02, 0xFE] = .command (.crcByte 0xFE) := by decide

theorem witness_StepTakesTheNextMove :
    ({ idle with moves := [.source (.byte 0xFE)] }).moves = .source (.byte 0xFE) :: [] ∧
    ({ idle with moves := [.decoder] }).moves = .decoder :: [] ∧ idle.moves = [] := by decide

end Sys2Proof.Tests
end

section
/-! The parameters of the block (spec/00_scope.md R9) are constant (R10): each kind of move leaves `cfg` as it was. -/

namespace Sys2Proof.Machine

/-- Only the verdict on a whole buffer frame is not one record update. -/
theorem CommandEffect.cfg_eq {s t : State} (h : CommandEffect s t) : t.cfg = s.cfg := by
  cases h with
  | bufferWhole _ crc p => exact concludeFrame_cfg crc p (startBuffer s)
  | _ => rfl

/-- Only VERIFY is not one record update. -/
theorem TurnEffect.cfg_eq {s t : State} (h : TurnEffect s t) : t.cfg = s.cfg := by
  cases h with
  | verify p => exact concludeFrame_cfg s.decCrc p s
  | _ => rfl

theorem decoderTurn_cfg {s t : State} (h : decoderTurn s = .next t) : t.cfg = s.cfg :=
  (decoderTurn_effect h).cfg_eq

theorem issueRecord_cfg {record : List Byte} {s t : State} (h : issueRecord record s = .next t) : t.cfg = s.cfg := by
  obtain ⟨i, -, hi⟩ | ⟨op, -, rfl⟩ := issueRecord_eq_next h
  · exact (exec_effect hi).cfg_eq
  · exact recordFault_cfg .illegal s

theorem sinkAnswer_cfg {a : Answer} {s t : State} (h : sinkAnswer a s = .next t) : t.cfg = s.cfg := by
  obtain ⟨-, ⟨-, rfl⟩ | ⟨k, -, -, rfl⟩ | ⟨e, -, rfl⟩⟩ := sinkAnswer_eq_next h <;> rfl

theorem takeMove_cfg {m : Move} {s t : State} (h : takeMove m s = .next t) : t.cfg = s.cfg := by
  cases m with
  | command record => exact issueRecord_cfg h
  | source x => cases h; exact appendSymbol_cfg x s
  | answer a => exact sinkAnswer_cfg h
  | decoder => exact decoderTurn_cfg h

theorem step_cfg {s t : State} (h : step s = .next t) : t.cfg = s.cfg := by
  obtain ⟨-, hturn⟩ | ⟨m, ms, -, hmove⟩ := step_cases h
  · exact decoderTurn_cfg hturn
  · exact (takeMove_cfg hmove).trans rfl

/-- Settles O54: whichever move a step takes, it leaves the parameters as they were. -/
theorem parametersNeverChange : Obligations.ParametersNeverChange := fun _ _ h => step_cfg h

end Sys2Proof.Machine
end

section
/-! DEC_SEQ and ENC_SEQ change only in the step of the unit's OK response (spec/20_memory.md R63, spec/10_state.md R33): each kind of
move either leaves both counters as they were, or is the OK verdict on a frame or the sink's full acceptance. -/

namespace Sys2Proof.Machine

/-- From `s` to `t` a counter changes only together with the one OK response that R63 ties it to. -/
structure CountersFollowOk (s t : State) : Prop where
  decSeq : t.decSeq ≠ s.decSeq → ∃ p, t.responses = s.responses.withDecoder ⟨.ok, some p, none⟩ ∧ t.decSeq = p.sequenceId
  encSeq : t.encSeq ≠ s.encSeq → t.responses = s.responses.withEncoder ⟨.ok, none, none⟩ ∧ t.encSeq = s.encSeq + 1

theorem CountersFollowOk.of_unchanged {s t : State} (hd : t.decSeq = s.decSeq) (he : t.encSeq = s.encSeq) :
    CountersFollowOk s t := ⟨fun h => absurd hd h, fun h => absurd he h⟩

/-- The verdict on a whole frame moves DEC_SEQ on OK alone. -/
theorem concludeFrame_countersFollowOk (crc : Word) (p : Packet) (s : State) :
    CountersFollowOk s (concludeFrame crc p s) := by
  obtain ⟨-, h⟩ | ⟨_, -, -, h⟩ | ⟨_, -, -, h⟩ := concludeFrame_cases crc p s <;> rw [h]
  · exact .of_unchanged rfl rfl
  · exact .of_unchanged rfl rfl
  · exact ⟨fun _ => ⟨p, rfl, rfl⟩, fun hne => absurd rfl hne⟩

/-- Of the commands only a buffer decode of a whole frame moves a counter; its start leaves counters and responses alone. -/
theorem CommandEffect.countersFollowOk {s t : State} (h : CommandEffect s t) : CountersFollowOk s t := by
  cases h with
  | bufferWhole _ crc p =>
    obtain ⟨hdec, henc⟩ := concludeFrame_countersFollowOk crc p (startBuffer s)
    exact ⟨hdec, henc⟩
  | _ => exact .of_unchanged rfl rfl

/-- Of the decoder's turns only VERIFY moves a counter. -/
theorem TurnEffect.countersFollowOk {s t : State} (h : TurnEffect s t) : CountersFollowOk s t := by
  cases h with
  | verify p => exact concludeFrame_countersFollowOk s.decCrc p s
  | _ => exact .of_unchanged rfl rfl

theorem issueRecord_countersFollowOk {record : List Byte} {s t : State} (h : issueRecord record s = .next t) :
    CountersFollowOk s t := by
  obtain ⟨i, -, hi⟩ | ⟨op, -, rfl⟩ := issueRecord_eq_next h
  · exact (exec_effect hi).countersFollowOk
  · exact .of_unchanged rfl rfl

/-- Of the sink's answers only the acceptance of the whole request moves a counter. -/
theorem sinkAnswer_countersFollowOk {a : Answer} {s t : State} (h : sinkAnswer a s = .next t) : CountersFollowOk s t := by
  obtain ⟨-, ⟨-, rfl⟩ | ⟨k, -, -, rfl⟩ | ⟨e, -, rfl⟩⟩ := sinkAnswer_eq_next h
  · exact ⟨fun hne => absurd rfl hne, fun _ => ⟨rfl, rfl⟩⟩
  · exact .of_unchanged rfl rfl
  · exact .of_unchanged rfl rfl

theorem takeMove_countersFollowOk {m : Move} {s t : State} (h : takeMove m s = .next t) : CountersFollowOk s t := by
  cases m with
  | command record => exact issueRecord_countersFollowOk h
  | source x => cases h; exact .of_unchanged rfl rfl
  | answer a => exact sinkAnswer_countersFollowOk h
  | decoder => exact (decoderTurn_effect h).countersFollowOk

/-- Taking the move off the list touches neither a counter nor a response. -/
theorem step_countersFollowOk {s t : State} (h : step s = .next t) : CountersFollowOk s t := by
  obtain ⟨-, hturn⟩ | ⟨m, ms, -, hmove⟩ := step_cases h
  · exact (decoderTurn_effect hturn).countersFollowOk
  · obtain ⟨hdec, henc⟩ := takeMove_countersFollowOk hmove
    exact ⟨hdec, henc⟩

/-- Settles O55: whichever move a step takes, a counter it changes follows the unit's OK response. -/
theorem countersChangeOnlyWithOk : Obligations.CountersChangeOnlyWithOk := by
  intro s t h
  obtain ⟨hdec, henc⟩ := step_countersFollowOk h
  exact ⟨hdec, henc⟩

end Sys2Proof.Machine
end

section
/-! What a record on the command port is (spec/30_encoding.md R84, R85): each format is read at its exact length and at no other, and
the opcode byte alone makes a record illegal. With it what the port and the assembler do with such records. -/

namespace Sys2Proof

/-- The length of a command in its format, from the two bytes after the opcode (30_encoding.md R84). -/
def Format.recordLength (f : Format) (b1 b2 : Byte) : Nat :=
  match f with
  | .c0 => 1
  | .c8 => 2
  | .cb => 3 + (b1.toNat + 256 * b2.toNat)
  | .cn => 2 + b1.toNat
  | .cp => 6 + b1.toNat

/-- The format of each function (30_encoding.md R81). -/
def Op.format : Op → Format
  | .crcInit | .crcFinal | .decDecode | .decSeq | .encSeq => .c0
  | .crcByte | .regRegister | .regLookup => .c8
  | .crcBlock | .decDecodeBuf => .cb
  | .regNew => .cn
  | .encPacket => .cp

/-- The row of an opcode byte names its function's format. -/
theorem opcodeRow_format {b : Byte} {op : Op} {f : Format} (h : opcodeRow b = some (op, f)) : f = op.format := by
  have all : ∀ b : Byte, ∀ r, opcodeRow b = some r → r.2 = r.1.format := by decide
  exact all b _ h

/-- The opcode bytes of each format. -/
theorem opcodeRow_map_format (b : Byte) :
    (opcodeRow b).map Prod.snd =
      if b ∈ ([0x01, 0x04, 0x20, 0x22, 0x31] : List Byte) then some .c0
      else if b ∈ ([0x02, 0x11, 0x12] : List Byte) then some .c8
      else if b ∈ ([0x03, 0x21] : List Byte) then some .cb
      else if b = 0x10 then some .cn
      else if b = 0x30 then some .cp
      else none := by
  revert b
  decide

/-- A command's length depends on the opcode's format and the two bytes after it alone. -/
theorem commandLength_eq_map (op b1 b2 : Byte) :
    commandLength op b1 b2 = ((opcodeRow op).map Prod.snd).map (·.recordLength b1 b2) := by
  unfold commandLength
  rcases opcodeRow op with _ | ⟨o, f⟩
  · rfl
  · cases f with
    | cb => simp [Format.recordLength, le16_toNat]
    | _ => rfl

/-! ### Each format at its length, and at no other -/

theorem takeC0_eq_ite (i : Instr) (rest : List Byte) :
    takeC0 i rest = if rest.length + 1 = 1 then .command i else .notWhole := by
  cases rest <;> simp [takeC0]

theorem takeC8_eq_ite (f : Byte → Instr) (rest : List Byte) :
    takeC8 f rest = if rest.length + 1 = 2 then .command (f (rest.getD 0 0)) else .notWhole := by
  rcases rest with _ | ⟨b, _ | ⟨c, rest⟩⟩ <;> simp [takeC8]

theorem takeCB_eq_ite (f : List Byte → Instr) (rest : List Byte) :
    takeCB f rest =
      if rest.length + 1 = 3 + ((rest.getD 0 0).toNat + 256 * (rest.getD 1 0).toNat) then .command (f (rest.drop 2))
      else .notWhole := by
  rcases rest with _ | ⟨lo, _ | ⟨hi, data⟩⟩
  · simp [takeCB]
  · have hne : 1 + 1 ≠ 3 + lo.toNat := by omega
    simp [takeCB, hne]
  · have hlen : data.length + 1 + 1 + 1 = 3 + (lo.toNat + 256 * hi.toNat) ↔
        data.length = lo.toNat + 256 * hi.toNat := by omega
    simp [takeCB, le16_toNat, hlen]

theorem takeCN_eq_ite (f : List Byte → Instr) (rest : List Byte) :
    takeCN f rest = if rest.length + 1 = 2 + (rest.getD 0 0).toNat then .command (f (rest.drop 1)) else .notWhole := by
  rcases rest with _ | ⟨k, ds⟩
  · simp [takeCN]
  · have hlen : ds.length + 1 + 1 = 2 + k.toNat ↔ ds.length = k.toNat := by omega
    simp [takeCN, hlen]

/-- Fewer than five bytes after the opcode are too few whatever L is. -/
theorem takeCP_eq_ite (f : Byte → Byte → Byte → Byte → List Byte → Instr) (rest : List Byte) :
    takeCP f rest =
      if rest.length + 1 = 6 + (rest.getD 0 0).toNat then
        .command (f (rest.getD 1 0) (rest.getD 2 0) (rest.getD 3 0) (rest.getD 4 0) (rest.drop 5))
      else .notWhole := by
  match rest with
  | l :: q :: sys :: comp :: msg :: payload =>
    have hlen : payload.length + 1 + 1 + 1 + 1 + 1 + 1 = 6 + l.toNat ↔ payload.length = l.toNat := by omega
    simp [takeCP, hlen]
  | [] | [_] | [_, _] | [_, _, _] | [_, _, _, _] =>
    exact (if_neg (by simp only [List.length_cons, List.length_nil]; omega)).symm

/-- The operands of a function are whole exactly at its format's length. -/
theorem decodeOperands_eq_ite (op : Op) (rest : List Byte) :
    ∃ i, decodeOperands op rest =
      if rest.length + 1 = op.format.recordLength (rest.getD 0 0) (rest.getD 1 0) then .command i else .notWhole := by
  cases op with
  | crcInit | crcFinal | decDecode | decSeq | encSeq => exact ⟨_, takeC0_eq_ite _ rest⟩
  | crcByte | regRegister | regLookup => exact ⟨_, takeC8_eq_ite _ rest⟩
  | crcBlock | decDecodeBuf => exact ⟨_, takeCB_eq_ite _ rest⟩
  | regNew => exact ⟨_, takeCN_eq_ite _ rest⟩
  | encPacket => exact ⟨_, takeCP_eq_ite _ rest⟩

/-- A record whose opcode is in the map is read in its function's format. -/
theorem decode_of_row {b : Byte} {op : Op} {f : Format} (h : opcodeRow b = some (op, f)) (rest : List Byte) :
    decode (b :: rest) = decodeOperands op rest := by
  simp [decode, h]

/-- A record whose opcode is in the map is a command at the length R84 gives and at no other. -/
theorem decode_eq_ite {op : Byte} {rest : List Byte} {n : Nat}
    (h : commandLength op (rest.getD 0 0) (rest.getD 1 0) = some n) :
    ∃ i, decode (op :: rest) = if rest.length + 1 = n then .command i else .notWhole := by
  rw [commandLength_eq_map] at h
  rcases hrow : opcodeRow op with _ | ⟨o, f⟩
  · simp [hrow] at h
  · obtain rfl : f.recordLength (rest.getD 0 0) (rest.getD 1 0) = n := by simpa [hrow] using h
    rw [decode_of_row hrow, opcodeRow_format hrow]
    exact decodeOperands_eq_ite o rest

/-! ### Illegal opcodes (30_encoding.md R85) -/

/-- The opcode bytes that are not in the map. -/
theorem opcodeRow_eq_none_iff (b : Byte) :
    opcodeRow b = none ↔
      b = 0x00 ∨ (0x05 ≤ b ∧ b ≤ 0x0F) ∨ (0x13 ≤ b ∧ b ≤ 0x1F) ∨ (0x23 ≤ b ∧ b ≤ 0x2F) ∨ 0x32 ≤ b := by
  revert b
  decide

/-- The opcode byte alone makes a record illegal: the operands of a listed one are whole or not, never illegal. -/
theorem decode_eq_illegal_iff (b : Byte) (rest : List Byte) :
    decode (b :: rest) = .illegal b ↔ opcodeRow b = none := by
  rcases hrow : opcodeRow b with _ | ⟨op, f⟩
  · simp [decode, hrow]
  · obtain ⟨i, hi⟩ := decodeOperands_eq_ite op rest
    rw [decode_of_row hrow, hi]
    split <;> simp

end Sys2Proof

namespace Sys2Proof.Machine

/-- A listed move is what the next step takes, off the list. -/
theorem step_of_moves_cons {s : State} {m : Move} {ms : List Move} (h : s.moves = m :: ms) :
    step s = takeMove m { s with moves := ms } := by
  simp [step, nextMove, h]

/-- An illegal record on the port records F_ILLEGAL. -/
theorem issueRecord_of_illegal {record : List Byte} {op : Byte} (h : decode record = .illegal op) (s : State) :
    issueRecord record s = .next (recordFault .illegal s) := by
  simp [issueRecord, h]

/-! ### Assembling (30_encoding.md R86) -/

theorem assembleCommands_of_wellFormed {is : List Instr} (h : ∀ i ∈ is, i.WellFormed) :
    assembleCommands is = some (is.map fun i => .command (encode i)) :=
  if_pos (List.all_eq_true.2 h)

theorem assembleCommands_of_not_wellFormed {is : List Instr} (h : ∃ i ∈ is, ¬ i.WellFormed) :
    assembleCommands is = none := by
  obtain ⟨i, hi, hbad⟩ := h
  exact if_neg fun hall => hbad (List.all_eq_true.1 hall i hi)

end Sys2Proof.Machine
end

section
/-! Lengths, illegal opcodes, the example words and the pseudo-instructions (spec/30_encoding.md R84 to R89). -/

namespace Sys2Proof.Machine

/-- Settles O3: both parts follow from the length of the opcode's format. -/
theorem commandLengthFromThreeBytes : Obligations.CommandLengthFromThreeBytes := by
  refine ⟨fun op b1 b2 => ?_, fun op rest n h => ?_⟩
  · rw [commandLength_eq_map, opcodeRow_map_format]
    simp only [apply_ite (Option.map _), Option.map_some, Option.map_none, Format.recordLength]
  · obtain ⟨i, hi⟩ := decode_eq_ite h
    by_cases hlen : rest.length + 1 = n <;> simp [hi, hlen]

/-- Settles O4: the opcode byte alone decides, and the port answers such a record with F_ILLEGAL. -/
theorem unlistedOpcodeRecordsIllegal : Obligations.UnlistedOpcodeRecordsIllegal := by
  intro op rest
  refine ⟨(opcodeRow_eq_none_iff op).symm.trans (decode_eq_illegal_iff op rest).symm, fun hillegal s ms hmoves => ?_⟩
  calc step s = issueRecord (op :: rest) { s with moves := ms } := step_of_moves_cons hmoves
    _ = .next (recordFault .illegal { s with moves := ms }) := issueRecord_of_illegal hillegal _

/-- Settles O5: each record is read in its opcode's format, whatever the two checksum bytes are. -/
theorem specExampleWordsDecode : Obligations.SpecExampleWordsDecode :=
  fun _ _ => ⟨rfl, rfl, rfl, rfl, rfl, rfl⟩

/-- Settles O6: the expansions are the assembler's own lines, and one ill-formed command keeps the list from assembling. -/
theorem pseudoInstructionsExpand : Obligations.PseudoInstructionsExpand := fun _ =>
  ⟨rfl, fun _ _ _ _ => rfl, fun _ => rfl, fun _ => assembleCommands_of_wellFormed,
    fun _ => assembleCommands_of_not_wellFormed⟩

end Sys2Proof.Machine
end

section
/-! The checksum functions: `crc_over` in pieces and over a frame, and the byte-wise and table forms of the step
(spec/40_checksum.md R101, R107, R108). -/

namespace Sys2Proof.Machine

/-- Bytes 1 to 5 + L of a frame are those its checksum covers before the crc-extra (30_encoding.md R72). -/
theorem frameBytes_covered (seq sys comp msg : Byte) (payload : List Byte) (x : Byte) :
    ((frameBytes seq sys comp msg payload x).drop 1).take (5 + payload.length) =
      BitVec.ofNat 8 payload.length :: seq :: sys :: comp :: msg :: payload := by
  simp [frameBytes, Nat.add_comm 5]

/-- Settles O11: `crc_over` is a fold from the left; the frame's checksum is taken over the bytes it covers. -/
theorem crcOverAbsorbsInPieces : Obligations.CrcOverAbsorbsInPieces := by
  refine ⟨fun acc b s t => ⟨rfl, rfl, crcOver_append acc s t⟩, fun seq sys comp msg x payload => ?_⟩
  dsimp only
  rw [frameBytes_covered]
  exact ⟨_, rfl, rfl⟩

/-- One look into the table, at the byte that R108 calls tmp0. -/
theorem crcStep_eq_crcTable (acc : Word) (b : Byte) : crcStep acc b = (acc >>> 8) ^^^ crcTable (b ^^^ loByte acc) := by
  rw [crcStep_eq_table, crcStepTable, loByte_xor_zext16]

/-- The byte-wise form takes the accumulator apart in the same way: its low byte joins the operand, its high byte moves down. -/
theorem crcStepBytewise_eq_zero (acc : Word) (b : Byte) :
    crcStepBytewise acc b = (acc >>> 8) ^^^ crcStepBytewise 0 (b ^^^ loByte acc) := by
  simp [crcStepBytewise, loByte, BitVec.xor_assoc]

/-- Each table entry is the byte-wise form from 0. -/
theorem crcTable_eq_bytewise (i : Byte) : crcTable i = crcStepBytewise 0 i := by
  revert i; decide +kernel

/-- The byte-wise form is the step. -/
theorem crcStep_eq_bytewise (acc : Word) (b : Byte) : crcStep acc b = crcStepBytewise acc b := by
  rw [crcStep_eq_crcTable, crcTable_eq_bytewise, ← crcStepBytewise_eq_zero]

/-- Settles O12: both forms split off the high byte of ACC, and from 0 they agree on each of the 256 bytes. -/
theorem crcBytewiseFormIsStep : Obligations.CrcBytewiseFormIsStep := crcStep_eq_bytewise

/-- Masking with 0xFF gives the low byte. -/
theorem and_0xFF_toNat (c : Word) : (c &&& 0xFF).toNat = (loByte c).toNat := by
  simp [loByte, Nat.and_two_pow_sub_one_eq_mod c.toNat 8]

/-- The printed entries are the steps from 0. -/
theorem x25Table_getElem? (i : Byte) : (x25TableLow ++ x25TableHigh)[i.toNat]? = some (crcTable i) := by
  revert i; decide +kernel

/-- Settles O13: the entries are compared one by one; the step is one look into the table at the low byte. -/
theorem x25TableGivesTheStep : Obligations.X25TableGivesTheStep := by
  refine ⟨x25Table_getElem?, fun acc b => ?_⟩
  rw [and_0xFF_toNat, x25Table_getElem?]
  exact congrArg some (crcStep_eq_table acc b)

end Sys2Proof.Machine
end

section
/-! The four CRC commands (spec/40_checksum.md R103 to R106), each on a written and on an unwritten ACC, and lists of them in order. -/

namespace Sys2Proof.Machine

/-- A list of commands goes on after a command that answers a next state. -/
theorem execAll_cons_of_next {i : Instr} {is : List Instr} {s t : State} (h : exec i s = .next t) :
    execAll (i :: is) s = execAll is t := by
  rw [execAll, h]

theorem exec_crcInit (s : State) :
    exec .crcInit s = .next (respond .crc ⟨.ok, none, none⟩ { s with acc := some crcInitial }) := rfl

theorem exec_crcByte_of_written {s : State} {a : Word} (h : s.acc = some a) (b : Byte) :
    exec (.crcByte b) s = .next (respond .crc ⟨.ok, none, none⟩ { s with acc := some (crcStep a b) }) :=
  congrArg _ (withAcc_some h _)

theorem exec_crcByte_of_unwritten {s : State} (h : s.acc = none) (b : Byte) :
    exec (.crcByte b) s = .next (recordFault .uninit s) :=
  congrArg _ (withAcc_none h _)

theorem exec_crcBlock_of_written {s : State} {a : Word} {data : List Byte} (hd : data.length ≤ maxBlock)
    (h : s.acc = some a) :
    exec (.crcBlock data) s = .next (respond .crc ⟨.ok, none, none⟩ { s with acc := some (crcOver a data) }) :=
  (withinFormat_of_le hd).trans (congrArg _ (withAcc_some h _))

theorem exec_crcBlock_of_unwritten {s : State} {data : List Byte} (hd : data.length ≤ maxBlock) (h : s.acc = none) :
    exec (.crcBlock data) s = .next (recordFault .uninit s) :=
  (withinFormat_of_le hd).trans (congrArg _ (withAcc_none h _))

theorem exec_crcFinal_of_written {s : State} {a : Word} (h : s.acc = some a) :
    exec .crcFinal s = .next (respond .crc ⟨.ok, none, some a⟩ s) :=
  congrArg _ (withAcc_some h _)

theorem exec_crcFinal_of_unwritten {s : State} (h : s.acc = none) :
    exec .crcFinal s = .next (recordFault .uninit s) :=
  congrArg _ (withAcc_none h _)

/-- The CRC.BYTE commands of a sequence in order absorb it. -/
theorem execAll_map_crcByte (data : List Byte) {s : State} {a : Word} (h : s.acc = some a) :
    ∃ t, execAll (data.map .crcByte) s = .next t ∧ t.acc = some (crcOver a data) := by
  induction data generalizing s a with
  | nil => exact ⟨s, rfl, h⟩
  | cons b data ih =>
    rw [List.map_cons, execAll_cons_of_next (exec_crcByte_of_written h b)]
    exact ih (respond_acc _ _ _)

/-- The commands of CRC.OVER (30_encoding.md R87) return the sum of the data from 0xFFFF on. -/
theorem execAll_crcOver {data : List Byte} (hd : data.length ≤ maxBlock) (s : State) :
    ∃ t, execAll [.crcInit, .crcBlock data, .crcFinal] s = .next t ∧
      t.responses.crc =
        s.responses.crc ++ [⟨.ok, none, none⟩, ⟨.ok, none, none⟩, ⟨.ok, none, some (crcOver crcInitial data)⟩] := by
  rw [execAll_cons_of_next (exec_crcInit s), execAll_cons_of_next (exec_crcBlock_of_written hd (respond_acc _ _ _)),
    execAll_cons_of_next (exec_crcFinal_of_written (respond_acc _ _ _))]
  exact ⟨_, rfl, by simp⟩

/-- CRC.FINAL straight after CRC.INIT returns 0xFFFF. -/
theorem execAll_crcInit_crcFinal (s : State) :
    ∃ t, execAll [.crcInit, .crcFinal] s = .next t ∧
      t.responses.crc = s.responses.crc ++ [⟨.ok, none, none⟩, ⟨.ok, none, some crcInitial⟩] := by
  rw [execAll_cons_of_next (exec_crcInit s), execAll_cons_of_next (exec_crcFinal_of_written (respond_acc _ _ _))]
  exact ⟨_, rfl, by simp⟩

/-- The record of a CRC.BLOCK: the opcode, the count as a 16-bit little-endian number, the data (30_encoding.md R80). -/
theorem decode_crcBlock {data : List Byte} (hd : data.length ≤ maxBlock) :
    decode (0x03 :: BitVec.ofNat 8 data.length :: BitVec.ofNat 8 (data.length / 256) :: data) =
      .command (.crcBlock data) := by
  refine takeCB_eq_command.mpr ⟨_, _, data, rfl, ?_, rfl⟩
  rw [← loByte_ofNat, ← hiByte_ofNat, le16_loByte_hiByte, BitVec.toNat_ofNat, Nat.mod_eq_of_lt (Nat.lt_succ_of_le hd)]

/-- The sum of "1234", the first piece of the check string (40_checksum.md R105). -/
theorem crcOver_checkString_head : crcOver 0xFFFF [0x31, 0x32, 0x33, 0x34] = 0x8B13 := by decide +kernel

/-- The sum goes on over "56789". -/
theorem crcOver_checkString_tail : crcOver 0x8B13 [0x35, 0x36, 0x37, 0x38, 0x39] = 0x6F91 := by decide +kernel

/-- The sum of the check string is that of its two pieces. -/
theorem crcOver_checkString :
    crcOver 0xFFFF [0x31, 0x32, 0x33, 0x34, 0x35, 0x36, 0x37, 0x38, 0x39] = 0x6F91 := by
  rw [show ([0x31, 0x32, 0x33, 0x34, 0x35, 0x36, 0x37, 0x38, 0x39] : List Byte) =
    [0x31, 0x32, 0x33, 0x34] ++ [0x35, 0x36, 0x37, 0x38, 0x39] from rfl, crcOver_append, crcOver_checkString_head,
    crcOver_checkString_tail]

/-- Settles O7: each CRC.INIT writes 0xFFFF whatever ACC was. -/
theorem crcInitCommand : Obligations.CrcInitCommand := by
  refine ⟨rfl, fun s => ⟨exec_crcInit s, fun t h => ?_, execAll_crcInit_crcFinal s⟩⟩
  rw [execAll_cons_of_next (exec_crcInit s), execAll_cons_of_next (exec_crcInit _)] at h
  cases h
  rfl

/-- Settles O8: by whether ACC is written. -/
theorem crcByteCommand : Obligations.CrcByteCommand := by
  refine ⟨fun b s => ⟨rfl, fun h => exec_crcByte_of_unwritten h b, fun a h => exec_crcByte_of_written h b⟩, ?_⟩
  decide

/-- Settles O9: by whether ACC is written; the CRC.BYTE commands by induction on the data. -/
theorem crcBlockCommand : Obligations.CrcBlockCommand := by
  refine ⟨fun data s hd => ⟨decode_crcBlock hd, exec_crcBlock_of_unwritten hd, fun a h => ?_⟩,
    crcOver_checkString_head, crcOver_checkString_tail, crcOver_checkString⟩
  exact ⟨exec_crcBlock_of_written hd h, rfl, execAll_map_crcByte data h⟩

/-- Settles O10: by whether ACC is written; the example is CRC.OVER of the check string. -/
theorem crcFinalCommand : Obligations.CrcFinalCommand := by
  refine ⟨rfl, fun s => ⟨exec_crcFinal_of_unwritten, fun a h => exec_crcFinal_of_written h, execAll_crcInit_crcFinal s, ?_⟩⟩
  rw [← crcOver_checkString]
  exact execAll_crcOver (by decide) s

end Sys2Proof.Machine
end

section
/-! No operation but the CRC commands reads or writes ACC (spec/40_checksum.md R111): every other operation commutes with a change
of ACC. One lemma per operation, in the order in which the operations call each other. -/

namespace Sys2Proof.Machine

/-- The state with another ACC. -/
def setAcc (a : Option Word) (s : State) : State := { s with acc := a }

/-- A buffer decode of an operand longer than MAX_BUF (42_decoder.md R160). -/
theorem decodeBuffer_of_tooLong {buf : List Byte} {s : State} (h : s.cfg.maxBuf < buf.length) :
    decodeBuffer buf s = recordFault .badOperand s := if_pos h

section Commutes

variable (a : Option Word) (s : State)

@[simp] theorem lookup_setAcc (id : Byte) : lookup (setAcc a s) id = lookup s id := rfl

/-! ### Commands -/

theorem withinFormat_setAcc (limit : Nat) (data : List Byte) :
    withinFormat limit data (setAcc a s) = mapNext (setAcc a) (withinFormat limit data s) := by
  simp only [withinFormat, apply_ite (mapNext (setAcc a))]
  rfl

theorem whenDecoderIdle_setAcc (t : State) :
    whenDecoderIdle (setAcc a s) (setAcc a t) = setAcc a (whenDecoderIdle s t) :=
  (apply_ite (setAcc a) (s.decPhase = .idle) t (recordFault .busy s)).symm

theorem whenEncoderIdle_setAcc (t : State) :
    whenEncoderIdle (setAcc a s) (setAcc a t) = setAcc a (whenEncoderIdle s t) :=
  (apply_ite (setAcc a) (s.encPhase = .idle) t (recordFault .busy s)).symm

theorem changeRegistry_setAcc (ds new : List Byte) :
    changeRegistry ds new (setAcc a s) = setAcc a (changeRegistry ds new s) := by
  simp only [changeRegistry, apply_ite (setAcc a)]
  rfl

theorem execRegLookup_setAcc (id : Byte) : execRegLookup id (setAcc a s) = mapNext (setAcc a) (execRegLookup id s) := by
  simp only [execRegLookup, lookup_setAcc]
  split <;> rfl

/-- The verdict looks into the registry alone. -/
theorem concludeFrame_setAcc (crc : Word) (p : Packet) :
    concludeFrame crc p (setAcc a s) = setAcc a (concludeFrame crc p s) := by
  simp only [concludeFrame, lookup_setAcc]
  split <;> rfl

theorem answerBuffer_setAcc (v : BufferView) : answerBuffer v (setAcc a s) = setAcc a (answerBuffer v s) := by
  cases v with
  | invalidHeader => rfl
  | cut => rfl
  | whole crc p => exact concludeFrame_setAcc a s crc p

theorem decodeBuffer_setAcc (buf : List Byte) : decodeBuffer buf (setAcc a s) = setAcc a (decodeBuffer buf s) := by
  by_cases hmax : s.cfg.maxBuf < buf.length
  · rw [decodeBuffer_of_tooLong hmax]
    exact decodeBuffer_of_tooLong hmax
  · obtain ⟨v, hv⟩ := Option.ne_none_iff_exists'.mp (viewBuffer_ne_none buf)
    have hle : buf.length ≤ s.cfg.maxBuf := Nat.le_of_not_lt hmax
    rw [decodeBuffer_of_view hle hv, ← answerBuffer_setAcc]
    exact decodeBuffer_of_view hle hv

theorem startEncode_setAcc (sys comp msg : Byte) (payload : List Byte) :
    startEncode sys comp msg payload (setAcc a s) = setAcc a (startEncode sys comp msg payload s) := by
  simp only [startEncode, lookup_setAcc]
  split <;> rfl

/-- Every command but the four CRC commands. -/
theorem exec_setAcc {i : Instr} (hinit : i ≠ .crcInit) (hbyte : ∀ b, i ≠ .crcByte b) (hblock : ∀ data, i ≠ .crcBlock data)
    (hfinal : i ≠ .crcFinal) : exec i (setAcc a s) = mapNext (setAcc a) (exec i s) := by
  cases i with
  | crcInit => exact absurd rfl hinit
  | crcByte b => exact absurd rfl (hbyte b)
  | crcBlock data => exact absurd rfl (hblock data)
  | crcFinal => exact absurd rfl hfinal
  | regNew ds => simp only [exec, execRegNew, changeRegistry_setAcc, withinFormat_setAcc]
  | regRegister d => exact congrArg _ (changeRegistry_setAcc a s [d] (s.regList ++ [d]))
  | regLookup id => exact execRegLookup_setAcc a s id
  | decDecode => exact congrArg _ (whenDecoderIdle_setAcc a s (startDecode s))
  | decDecodeBuf buf =>
    simp only [exec, execDecDecodeBuf, decodeBuffer_setAcc, whenDecoderIdle_setAcc, withinFormat_setAcc]
  | decSeq => exact congrArg _ (whenDecoderIdle_setAcc a s (complete .decoder none (some (zext16 s.decSeq)) s))
  | encPacket q sys comp msg payload =>
    simp only [exec, execEncPacket, startEncode_setAcc, whenEncoderIdle_setAcc, withinFormat_setAcc]
  | encSeq => exact congrArg _ (whenEncoderIdle_setAcc a s (complete .encoder none (some (zext16 s.encSeq)) s))

/-! ### The decoder's turn -/

theorem readSymbol_setAcc {use : Symbol → State → Host.Outcome State Fault Refusal}
    (huse : ∀ x t, use x (setAcc a t) = mapNext (setAcc a) (use x t)) :
    readSymbol use (setAcc a s) = mapNext (setAcc a) (readSymbol use s) := by
  cases hsrc : s.src with
  | nil => rw [readSymbol_nil hsrc]; exact readSymbol_nil hsrc
  | cons x rest => rw [readSymbol_cons hsrc, ← huse]; exact readSymbol_cons hsrc

theorem seekStep_setAcc (x : Symbol) : seekStep x (setAcc a s) = setAcc a (seekStep x s) := by
  cases x with
  | byte b =>
    simp only [seekStep, apply_ite (setAcc a)]
    rfl
  | endOfSource => rfl
  | err e => rfl

theorem headerStep_setAcc (k : Fin 5) (x : Symbol) : headerStep k x (setAcc a s) = setAcc a (headerStep k x s) := by
  cases x <;> rfl

theorem bodyByte_setAcc (i l : Nat) (b : Byte) :
    bodyByte i l b (setAcc a s) = mapNext (setAcc a) (bodyByte i l b s) := by
  simp only [bodyByte, apply_ite (mapNext (setAcc a))]
  rfl

theorem bodyCut_setAcc (st : Status) : bodyCut st (setAcc a s) = mapNext (setAcc a) (bodyCut st s) := by
  dsimp only [bodyCut, setAcc]
  split <;> rfl

theorem bodyStep_setAcc (i : Nat) (x : Symbol) : bodyStep i x (setAcc a s) = mapNext (setAcc a) (bodyStep i x s) := by
  cases x with
  | byte b =>
    dsimp only [bodyStep, setAcc]
    split
    · exact bodyByte_setAcc a s i _ b
    · rfl
  | endOfSource => exact bodyCut_setAcc a s .truncated
  | err e => exact bodyCut_setAcc a s (.ioError e)

theorem verifyStep_setAcc : verifyStep (setAcc a s) = mapNext (setAcc a) (verifyStep s) := by
  dsimp only [verifyStep, setAcc]
  split
  · exact congrArg _ (concludeFrame_setAcc a s s.decCrc _)
  · rfl

theorem decoderTurn_setAcc : decoderTurn (setAcc a s) = mapNext (setAcc a) (decoderTurn s) := by
  dsimp only [decoderTurn, setAcc]
  split
  · rfl
  · exact readSymbol_setAcc a s fun x t => congrArg _ (seekStep_setAcc a t x)
  · exact readSymbol_setAcc a s fun x t => congrArg _ (headerStep_setAcc a t _ x)
  · exact readSymbol_setAcc a s fun x t => bodyStep_setAcc a t _ x
  · exact verifyStep_setAcc a s

/-! ### The sink's answer -/

theorem flushAccepted_setAcc (k : Nat) : flushAccepted k (setAcc a s) = setAcc a (flushAccepted k s) := by
  simp only [flushAccepted, apply_ite (setAcc a)]
  rfl

theorem sinkAnswer_setAcc (x : Answer) : sinkAnswer x (setAcc a s) = mapNext (setAcc a) (sinkAnswer x s) := by
  dsimp only [sinkAnswer, setAcc]
  split
  · rfl
  · cases x with
    | accepted k =>
      dsimp only
      split
      · exact congrArg _ (flushAccepted_setAcc a s k)
      · rfl
    | err e => rfl

end Commutes

/-- Settles O57: every operation outside the CRC unit commutes with a change of ACC. -/
theorem accumulatorIsOnlyForCrcCommands : Obligations.AccumulatorIsOnlyForCrcCommands :=
  fun s a => ⟨fun _ => exec_setAcc a s, decoderTurn_setAcc a s, sinkAnswer_setAcc a s⟩

end Sys2Proof.Machine
end

section
/-! Lookup in a resolution order (spec/41_registry.md R124, R126): it is the library's search for the first list entry that gives a
value, so a dialect behind one of its own copies is never reached. -/

namespace Sys2Proof.Machine

/-- The crc-extra that the dialect at index `d` has for the id; an index with no dialect defines nothing (log entry 19). -/
def crcExtraAt (ds : List Dialect) (id d : Byte) : Option Byte := (ds[d.toNat]?).bind fun t => t.lookup id

theorem crcExtraAt_eq_some_iff {ds : List Dialect} {id d x : Byte} :
    crcExtraAt ds id d = some x ↔ ∃ t, ds[d.toNat]? = some t ∧ t.lookup id = some x := Option.bind_eq_some_iff

theorem crcExtraAt_eq_none_iff {ds : List Dialect} {id d : Byte} :
    crcExtraAt ds id d = none ↔ ∀ t, ds[d.toNat]? = some t → t.lookup id = none := Option.bind_eq_none_iff

theorem lookupIn_eq_findSome? (ds : List Dialect) (l : List Byte) (id : Byte) :
    lookupIn ds l id = l.findSome? (crcExtraAt ds id) := by
  induction l with
  | nil => rfl
  | cons d l ih =>
    rw [lookupIn_cons, ih, List.findSome?_cons, ← crcExtraAt]
    cases crcExtraAt ds id d <;> rfl

/-- Found: the order splits at the first dialect that defines the id. -/
theorem lookupIn_eq_some_iff {ds : List Dialect} {l : List Byte} {id x : Byte} :
    lookupIn ds l id = some x ↔
      ∃ before d after, l = before ++ d :: after ∧ crcExtraAt ds id d = some x ∧
        ∀ e ∈ before, crcExtraAt ds id e = none := by
  rw [lookupIn_eq_findSome?, List.findSome?_eq_some_iff]

/-- NotFound: no dialect of the order defines the id. -/
theorem lookupIn_eq_none_iff {ds : List Dialect} {l : List Byte} {id : Byte} :
    lookupIn ds l id = none ↔ ∀ d ∈ l, crcExtraAt ds id d = none := by
  rw [lookupIn_eq_findSome?, List.findSome?_eq_none_iff]

/-- A dialect appended to an order cannot override what the order defines. -/
theorem lookupIn_append_of_some {ds : List Dialect} {l : List Byte} {id x : Byte} (h : lookupIn ds l id = some x)
    (m : List Byte) : lookupIn ds (l ++ m) id = some x := by
  rw [lookupIn_append, h, Option.some_or]

/-- Where the order defines nothing, what is appended decides. -/
theorem lookupIn_append_of_none {ds : List Dialect} {l : List Byte} {id : Byte} (h : lookupIn ds l id = none)
    (m : List Byte) : lookupIn ds (l ++ m) id = lookupIn ds m id := by
  rw [lookupIn_append, h, Option.none_or]

/-- A dialect that is already in the order changes no lookup at its end. -/
theorem lookupIn_concat_of_mem (ds : List Dialect) {l : List Byte} {d : Byte} (hd : d ∈ l) (id : Byte) :
    lookupIn ds (l ++ [d]) id = lookupIn ds l id := by
  cases h : lookupIn ds l id with
  | some x => exact lookupIn_append_of_some h [d]
  | none =>
    rw [lookupIn_append_of_none h, lookupIn_eq_none_iff]
    simpa using lookupIn_eq_none_iff.1 h d hd

/-- A last entry that is a copy goes away with the copies. -/
theorem eraseDups_concat_of_mem {l : List Byte} {d : Byte} (hd : d ∈ l) : (l ++ [d]).eraseDups = l.eraseDups := by
  simp [List.eraseDups_append, List.removeAll, hd]

/-- A last entry that is not a copy stays last. -/
theorem eraseDups_concat_of_not_mem {l : List Byte} {d : Byte} (hd : d ∉ l) :
    (l ++ [d]).eraseDups = l.eraseDups ++ [d] := by
  simp [List.eraseDups_append, List.removeAll, hd, List.eraseDups_cons]

/-- Later copies change no lookup: by induction on the order from its end, where only the last entry can be a copy. -/
theorem lookupIn_eraseDups (ds : List Dialect) (l : List Byte) (id : Byte) :
    lookupIn ds l.eraseDups id = lookupIn ds l id := by
  induction l using List.reverseRecOn with
  | nil => rfl
  | append_singleton l d ih =>
    by_cases hd : d ∈ l
    · rw [eraseDups_concat_of_mem hd, ih, lookupIn_concat_of_mem ds hd]
    · rw [eraseDups_concat_of_not_mem hd, lookupIn_append, ih, lookupIn_append]

/-- Settles O19: Lookup is a search for the first entry with a value, and an entry's value is its dialect's. The order's
indices need not exist for this. -/
theorem lookupIsFirstMatch : Obligations.LookupIsFirstMatch := by
  refine fun s id _ => ⟨fun x => lookupIn_eq_some_iff.trans ⟨?_, ?_⟩, ?_⟩
  · rintro ⟨before, d, after, hl, hd, hbefore⟩
    obtain ⟨t, ht, hx⟩ := crcExtraAt_eq_some_iff.1 hd
    exact ⟨before, d, after, t, hl, ht, hx, fun e he => crcExtraAt_eq_none_iff.1 (hbefore e he)⟩
  · rintro ⟨before, d, after, t, hl, ht, hx, hbefore⟩
    exact ⟨before, d, after, hl, crcExtraAt_eq_some_iff.2 ⟨t, ht, hx⟩,
      fun e he => crcExtraAt_eq_none_iff.2 (hbefore e he)⟩
  · exact lookupIn_eq_none_iff.trans (forall₂_congr fun _ _ => crcExtraAt_eq_none_iff)

/-- Settles O20: the copies by induction on the order, the appended dialect by what the order defines. -/
theorem repeatedDialectsChangeNoLookup : Obligations.RepeatedDialectsChangeNoLookup := by
  refine fun s id => ⟨(lookupIn_eraseDups s.cfg.dialects s.regList id).symm, fun d => ?_⟩
  cases h : lookup s id with
  | some x => exact lookupIn_append_of_some h [d]
  | none => exact lookupIn_append_of_none h [d]

end Sys2Proof.Machine
end

section
/-! The three registry commands (spec/41_registry.md R121, R123, R125): the two that change REG_LIST in each of their three cases,
REG.LOOKUP in its two. -/

namespace Sys2Proof.Machine

/-! ### A change of REG_LIST -/

theorem changeRegistry_of_busy (ds new : List Byte) {s : State} (h : s.decPhase ≠ .idle ∨ s.encPhase ≠ .idle) :
    changeRegistry ds new s = recordFault .registryRace s := by
  obtain ⟨-, hs⟩ | ⟨hd, he, -⟩ | ⟨hd, he, -⟩ := changeRegistry_cases ds new s
  · exact hs
  · exact absurd h (by simp [hd, he])
  · exact absurd h (by simp [hd, he])

theorem changeRegistry_of_badDialect {ds : List Byte} (new : List Byte) {s : State} (hdec : s.decPhase = .idle)
    (henc : s.encPhase = .idle) (h : ∃ d ∈ ds, s.cfg.numDialects ≤ d.toNat) :
    changeRegistry ds new s = recordFault .badDialect s := by
  obtain ⟨hbusy, -⟩ | ⟨-, -, hall, -⟩ | ⟨-, -, -, hs⟩ := changeRegistry_cases ds new s
  · exact absurd hbusy (by simp [hdec, henc])
  · obtain ⟨d, hd, hle⟩ := h
    exact absurd (hall d hd) (Nat.not_lt_of_le hle)
  · exact hs

theorem changeRegistry_of_dialects {ds : List Byte} (new : List Byte) {s : State} (hdec : s.decPhase = .idle)
    (henc : s.encPhase = .idle) (h : ∀ d ∈ ds, d.toNat < s.cfg.numDialects) :
    changeRegistry ds new s = respond .registry ⟨.ok, none, none⟩ { s with regList := new } := by
  obtain ⟨hbusy, -⟩ | ⟨-, -, -, hs⟩ | ⟨-, -, ⟨d, hd, hle⟩, -⟩ := changeRegistry_cases ds new s
  · exact absurd hbusy (by simp [hdec, henc])
  · exact hs
  · exact absurd (h d hd) (Nat.not_lt_of_le hle)

/-! ### The commands -/

/-- The record of a REG.NEW: the opcode, the count, the indices (30_encoding.md R80). -/
theorem decode_regNew {ds : List Byte} (h : ds.length ≤ maxDialectList) :
    decode (0x10 :: BitVec.ofNat 8 ds.length :: ds) = .command (.regNew ds) := by
  refine takeCN_eq_command.mpr ⟨_, ds, rfl, ?_, rfl⟩
  rw [BitVec.toNat_ofNat, Nat.mod_eq_of_lt (Nat.lt_succ_of_le h)]

theorem exec_regNew {ds : List Byte} (h : ds.length ≤ maxDialectList) (s : State) :
    exec (.regNew ds) s = .next (changeRegistry ds ds s) := withinFormat_of_le h

theorem exec_regRegister (d : Byte) (s : State) :
    exec (.regRegister d) s = .next (changeRegistry [d] (s.regList ++ [d]) s) := rfl

theorem exec_regLookup_of_found {s : State} {id x : Byte} (h : lookup s id = some x) :
    exec (.regLookup id) s = .next (respond .registry ⟨.ok, none, some (zext16 x)⟩ s) := by
  simp only [exec, execRegLookup, h, complete_eq_respond]

theorem exec_regLookup_of_notFound {s : State} {id : Byte} (h : lookup s id = none) :
    exec (.regLookup id) s = .next (respond .registry ⟨.unknownMessage, none, none⟩ s) := by
  simp only [exec, execRegLookup, h, raise_eq_respond]

/-- Settles O16: by the three cases of a registry change. -/
theorem regNewCommand : Obligations.RegNewCommand := by
  refine fun ds s hlen => ⟨decode_regNew hlen, ?_⟩
  rw [exec_regNew hlen]
  refine ⟨fun hbusy => congrArg _ (changeRegistry_of_busy ds ds hbusy), fun hdec henc => ⟨fun hbad => ?_, fun hall => ?_⟩,
    fun id => lookupIn_nil s.cfg.dialects id, fun _ _ => rfl, fun hc => ?_⟩
  · exact congrArg _ (changeRegistry_of_badDialect ds hdec henc hbad)
  · exact congrArg _ (changeRegistry_of_dialects ds hdec henc hall)
  · simp only [lookup, hc]
    decide

/-- Settles O17: by the three cases of a registry change; the lookups by what the order defines before the appended dialect. -/
theorem regRegisterCommand : Obligations.RegRegisterCommand := by
  refine fun d s => ⟨rfl, ?_⟩
  rw [exec_regRegister]
  refine ⟨fun hbusy => congrArg _ (changeRegistry_of_busy _ _ hbusy), fun hdec henc => ⟨fun hbad => ?_, fun hlt => ?_⟩,
    fun id x hx => lookupIn_append_of_some hx [d], fun hd id => lookupIn_concat_of_mem s.cfg.dialects hd id, fun hc => ?_⟩
  · exact congrArg _ (changeRegistry_of_badDialect _ hdec henc ⟨d, List.mem_singleton_self d, hbad⟩)
  · exact congrArg _ (changeRegistry_of_dialects _ hdec henc (List.forall_mem_singleton.2 hlt))
  · simp only [lookup, hc]
    decide

/-- Settles O18: by whether the id is found. -/
theorem regLookupCommand : Obligations.RegLookupCommand := by
  refine fun id s => ⟨rfl, fun x => exec_regLookup_of_found, exec_regLookup_of_notFound, fun hr => ?_, fun hc hr => ?_⟩
  · rw [lookup, hr, lookupIn_nil]
  · simp only [lookup, hc, hr]
    decide

end Sys2Proof.Machine
end

section
/-! The decoder's turn in each of its phases (spec/42_decoder.md R142 to R153): what it does with the first symbol of SRC, and the
verdict on a frame that is written whole. -/

namespace Sys2Proof.Machine

/-! ### The step that DEC_PHASE names (10_state.md R26) -/

theorem decoderTurn_of_seeking {s : State} {x : Symbol} {rest : List Symbol} (hp : s.decPhase = .seeking)
    (hs : s.src = x :: rest) : decoderTurn s = .next (seekStep x { s with src := rest }) := by
  simp only [decoderTurn, hp, readSymbol_cons hs]

theorem decoderTurn_of_header {s : State} {k : Fin 5} {x : Symbol} {rest : List Symbol} (hp : s.decPhase = .header k)
    (hs : s.src = x :: rest) : decoderTurn s = .next (headerStep k x { s with src := rest }) := by
  simp only [decoderTurn, hp, readSymbol_cons hs]

theorem decoderTurn_of_body {s : State} {i : Nat} {x : Symbol} {rest : List Symbol} (hp : s.decPhase = .body i)
    (hs : s.src = x :: rest) : decoderTurn s = bodyStep i x { s with src := rest } := by
  simp only [decoderTurn, hp, readSymbol_cons hs]

theorem decoderTurn_of_verify {s : State} {p : Packet} (hp : s.decPhase = .verify)
    (hpk : packetOf s.decHdr s.decPay s.decCk = some p) : decoderTurn s = .next (concludeFrame s.decCrc p s) := by
  simp only [decoderTurn, hp, verifyStep, hpk]

/-! ### SEEKING -/

theorem seekStep_of_ne_marker {b : Byte} (h : b ≠ startMarker) (s : State) : seekStep (.byte b) s = s := if_neg h

theorem seekStep_marker (s : State) :
    seekStep (.byte startMarker) s = { s with decCrc := crcInitial, decPhase := .header 0 } := by
  simp [seekStep]

/-- Settles O24: by the symbol read, a byte by whether it is the marker. -/
theorem seekingStep : Obligations.SeekingStep := by
  intro s rest hp
  refine ⟨fun b hb hs => ?_, fun hs => ?_, fun hs => ?_, fun e hs => ?_⟩ <;> rw [decoderTurn_of_seeking hp hs]
  · rw [seekStep_of_ne_marker hb]
  · rw [seekStep_marker]
    rfl
  · rfl
  · rfl

/-! ### HEADER(k) -/

/-- Settles O25: the phase after HEADER(k) is the model's own, HEADER(k + 1) for k < 4. -/
theorem headerByteStep : Obligations.HeaderByteStep := by
  intro s k b rest hp hs
  refine ⟨_, fun j hj => ?_, fun hk => ?_, decoderTurn_of_header hp hs⟩
  · have hlt : k.val < 4 := by omega
    rw [dif_pos hlt]
    exact congrArg _ (Fin.ext hj)
  · exact dif_neg (by omega)

/-- Settles O26: End and Err take one free value, the diagnostic. -/
theorem headerCutStep : Obligations.HeaderCutStep := fun _ _ _ hp =>
  ⟨fun hs => ⟨_, _, decoderTurn_of_header hp hs⟩, fun _ hs => ⟨_, _, decoderTurn_of_header hp hs⟩⟩

/-! ### BODY(i) -/

theorem bodyStep_byte_of_length {s : State} {l : Byte} (hl : s.decHdr[0] = some l) (i : Nat) (b : Byte) :
    bodyStep i (.byte b) s = bodyByte i l.toNat b s := by
  simp only [bodyStep, hl]

theorem decoderTurn_of_body_byte {s : State} {i : Nat} {l b : Byte} {rest : List Symbol} (hp : s.decPhase = .body i)
    (hl : s.decHdr[0] = some l) (hs : s.src = .byte b :: rest) :
    decoderTurn s = bodyByte i l.toNat b { s with src := rest } :=
  (decoderTurn_of_body hp hs).trans (bodyStep_byte_of_length (s := { s with src := rest }) hl i b)

/-- A write inside the file's bounds. -/
theorem setIfInBounds_of_lt {α : Type} {n i : Nat} (v : Vector α n) (a : α) (h : i < n) :
    v.setIfInBounds i a = v.set i a h := by
  ext j hj
  rw [Vector.getElem_setIfInBounds, Vector.getElem_set]

theorem bodyByte_payload {i l : Nat} (h : i < l) (hi : i < 255) (b : Byte) (s : State) :
    bodyByte i l b s = .next { s with
      decPay := s.decPay.set i (some b) hi, decCrc := crcStep s.decCrc b, decPhase := .body (i + 1) } := by
  rw [bodyByte, if_pos h, setIfInBounds_of_lt _ _ hi]

theorem bodyByte_low (l : Nat) (b : Byte) (s : State) :
    bodyByte l l b s = .next { s with decCk := s.decCk.set 0 (some b), decPhase := .body (l + 1) } := by
  simp [bodyByte]

theorem bodyByte_high (l : Nat) (b : Byte) (s : State) :
    bodyByte (l + 1) l b s = .next { s with decCk := s.decCk.set 1 (some b), decPhase := .verify } := by
  simp [bodyByte]

/-- Settles O27: by where i stands to L. -/
theorem bodyByteStep : Obligations.BodyByteStep := by
  intro s i l b rest hp hl hs
  rw [decoderTurn_of_body_byte hp hl hs]
  refine ⟨fun hi => bodyByte_payload hi _ b _, ?_, ?_⟩
  · rintro rfl
    exact bodyByte_low l.toNat b _
  · rintro rfl
    exact bodyByte_high l.toNat b _

theorem bodyCut_of_header {s : State} {seq sys comp msg : Byte} (h1 : s.decHdr[1] = some seq) (h2 : s.decHdr[2] = some sys)
    (h3 : s.decHdr[3] = some comp) (h4 : s.decHdr[4] = some msg) (st : Status) :
    bodyCut st s = .next (abortDecode st (some (freeBodyDiagnostic seq sys comp msg s)) (drawn s)) := by
  simp only [bodyCut, h1, h2, h3, h4]

/-- Settles O28: End and Err take one free value, the payload and checksum of the packet. -/
theorem bodyCutStep : Obligations.BodyCutStep := by
  intro s i seq sys comp msg rest hp h1 h2 h3 h4
  have hcut := bodyCut_of_header (s := { s with src := rest }) h1 h2 h3 h4
  exact ⟨fun hs => ⟨_, _, _, (decoderTurn_of_body hp hs).trans (hcut .truncated)⟩,
    fun e hs => ⟨_, _, _, (decoderTurn_of_body hp hs).trans (hcut (.ioError e))⟩⟩

/-! ### VERIFY -/

theorem concludeFrame_of_unknown {p : Packet} {s : State} (h : lookup s p.messageId = none) (crc : Word) :
    concludeFrame crc p s = respond .decoder ⟨.unknownMessage, some p, none⟩ { s with decPhase := .idle } := by
  simp [concludeFrame, frameStatus, h]

theorem concludeFrame_of_mismatch {p : Packet} {s : State} {crc : Word} {x : Byte} (h : lookup s p.messageId = some x)
    (hc : crcStep crc x ≠ p.checksum) :
    concludeFrame crc p s = respond .decoder ⟨.checksumMismatch, some p, none⟩ { s with decPhase := .idle } := by
  simp [concludeFrame, frameStatus, h, hc]

theorem concludeFrame_of_match {p : Packet} {s : State} {crc : Word} {x : Byte} (h : lookup s p.messageId = some x)
    (hc : crcStep crc x = p.checksum) :
    concludeFrame crc p s =
      respond .decoder ⟨.ok, some p, none⟩ { s with decPhase := .idle, decSeq := p.sequenceId } := by
  simp [concludeFrame, frameStatus, h, hc]

/-- Registers that hold a list's bytes one by one hold it as a run. -/
theorem toList_take_eq_map_some {n : Nat} {v : Vector (Option Byte) n} {bs : List Byte}
    (h : ∀ j, (hj : j < bs.length) → v[j]? = some (some bs[j])) : v.toList.take bs.length = bs.map some := by
  refine List.ext_getElem? fun j => ?_
  rw [List.getElem?_take, List.getElem?_map]
  by_cases hj : j < bs.length
  · rw [if_pos hj, Vector.getElem?_toList, h j hj, List.getElem?_eq_getElem hj, Option.map_some]
  · rw [if_neg hj, List.getElem?_eq_none (Nat.le_of_not_lt hj), Option.map_none]

/-- A file written up to `k` holds exactly the run of its first `k` values. -/
theorem writtenValues_of_take {n : Nat} {v : Vector (Option Byte) n} {bs : List Byte} (hn : bs.length ≤ n)
    (hw : writtenTo bs.length v) (h : v.toList.take bs.length = bs.map some) : writtenValues v = bs := by
  obtain ⟨cs, hlen, hv⟩ := writtenTo_toList hn hw
  rw [hv, ← hlen, List.take_left' (List.length_map _)] at h
  rw [writtenValues_eq hv]
  exact List.map_injective_iff.2 (Option.some_injective _) h

/-- DEC_CRC of a whole frame under the decoder's invariant: the sum of its five header bytes and its payload. -/
theorem decCrc_of_decoderInv_verify {s : State} {l seq sys comp msg : Byte} {payload : List Byte} (hinv : decoderInv s)
    (hp : s.decPhase = .verify) (hhdr : s.decHdr = #v[some l, some seq, some sys, some comp, some msg])
    (hlen : payload.length = l.toNat) (hpay : s.decPay.toList.take payload.length = payload.map some) :
    s.decCrc = crcOver crcInitial ([l, seq, sys, comp, msg] ++ payload) := by
  simp only [decoderInv, hp] at hinv
  obtain ⟨-, hwritten, -, hsum⟩ := hinv
  rw [declaredLength_eq (l := l) (by rw [hhdr]; rfl), ← hlen] at hwritten
  have hle : payload.length ≤ 255 := by have := l.isLt; omega
  rw [runningSum, hhdr, writtenValues_of_take hle hwritten hpay] at hsum
  exact hsum

/-- Settles O29: the written registers are the Packet, and the verdict on it has three cases. -/
theorem verifyStep_holds : Obligations.VerifyStep := by
  rintro s l _ _ _ _ lo hi ⟨seq, sys, comp, msg, payload, _⟩ hp hhdr hck hlen hregs rfl rfl rfl rfl rfl
  have hpay := toList_take_eq_map_some hregs
  have hpk : packetOf s.decHdr s.decPay s.decCk = some ⟨seq, sys, comp, msg, payload, le16 lo hi⟩ := by
    rw [hhdr, hck, packetOf_eq (hlen ▸ hpay), payloadOf_bytes]
  rw [decoderTurn_of_verify hp hpk]
  refine ⟨fun hnone => ?_, fun x hx hne => ?_, fun x hx heq => ?_, fun hinv => ?_⟩
  · exact congrArg _ (concludeFrame_of_unknown hnone s.decCrc)
  · exact congrArg _ (concludeFrame_of_mismatch hx hne)
  · exact congrArg _ (concludeFrame_of_match hx heq)
  · exact decCrc_of_decoderInv_verify hinv hp hhdr hlen hpay

end Sys2Proof.Machine
end

section
/-! Buffer decode and stream decode of a whole frame (spec/42_decoder.md R160 to R166, R171), DEC.SEQ and what DEC_SEQ is before any
successful decode (R170). -/

namespace Sys2Proof.Machine

/-! ### DEC.DECODE_BUF of a whole frame -/

theorem exec_decDecodeBuf_of_idle {s : State} {buf : List Byte} (hd : s.decPhase = .idle) (hlen : buf.length ≤ maxBlock) :
    exec (.decDecodeBuf buf) s = .next (decodeBuffer buf s) :=
  (withinFormat_of_le hlen).trans (congrArg _ (whenDecoderIdle_idle hd _))

/-- A whole frame of at most MAX_BUF bytes gets the verdict on its Packet and the sum of its bytes 1 to 5 + L. -/
theorem exec_decDecodeBuf_whole {s : State} {l seq sys comp msg lo hi : Byte} {payload : List Byte}
    (hd : s.decPhase = .idle) (hlen : payload.length = l.toNat) (hmax : 8 + l.toNat ≤ s.cfg.maxBuf) :
    exec (.decDecodeBuf (startMarker :: l :: seq :: sys :: comp :: msg :: (payload ++ [lo, hi]))) s =
      .next (concludeFrame (crcOver crcInitial (l :: seq :: sys :: comp :: msg :: payload))
        ⟨seq, sys, comp, msg, payloadOf payload, le16 lo hi⟩ (startBuffer s)) := by
  have hbuf : (startMarker :: l :: seq :: sys :: comp :: msg :: (payload ++ [lo, hi])).length = 8 + l.toNat := by
    simp [hlen]; omega
  have hfits : 8 + l.toNat ≤ 65535 := by have := l.isLt; omega
  rw [exec_decDecodeBuf_of_idle hd (hbuf ▸ hfits), decodeBuffer_of_view (hbuf ▸ hmax) (viewBuffer_whole hlen)]
  rfl

/-- Settles O37: both decoders see the whole frame and look its id up before they compare sums. -/
theorem unknownMessageWhateverTheChecksum : Obligations.UnknownMessageWhateverTheChecksum := by
  intro s l seq sys comp msg lo hi payload hd hlen hmax hnone
  refine ⟨⟨_, ⟨seq, sys, comp, msg, payloadOf payload, le16 lo hi⟩, exec_decDecodeBuf_whole hd hlen hmax, ?_⟩,
    fun after => ⟨⟨seq, sys, comp, msg, payloadOf payload, le16 lo hi⟩, ?_, rfl, rfl, rfl, rfl⟩⟩
  · rw [concludeFrame_of_unknown ((lookup_startBuffer s msg).trans hnone)]
    exact ⟨rfl, rfl, rfl, rfl, rfl, rfl⟩
  · exact (decodeStream_whole (lookup s) hlen after).trans (by rw [hnone]; rfl)

/-! ### DEC.SEQ -/

theorem exec_decSeq_of_idle {s : State} (hd : s.decPhase = .idle) :
    exec .decSeq s = .next (respond .decoder ⟨.ok, none, some (zext16 s.decSeq)⟩ s) :=
  congrArg _ (whenDecoderIdle_idle hd _)

theorem exec_decSeq_of_busy {s : State} (hd : s.decPhase ≠ .idle) : exec .decSeq s = .next (recordFault .busy s) :=
  congrArg _ (whenDecoderIdle_busy hd _)

/-! ### The decoder's responses stay: each kind of move leaves them or adds one at the end -/

theorem concludeFrame_decoderResponses_prefix (crc : Word) (p : Packet) (s : State) :
    s.responses.decoder <+: (concludeFrame crc p s).responses.decoder := by
  obtain ⟨-, h⟩ | ⟨_, -, -, h⟩ | ⟨_, -, -, h⟩ := concludeFrame_cases crc p s <;> rw [h] <;> exact List.prefix_append _ _

theorem CommandEffect.decoderResponses_prefix {s t : State} (h : CommandEffect s t) :
    s.responses.decoder <+: t.responses.decoder := by
  cases h with
  | bufferWhole _ crc p => exact concludeFrame_decoderResponses_prefix crc p (startBuffer s)
  | decSeq | bufferInvalid | bufferCut => exact List.prefix_append _ _
  | _ => exact List.prefix_rfl

theorem TurnEffect.decoderResponses_prefix {s t : State} (h : TurnEffect s t) :
    s.responses.decoder <+: t.responses.decoder := by
  cases h with
  | verify p => exact concludeFrame_decoderResponses_prefix s.decCrc p s
  | seekEnd | cut => exact List.prefix_append _ _
  | _ => exact List.prefix_rfl

theorem takeMove_decoderResponses_prefix {m : Move} {s t : State} (h : takeMove m s = .next t) :
    s.responses.decoder <+: t.responses.decoder := by
  cases m with
  | command record =>
    obtain ⟨i, -, hi⟩ | ⟨op, -, rfl⟩ := issueRecord_eq_next h
    · exact (exec_effect hi).decoderResponses_prefix
    · exact List.prefix_rfl
  | source x => cases h; exact List.prefix_rfl
  | answer a =>
    obtain ⟨-, ⟨-, rfl⟩ | ⟨k, -, -, rfl⟩ | ⟨e, -, rfl⟩⟩ := sinkAnswer_eq_next h <;> exact List.prefix_rfl
  | decoder => exact (decoderTurn_effect h).decoderResponses_prefix

theorem step_decoderResponses_prefix {s t : State} (h : step s = .next t) :
    s.responses.decoder <+: t.responses.decoder := by
  obtain ⟨-, hturn⟩ | ⟨m, ms, -, hmove⟩ := step_cases h
  · exact (decoderTurn_effect hturn).decoderResponses_prefix
  · exact (takeMove_decoderResponses_prefix hmove :)

/-- A step that gives DEC_SEQ another value brings an OK response with a Packet, and earlier ones stay on the port. -/
theorem step_decSeqInv {s t : State} (hinv : decSeqInv s) (h : step s = .next t) : decSeqInv t := by
  intro hnone
  have hseq : t.decSeq = s.decSeq := by
    by_contra hne
    obtain ⟨p, hr, -⟩ := (step_countersFollowOk h).decSeq hne
    have hmem : (⟨.ok, some p, none⟩ : Response) ∈ t.responses.decoder := by simp [hr, Responses.withDecoder]
    exact absurd (hnone _ hmem rfl) (Option.some_ne_none p)
  rw [hseq, step_cfg h]
  exact hinv fun r hr => hnone r ((step_decoderResponses_prefix h).subset hr)

/-! ### The example of R160 -/

/-- The example frame's sum with the crc-extra 0x32. -/
theorem crcStep_exampleFrame : crcStep (crcOver crcInitial [0x00, 0x00, 0x01, 0x01, 0x00]) 0x32 = le16 0x86 0x5C := by
  decide +kernel

theorem exec_decDecodeBuf_exampleFrame {s : State} (hd : s.decPhase = .idle) (hmax : 8 ≤ s.cfg.maxBuf)
    (hx : lookup s 0 = some 0x32) :
    exec (.decDecodeBuf [0xFE, 0x00, 0x00, 0x01, 0x01, 0x00, 0x86, 0x5C]) s =
      .next (respond .decoder ⟨.ok, some ⟨0x00, 0x01, 0x01, 0x00, payloadOf [], le16 0x86 0x5C⟩, none⟩
        { startBuffer s with decPhase := .idle, decSeq := 0x00 }) :=
  (exec_decDecodeBuf_whole (l := 0x00) (payload := []) hd rfl hmax).trans
    (congrArg _ (concludeFrame_of_match ((lookup_startBuffer s _).trans hx) crcStep_exampleFrame))

theorem execAll_exampleFrame_decSeq {s : State} (hd : s.decPhase = .idle) (hmax : 8 ≤ s.cfg.maxBuf)
    (hx : lookup s 0 = some 0x32) :
    ∃ t r, execAll [.decDecodeBuf [0xFE, 0x00, 0x00, 0x01, 0x01, 0x00, 0x86, 0x5C], .decSeq] s = .next t ∧
      t.responses.decoder = s.responses.decoder ++ [r, ⟨.ok, none, some 0x0000⟩] := by
  rw [execAll_cons_of_next (exec_decDecodeBuf_exampleFrame hd hmax hx), execAll_cons_of_next (exec_decSeq_of_idle rfl)]
  exact ⟨_, ⟨.ok, some ⟨0x00, 0x01, 0x01, 0x00, payloadOf [], le16 0x86 0x5C⟩, none⟩, rfl, by simp [zext16]⟩

/-- Settles O32: by whether the decoder is idle; DEC_SEQ before any successful decode by the invariant that each step keeps. -/
theorem decSeqCommand : Obligations.DecSeqCommand := by
  refine ⟨rfl, fun s => ⟨exec_decSeq_of_busy, exec_decSeq_of_idle⟩, ⟨_, exec_decSeq_of_idle rfl, rfl⟩, fun _ => rfl,
    fun s t => step_decSeqInv, fun s hinv hnone hd => ?_, fun s => execAll_exampleFrame_decSeq⟩
  rw [← hinv hnone]
  exact exec_decSeq_of_idle hd

end Sys2Proof.Machine
end

section
/-! The encoder (spec/43_encoder.md): ENC.PACKET and ENC.SEQ on an idle and on a busy encoder (R190, R192, R200), the sink's answer to
a pending request (R195, R197, R198), and what ENC_SEQ is before any encode (R200). -/

namespace Sys2Proof.Machine

/-! ### ENC.PACKET -/

/-- The record of an ENC.PACKET: the opcode, the count, four header bytes, the payload (30_encoding.md R80). -/
theorem decode_encPacket {payload : List Byte} (h : payload.length ≤ maxPayload) (seqIn sys comp msg : Byte) :
    decode (0x30 :: BitVec.ofNat 8 payload.length :: seqIn :: sys :: comp :: msg :: payload) =
      .command (.encPacket seqIn sys comp msg payload) := by
  refine takeCP_eq_command.mpr ⟨_, seqIn, sys, comp, msg, payload, rfl, ?_, rfl⟩
  rw [BitVec.toNat_ofNat, Nat.mod_eq_of_lt (Nat.lt_succ_of_le h)]

section EncPacket

variable {s : State} {msg : Byte} {payload : List Byte}

theorem exec_encPacket_of_busy (hlen : payload.length ≤ maxPayload) (he : s.encPhase ≠ .idle) (seqIn sys comp : Byte) :
    exec (.encPacket seqIn sys comp msg payload) s = .next (recordFault .busy s) :=
  (withinFormat_of_le hlen).trans (congrArg _ (whenEncoderIdle_busy he _))

theorem exec_encPacket_of_idle (hlen : payload.length ≤ maxPayload) (he : s.encPhase = .idle) (seqIn sys comp : Byte) :
    exec (.encPacket seqIn sys comp msg payload) s = .next (startEncode sys comp msg payload s) :=
  (withinFormat_of_le hlen).trans (congrArg _ (whenEncoderIdle_idle he _))

theorem exec_encPacket_of_unknown (hlen : payload.length ≤ maxPayload) (he : s.encPhase = .idle)
    (hnone : lookup s msg = none) (seqIn sys comp : Byte) :
    exec (.encPacket seqIn sys comp msg payload) s =
      .next (respond .encoder ⟨.unknownMessage, none, none⟩ (drawn { s with encFrame := freeEncFrame s })) := by
  rw [exec_encPacket_of_idle hlen he]
  simp only [startEncode, hnone, raise_eq_respond]

theorem exec_encPacket_of_found {x : Byte} (hlen : payload.length ≤ maxPayload) (he : s.encPhase = .idle)
    (hx : lookup s msg = some x) (seqIn sys comp : Byte) :
    exec (.encPacket seqIn sys comp msg payload) s =
      .next { s with encFrame := frameBytes s.encSeq sys comp msg payload x, encPhase := .flush } := by
  rw [exec_encPacket_of_idle hlen he]
  simp only [startEncode, hx]

end EncPacket

/-- Byte 2 of a frame is its sequence id (30_encoding.md R70). -/
theorem frameBytes_seq (seq sys comp msg : Byte) (payload : List Byte) (x : Byte) :
    (frameBytes seq sys comp msg payload x)[2]? = some seq := rfl

/-- Settles O40: by whether the encoder is idle, and then by whether the registry knows the id. -/
theorem encPacketBuildsTheFrame : Obligations.EncPacketBuildsTheFrame := by
  intro seqIn sys comp msg payload s hlen
  refine ⟨decode_encPacket hlen seqIn sys comp msg, fun he => exec_encPacket_of_busy hlen he seqIn sys comp,
    fun he => ⟨fun hnone => ⟨freeEncFrame s, s.draws + 1, freeEncFrame_length s, ?_⟩, fun x hx => ⟨_, rfl, ?_⟩⟩⟩
  · exact exec_encPacket_of_unknown hlen he hnone seqIn sys comp
  · exact exec_encPacket_of_found hlen he hx seqIn sys comp

/-- Settles O42: `exec` drops the packet's own sequence field, and a pending request carries ENC_SEQ. -/
theorem sequenceFieldIsIgnored : Obligations.SequenceFieldIsIgnored := by
  intro q q' sys comp msg payload s
  refine ⟨rfl, fun t he h hflush => ?_⟩
  obtain ⟨-, rfl⟩ := withinFormat_eq_next.mp h
  rw [whenEncoderIdle_idle he] at hflush ⊢
  obtain ⟨-, hunknown⟩ | ⟨x, -, hframe⟩ := startEncode_cases sys comp msg payload s
  · rw [hunknown] at hflush
    exact absurd (he.symm.trans hflush) EncPhase.noConfusion
  · rw [hframe]
    exact frameBytes_seq s.encSeq sys comp msg payload x

/-! ### The sink's answer -/

section SinkAnswer

variable {s : State} (hf : s.encPhase = .flush)
include hf

theorem sinkAnswer_accepted {k : Nat} (hk : k ≤ s.encFrame.length) :
    sinkAnswer (.accepted k) s = .next (flushAccepted k s) := by
  simp only [sinkAnswer, hf, if_pos hk]

theorem sinkAnswer_whole :
    sinkAnswer (.accepted s.encFrame.length) s = .next (respond .encoder ⟨.ok, none, none⟩
      { s with snk := s.snk ++ s.encFrame, encPhase := .idle, encSeq := s.encSeq + 1 }) := by
  rw [sinkAnswer_accepted hf le_rfl, flushAccepted, if_pos rfl, List.take_length]
  rfl

theorem sinkAnswer_short {k : Nat} (hk : k < s.encFrame.length) :
    sinkAnswer (.accepted k) s = .next (respond .encoder ⟨.shortWrite, none, none⟩
      { s with snk := s.snk ++ s.encFrame.take k, encPhase := .idle }) := by
  rw [sinkAnswer_accepted hf hk.le, flushAccepted, if_neg hk.ne]
  rfl

theorem sinkAnswer_err (e : IoErr) :
    sinkAnswer (.err e) s = .next (respond .encoder ⟨.ioError e, none, none⟩ { s with encPhase := .idle }) := by
  simp only [sinkAnswer, hf, raise_eq_respond]

end SinkAnswer

/-- Settles O41: the step takes the answer off the moves, and the answer alone decides how the encode ends. -/
theorem sinkAnswerEndsTheEncode : Obligations.SinkAnswerEndsTheEncode := by
  intro s ms hf
  have hf' : ({ s with moves := ms } : State).encPhase = .flush := hf
  exact ⟨fun hm => (step_of_moves_cons hm).trans (sinkAnswer_whole hf'),
    fun k hk hm => (step_of_moves_cons hm).trans (sinkAnswer_short hf' hk),
    fun e hm => (step_of_moves_cons hm).trans (sinkAnswer_err hf' e)⟩

/-! ### ENC.SEQ -/

theorem exec_encSeq_of_idle {s : State} (he : s.encPhase = .idle) :
    exec .encSeq s = .next (respond .encoder ⟨.ok, none, some (zext16 s.encSeq)⟩ s) :=
  congrArg _ (whenEncoderIdle_idle he _)

theorem exec_encSeq_of_busy {s : State} (he : s.encPhase ≠ .idle) : exec .encSeq s = .next (recordFault .busy s) :=
  congrArg _ (whenEncoderIdle_busy he _)

/-! ### The encoder's responses stay: each kind of move leaves them or adds one at the end -/

/-- The verdict on a frame answers on the decoder's port. -/
@[simp] theorem concludeFrame_encoderResponses (crc : Word) (p : Packet) (s : State) :
    (concludeFrame crc p s).responses.encoder = s.responses.encoder := by
  obtain ⟨-, h⟩ | ⟨_, -, -, h⟩ | ⟨_, -, -, h⟩ := concludeFrame_cases crc p s <;> rw [h] <;> rfl

theorem CommandEffect.encoderResponses_prefix {s t : State} (h : CommandEffect s t) :
    s.responses.encoder <+: t.responses.encoder := by
  cases h with
  | bufferWhole _ crc p => rw [concludeFrame_encoderResponses]; exact List.prefix_rfl
  | encodeUnknown | encSeq => exact List.prefix_append _ _
  | _ => exact List.prefix_rfl

theorem TurnEffect.encoderResponses {s t : State} (h : TurnEffect s t) :
    t.responses.encoder = s.responses.encoder := by
  cases h with
  | verify p => exact concludeFrame_encoderResponses s.decCrc p s
  | _ => rfl

theorem takeMove_encoderResponses_prefix {m : Move} {s t : State} (h : takeMove m s = .next t) :
    s.responses.encoder <+: t.responses.encoder := by
  cases m with
  | command record =>
    obtain ⟨i, -, hi⟩ | ⟨op, -, rfl⟩ := issueRecord_eq_next h
    · exact (exec_effect hi).encoderResponses_prefix
    · exact List.prefix_rfl
  | source x => cases h; exact List.prefix_rfl
  | answer a =>
    obtain ⟨-, ⟨-, rfl⟩ | ⟨k, -, -, rfl⟩ | ⟨e, -, rfl⟩⟩ := sinkAnswer_eq_next h <;> exact List.prefix_append _ _
  | decoder => rw [(decoderTurn_effect h).encoderResponses]

theorem step_encoderResponses_prefix {s t : State} (h : step s = .next t) :
    s.responses.encoder <+: t.responses.encoder := by
  obtain ⟨-, hturn⟩ | ⟨m, ms, -, hmove⟩ := step_cases h
  · rw [(decoderTurn_effect hturn).encoderResponses]
  · exact (takeMove_encoderResponses_prefix hmove :)

/-- A step that gives ENC_SEQ another value brings an OK response without a value, and earlier ones stay on the port. -/
theorem step_encSeqInv {s t : State} (hinv : encSeqInv s) (h : step s = .next t) : encSeqInv t := by
  intro hvalue
  have hseq : t.encSeq = s.encSeq := by
    by_contra hne
    obtain ⟨hr, -⟩ := (step_countersFollowOk h).encSeq hne
    have hmem : (⟨.ok, none, none⟩ : Response) ∈ t.responses.encoder := by simp [hr, Responses.withEncoder]
    exact hvalue _ hmem rfl rfl
  rw [hseq, step_cfg h]
  exact hinv fun r hr => hvalue r ((step_encoderResponses_prefix h).subset hr)

/-! ### An encode whose frame the sink takes whole, and the example of R192 -/

/-- A record of a command at the front of the moves: the step runs it. -/
theorem step_of_command {s : State} {record : List Byte} {ms : List Move} {i : Instr}
    (hm : s.moves = .command record :: ms) (hi : decode record = .command i) :
    step s = exec i { s with moves := ms } := by
  rw [step_of_moves_cons hm, takeMove, issueRecord, hi]

/-- A run goes on after a step that answers a next state. -/
theorem run_succ_of_step {s t : State} (h : step s = .next t) (n : Nat) :
    Host.Core.run Sys2Proof.core (n + 1) s = Host.Core.run Sys2Proof.core n t := by
  have hcore : Sys2Proof.core.step s = .next t := h
  simp only [Host.Core.run, hcore]

/-- The state after ENC.PACKET and the sink's acceptance of its frame `F`, with `ms` the moves left (43_encoder.md R192). -/
def afterEncode (F : List Byte) (ms : List Move) (s : State) : State :=
  respond .encoder ⟨.ok, none, none⟩
    { s with moves := ms, encFrame := F, snk := s.snk ++ F, encPhase := .idle, encSeq := s.encSeq + 1 }

theorem run_encode {seqIn sys comp msg x : Byte} {payload : List Byte} {ms : List Move} {s : State}
    (he : s.encPhase = .idle) (hlen : payload.length ≤ maxPayload) (hx : lookup s msg = some x)
    (hm : s.moves =
      .command (encode (.encPacket seqIn sys comp msg payload)) :: .answer (.accepted (8 + payload.length)) :: ms)
    (n : Nat) :
    Host.Core.run Sys2Proof.core (n + 2) s =
      Host.Core.run Sys2Proof.core n (afterEncode (frameBytes s.encSeq sys comp msg payload x) ms s) := by
  have hstart := exec_encPacket_of_found (s := { s with moves := .answer (.accepted (8 + payload.length)) :: ms })
    hlen he hx seqIn sys comp
  rw [run_succ_of_step ((step_of_command hm (decode_encPacket hlen seqIn sys comp msg)).trans hstart)]
  obtain ⟨hwhole, -⟩ := sinkAnswerEndsTheEncode
    { s with
      moves := .answer (.accepted (8 + payload.length)) :: ms
      encFrame := frameBytes s.encSeq sys comp msg payload x
      encPhase := .flush } ms rfl
  exact run_succ_of_step (hwhole (by rw [frameBytes_length])) n

/-- The frame of the example. -/
theorem frameBytes_example :
    frameBytes 0x00 0x01 0x01 0x00 [] 0x32 = [0xFE, 0x00, 0x00, 0x01, 0x01, 0x00, 0x86, 0x5C] := by
  decide +kernel

theorem run_example_encSeq {s : State} (he : s.encPhase = .idle) (hseq : s.encSeq = 0) (hx : lookup s 0 = some 0x32)
    (hm : s.moves = [.command [0x30, 0x00, 0x00, 0x01, 0x01, 0x00], .answer (.accepted 8), .command [0x31]]) :
    ∃ t, Host.Core.run Sys2Proof.core 3 s = .next t ∧
      t.snk = s.snk ++ [0xFE, 0x00, 0x00, 0x01, 0x01, 0x00, 0x86, 0x5C] ∧
      t.responses.encoder = s.responses.encoder ++ [⟨.ok, none, none⟩, ⟨.ok, none, some 0x0001⟩] := by
  rw [run_encode (seqIn := 0) (sys := 1) (comp := 1) (msg := 0) (payload := []) he (by decide) hx hm, hseq,
    frameBytes_example, run_succ_of_step ((step_of_command rfl rfl).trans (exec_encSeq_of_idle rfl))]
  exact ⟨_, rfl, rfl, by simp [afterEncode, hseq, zext16]⟩

/-- Settles O43: by whether the encoder is idle; ENC_SEQ before any encode by the invariant that each step keeps. -/
theorem encSeqCommand : Obligations.EncSeqCommand := by
  refine ⟨rfl, fun s => ⟨exec_encSeq_of_busy, exec_encSeq_of_idle⟩, ⟨_, exec_encSeq_of_idle rfl, rfl⟩, fun _ => rfl,
    fun s t => step_encSeqInv, fun s hinv hvalue he => ?_, fun s => run_example_encSeq⟩
  rw [← hinv hvalue]
  exact exec_encSeq_of_idle he

end Sys2Proof.Machine
end

section
/-! The two sequence counters are independent (spec/43_encoder.md R203): the encoder's operations commute with a change of DEC_SEQ and
the decoder's with a change of ENC_SEQ. One lemma per operation, in the order in which the operations call each other. -/

namespace Sys2Proof.Machine

/-- The state with another DEC_SEQ. -/
def setDecSeq (n : Byte) (s : State) : State := { s with decSeq := n }

/-- The state with another ENC_SEQ. -/
def setEncSeq (n : Byte) (s : State) : State := { s with encSeq := n }

/-- Whether a list operand fits does not depend on the state, so a change of the state passes through. -/
theorem withinFormat_map (f : State → State) (limit : Nat) (data : List Byte) (t : State) :
    withinFormat limit data (f t) = mapNext f (withinFormat limit data t) := by
  simp only [withinFormat, apply_ite (mapNext f)]
  rfl

section Commutes

variable (n : Byte) (s : State)

@[simp] theorem lookup_setDecSeq (id : Byte) : lookup (setDecSeq n s) id = lookup s id := rfl
@[simp] theorem lookup_setEncSeq (id : Byte) : lookup (setEncSeq n s) id = lookup s id := rfl

/-! ### The encoder and DEC_SEQ -/

theorem whenEncoderIdle_setDecSeq (t : State) :
    whenEncoderIdle (setDecSeq n s) (setDecSeq n t) = setDecSeq n (whenEncoderIdle s t) :=
  (apply_ite (setDecSeq n) (s.encPhase = .idle) t (recordFault .busy s)).symm

theorem startEncode_setDecSeq (sys comp msg : Byte) (payload : List Byte) :
    startEncode sys comp msg payload (setDecSeq n s) = setDecSeq n (startEncode sys comp msg payload s) := by
  simp only [startEncode, lookup_setDecSeq]
  split <;> rfl

theorem execEncPacket_setDecSeq (q sys comp msg : Byte) (payload : List Byte) :
    execEncPacket q sys comp msg payload (setDecSeq n s) =
      mapNext (setDecSeq n) (execEncPacket q sys comp msg payload s) := by
  simp only [execEncPacket, startEncode_setDecSeq, whenEncoderIdle_setDecSeq, withinFormat_map]

theorem execEncSeq_setDecSeq : execEncSeq (setDecSeq n s) = mapNext (setDecSeq n) (execEncSeq s) :=
  congrArg _ (whenEncoderIdle_setDecSeq n s (complete .encoder none (some (zext16 s.encSeq)) s))

theorem flushAccepted_setDecSeq (k : Nat) : flushAccepted k (setDecSeq n s) = setDecSeq n (flushAccepted k s) := by
  simp only [flushAccepted, apply_ite (setDecSeq n)]
  rfl

theorem sinkAnswer_setDecSeq (x : Answer) :
    sinkAnswer x (setDecSeq n s) = mapNext (setDecSeq n) (sinkAnswer x s) := by
  dsimp only [sinkAnswer, setDecSeq]
  split
  · rfl
  · cases x with
    | accepted k =>
      dsimp only
      split
      · exact congrArg _ (flushAccepted_setDecSeq n s k)
      · rfl
    | err e => rfl

/-! ### The decoder's commands and ENC_SEQ -/

theorem whenDecoderIdle_setEncSeq (t : State) :
    whenDecoderIdle (setEncSeq n s) (setEncSeq n t) = setEncSeq n (whenDecoderIdle s t) :=
  (apply_ite (setEncSeq n) (s.decPhase = .idle) t (recordFault .busy s)).symm

theorem execDecDecode_setEncSeq : execDecDecode (setEncSeq n s) = mapNext (setEncSeq n) (execDecDecode s) :=
  congrArg _ (whenDecoderIdle_setEncSeq n s (startDecode s))

theorem execDecSeq_setEncSeq : execDecSeq (setEncSeq n s) = mapNext (setEncSeq n) (execDecSeq s) :=
  congrArg _ (whenDecoderIdle_setEncSeq n s (complete .decoder none (some (zext16 s.decSeq)) s))

/-- The verdict looks into the registry alone. -/
theorem concludeFrame_setEncSeq (crc : Word) (p : Packet) :
    concludeFrame crc p (setEncSeq n s) = setEncSeq n (concludeFrame crc p s) := by
  simp only [concludeFrame, lookup_setEncSeq]
  split <;> rfl

theorem answerBuffer_setEncSeq (v : BufferView) :
    answerBuffer v (setEncSeq n s) = setEncSeq n (answerBuffer v s) := by
  cases v with
  | invalidHeader => rfl
  | cut => rfl
  | whole crc p => exact concludeFrame_setEncSeq n s crc p

/-- What the buffer holds is read without the state. -/
theorem decodeBuffer_setEncSeq (buf : List Byte) :
    decodeBuffer buf (setEncSeq n s) = setEncSeq n (decodeBuffer buf s) := by
  dsimp only [decodeBuffer, setEncSeq]
  split
  · rfl
  · split
    · rfl
    · exact answerBuffer_setEncSeq n (startBuffer s) _

theorem execDecDecodeBuf_setEncSeq (buf : List Byte) :
    execDecDecodeBuf buf (setEncSeq n s) = mapNext (setEncSeq n) (execDecDecodeBuf buf s) := by
  simp only [execDecDecodeBuf, decodeBuffer_setEncSeq, whenDecoderIdle_setEncSeq, withinFormat_map]

/-! ### The decoder's turn and ENC_SEQ -/

theorem readSymbol_setEncSeq {use : Symbol → State → Host.Outcome State Fault Refusal}
    (huse : ∀ x t, use x (setEncSeq n t) = mapNext (setEncSeq n) (use x t)) :
    readSymbol use (setEncSeq n s) = mapNext (setEncSeq n) (readSymbol use s) := by
  cases hsrc : s.src with
  | nil => rw [readSymbol_nil hsrc]; exact readSymbol_nil hsrc
  | cons x rest => rw [readSymbol_cons hsrc, ← huse]; exact readSymbol_cons hsrc

theorem seekStep_setEncSeq (x : Symbol) : seekStep x (setEncSeq n s) = setEncSeq n (seekStep x s) := by
  cases x with
  | byte b =>
    dsimp only [seekStep]
    split <;> rfl
  | endOfSource => rfl
  | err e => rfl

theorem headerStep_setEncSeq (k : Fin 5) (x : Symbol) :
    headerStep k x (setEncSeq n s) = setEncSeq n (headerStep k x s) := by
  cases x <;> rfl

theorem bodyByte_setEncSeq (i l : Nat) (b : Byte) :
    bodyByte i l b (setEncSeq n s) = mapNext (setEncSeq n) (bodyByte i l b s) := by
  simp only [bodyByte, apply_ite (mapNext (setEncSeq n))]
  rfl

theorem bodyCut_setEncSeq (st : Status) : bodyCut st (setEncSeq n s) = mapNext (setEncSeq n) (bodyCut st s) := by
  dsimp only [bodyCut, setEncSeq]
  split <;> rfl

theorem bodyStep_setEncSeq (i : Nat) (x : Symbol) :
    bodyStep i x (setEncSeq n s) = mapNext (setEncSeq n) (bodyStep i x s) := by
  cases x with
  | byte b =>
    dsimp only [bodyStep, setEncSeq]
    split
    · exact bodyByte_setEncSeq n s i _ b
    · rfl
  | endOfSource => exact bodyCut_setEncSeq n s .truncated
  | err e => exact bodyCut_setEncSeq n s (.ioError e)

theorem verifyStep_setEncSeq : verifyStep (setEncSeq n s) = mapNext (setEncSeq n) (verifyStep s) := by
  dsimp only [verifyStep, setEncSeq]
  split
  · exact congrArg _ (concludeFrame_setEncSeq n s s.decCrc _)
  · rfl

theorem decoderTurn_setEncSeq : decoderTurn (setEncSeq n s) = mapNext (setEncSeq n) (decoderTurn s) := by
  dsimp only [decoderTurn, setEncSeq]
  split
  · rfl
  · exact readSymbol_setEncSeq n s fun x t => congrArg _ (seekStep_setEncSeq n t x)
  · exact readSymbol_setEncSeq n s fun x t => congrArg _ (headerStep_setEncSeq n t _ x)
  · exact readSymbol_setEncSeq n s fun x t => bodyStep_setEncSeq n t _ x
  · exact verifyStep_setEncSeq n s

end Commutes

/-- Settles O58: the encoder commutes with a change of DEC_SEQ and the decoder with a change of ENC_SEQ. -/
theorem sequenceCountersAreIndependent : Obligations.SequenceCountersAreIndependent := fun s n =>
  ⟨execEncPacket_setDecSeq n s, execEncSeq_setDecSeq n s, sinkAnswer_setDecSeq n s, execDecDecode_setEncSeq n s,
    execDecDecodeBuf_setEncSeq n s, execDecSeq_setEncSeq n s, decoderTurn_setEncSeq n s⟩

end Sys2Proof.Machine
end

section
/-! FAULTS (spec/60_exceptions.md R229, spec/10_state.md R29): only a record on the command port changes it, by one name that joins it and
with no other change; so a recorded fault stays. -/

namespace Sys2Proof.Machine

/-- A fault that is in the set is in it after another one joins. -/
theorem faultRecorded_addFault_of_recorded {f : ModelFault} {fs : FaultSet} (h : faultRecorded fs f = true) (g : ModelFault) :
    faultRecorded (addFault g fs) f = true := by
  by_cases hfg : f = g
  · rw [hfg]; exact faultRecorded_addFault_self g fs
  · rw [faultRecorded_addFault_ne hfg]; exact h

theorem faultRecorded_empty (f : ModelFault) : faultRecorded FaultSet.empty f = false := by cases f <;> rfl

/-! ### What each kind of move does to FAULTS -/

/-- Of a command's effects only the fault itself touches FAULTS. -/
theorem CommandEffect.recordFault_or_faults_eq {s t : State} (h : CommandEffect s t) :
    (∃ f, t = recordFault f s) ∨ t.faults = s.faults := by
  cases h with
  | fault f => exact .inl ⟨f, rfl⟩
  | bufferWhole _ crc p => exact .inr (concludeFrame_faults crc p (startBuffer s))
  | _ => exact .inr rfl

theorem issueRecord_recordFault_or_faults_eq {record : List Byte} {s t : State} (h : issueRecord record s = .next t) :
    (∃ f, t = recordFault f s) ∨ t.faults = s.faults := by
  obtain ⟨i, -, hi⟩ | ⟨op, -, rfl⟩ := issueRecord_eq_next h
  · exact (exec_effect hi).recordFault_or_faults_eq
  · exact .inl ⟨.illegal, rfl⟩

/-- Only VERIFY is not one record update. -/
theorem TurnEffect.faults_eq {s t : State} (h : TurnEffect s t) : t.faults = s.faults := by
  cases h with
  | verify p => exact concludeFrame_faults s.decCrc p s
  | _ => rfl

theorem sinkAnswer_faults {a : Answer} {s t : State} (h : sinkAnswer a s = .next t) : t.faults = s.faults := by
  obtain ⟨-, ⟨-, rfl⟩ | ⟨k, -, -, rfl⟩ | ⟨e, -, rfl⟩⟩ := sinkAnswer_eq_next h <;> rfl

/-- A move that is no record on the command port leaves FAULTS. -/
theorem takeMove_faults_of_ne_command {m : Move} {s t : State} (hm : ∀ record, m ≠ .command record)
    (h : takeMove m s = .next t) : t.faults = s.faults := by
  cases m with
  | command record => exact absurd rfl (hm record)
  | source x => cases h; exact appendSymbol_faults x s
  | answer a => exact sinkAnswer_faults h
  | decoder => exact (decoderTurn_effect h).faults_eq

/-! ### A recorded fault stays -/

theorem issueRecord_keeps_fault {record : List Byte} {s t : State} {f : ModelFault} (h : issueRecord record s = .next t)
    (hf : faultRecorded s.faults f = true) : faultRecorded t.faults f = true := by
  obtain ⟨g, rfl⟩ | heq := issueRecord_recordFault_or_faults_eq h
  · exact faultRecorded_addFault_of_recorded hf g
  · rw [heq]; exact hf

theorem takeMove_keeps_fault {m : Move} {s t : State} {f : ModelFault} (h : takeMove m s = .next t)
    (hf : faultRecorded s.faults f = true) : faultRecorded t.faults f = true := by
  by_cases hm : ∃ record, m = .command record
  · obtain ⟨record, rfl⟩ := hm
    exact issueRecord_keeps_fault h hf
  · rw [takeMove_faults_of_ne_command (not_exists.mp hm) h]
    exact hf

theorem step_keeps_fault {s t : State} {f : ModelFault} (h : step s = .next t) (hf : faultRecorded s.faults f = true) :
    faultRecorded t.faults f = true := by
  obtain ⟨-, hturn⟩ | ⟨m, ms, -, hmove⟩ := step_cases h
  · rw [(decoderTurn_effect hturn).faults_eq]
    exact hf
  · exact takeMove_keeps_fault hmove hf

/-- A normal end has FAULTS empty (60_exceptions.md R238). -/
theorem not_normalEnd_of_faultRecorded {s : State} {f : ModelFault} (hf : faultRecorded s.faults f = true) : ¬ NormalEnd s := by
  rintro ⟨-, -, -, hfree⟩
  rw [hfree, faultRecorded_empty] at hf
  exact Bool.false_ne_true hf

/-- Settles O52: a record either is one `recordFault` or leaves FAULTS, and no other move touches FAULTS. -/
theorem faultsAreStickyAndChangeNothingElse : Obligations.FaultsAreStickyAndChangeNothingElse :=
  ⟨fun _ _ _ h hne => (issueRecord_recordFault_or_faults_eq h).resolve_right hne,
    fun _ _ _ => step_keeps_fault, fun _ _ => not_normalEnd_of_faultRecorded⟩

end Sys2Proof.Machine
end

section
/-! The state at reset (spec/70_reset_and_hazards.md R250, values of spec/10_state.md R36). -/

namespace Sys2Proof.Machine

/-- Settles O47: the three frame registers hold `none` in every entry, so nothing of them is written (`writtenTo_replicate`); every
other register is the value `State.bind` creates the block with. -/
theorem resetState : Obligations.ResetState :=
  have hdrUnwritten : writtenTo 0 State.reset.decHdr := writtenTo_replicate 5
  have payUnwritten : writtenTo 0 State.reset.decPay := writtenTo_replicate 255
  have ckUnwritten : writtenTo 0 State.reset.decCk := writtenTo_replicate 2
  ⟨rfl, rfl, rfl, rfl, hdrUnwritten, payUnwritten, ckUnwritten, rfl, rfl, rfl, rfl⟩

end Sys2Proof.Machine
end

section
/-! The command encoding and its inverse (spec/30_encoding.md R80 to R84): each format reads its own bytes back, and a record that is
read as a command is that command's encoding. -/

namespace Sys2Proof

/-! ### Reading back what a format writes -/

/-- A CB command: the 16-bit count is the number of data bytes. -/
theorem takeCB_of_count {data : List Byte} (f : List Byte → Instr) (h : data.length ≤ maxBlock) :
    takeCB f (loByte (BitVec.ofNat 16 data.length) :: hiByte (BitVec.ofNat 16 data.length) :: data) =
      .command (f data) := by
  refine takeCB_eq_command.mpr ⟨_, _, data, rfl, ?_, rfl⟩
  rw [le16_loByte_hiByte, BitVec.toNat_ofNat, Nat.mod_eq_of_lt (Nat.lt_succ_of_le h)]

/-- Settles O1: by the instruction's format; a count within its bound is the number of list bytes again. -/
theorem decodeInvertsEncode : Obligations.DecodeInvertsEncode := by
  intro i hwf
  cases i with
  | crcInit | crcFinal | decDecode | decSeq | encSeq => rfl
  | crcByte _ | regRegister _ | regLookup _ => rfl
  | crcBlock data => exact takeCB_of_count .crcBlock (of_decide_eq_true hwf)
  | decDecodeBuf buf => exact takeCB_of_count .decDecodeBuf (of_decide_eq_true hwf)
  | regNew ds => exact Machine.decode_regNew (of_decide_eq_true hwf)
  | encPacket q sys comp msg payload => exact Machine.decode_encPacket (of_decide_eq_true hwf) q sys comp msg

/-! ### What a format reads is what it writes -/

/-- A CB command that was read: its two count bytes are those written for its data, which are within the bound. -/
theorem encodeCB_of_length {lo hi : Byte} {data : List Byte} (op : Op) (h : data.length = (le16 lo hi).toNat) :
    data.length ≤ maxBlock ∧ encodeCB op data = op.byte :: lo :: hi :: data := by
  refine ⟨h ▸ Nat.le_of_lt_succ (le16 lo hi).isLt, ?_⟩
  rw [encodeCB, h, BitVec.ofNat_toNat, BitVec.setWidth_eq, loByte_le16, hiByte_le16]

/-- A list with an 8-bit count: the count byte is the one written for the list, which is within the bound. -/
theorem length_eq_toNat {k : Byte} {data : List Byte} (h : data.length = k.toNat) :
    data.length ≤ 255 ∧ BitVec.ofNat 8 data.length = k := by
  refine ⟨h ▸ Nat.le_of_lt_succ k.isLt, ?_⟩
  rw [h, BitVec.ofNat_toNat, BitVec.setWidth_eq]

/-- Operands that are read as a command are the operand bytes of that command's encoding. -/
theorem wellFormed_and_encode_of_decodeOperands {op : Op} {rest : List Byte} {i : Instr}
    (h : decodeOperands op rest = .command i) : i.WellFormed ∧ encode i = op.byte :: rest := by
  cases op with
  | crcInit | crcFinal | decDecode | decSeq | encSeq =>
    obtain ⟨rfl, rfl⟩ := takeC0_eq_command.mp h
    exact ⟨rfl, rfl⟩
  | crcByte | regRegister | regLookup =>
    obtain ⟨b, rfl, rfl⟩ := takeC8_eq_command.mp h
    exact ⟨rfl, rfl⟩
  | crcBlock | decDecodeBuf =>
    obtain ⟨lo, hi, data, rfl, hlen, rfl⟩ := takeCB_eq_command.mp h
    exact (encodeCB_of_length _ hlen).imp_left decide_eq_true
  | regNew =>
    obtain ⟨k, ds, rfl, hlen, rfl⟩ := takeCN_eq_command.mp h
    obtain ⟨hle, hk⟩ := length_eq_toNat hlen
    exact ⟨decide_eq_true hle, by rw [encode, encodeCN, hk]⟩
  | encPacket =>
    obtain ⟨l, q, sys, comp, msg, payload, rfl, hlen, rfl⟩ := takeCP_eq_command.mp h
    obtain ⟨hle, hl⟩ := length_eq_toNat hlen
    exact ⟨decide_eq_true hle, by rw [encode, encodeCP, hl]⟩

/-- Settles O2: the opcode byte is the function's own, the bytes after it are those of its format. -/
theorem encodeInvertsDecode : Obligations.EncodeInvertsDecode := by
  intro record i h
  cases record with
  | nil => cases h
  | cons b rest =>
    rcases hrow : opcodeRow b with _ | ⟨op, f⟩
    · simp [decode, hrow] at h
    · rw [decode_of_row hrow] at h
      rw [← opcodeRow_eq_some hrow]
      exact wellFormed_and_encode_of_decodeOperands h

end Sys2Proof
end

section
/-! Sums of sequences that differ in one byte (spec/40_checksum.md R109). -/

namespace Sys2Proof.Machine

/-- Settles O14: one step from one accumulator tells different bytes apart, and no later byte makes different accumulators equal. -/
theorem crcDetectsOneChangedByte : Obligations.CrcDetectsOneChangedByte := by
  intro acc before after b b' hne h
  rw [crcOver_append, crcOver_append] at h
  have hstep : crcStep (crcOver acc before) b = crcStep (crcOver acc before) b' := crcOver_inj_acc (s := after) h
  exact hne (crcStep_inj_byte hstep)

end Sys2Proof.Machine
end

section
/-! What each unit's commands leave unchanged (spec/10_state.md R21): first the next states a command of the unit can answer, then the
frame read off them. -/

namespace Sys2Proof.Machine

/-! ### FAULTS but for some names -/

theorem SameFaultsBut.of_eq {s t : State} (h : t.faults = s.faults) (fs : List ModelFault) : SameFaultsBut fs s t :=
  fun f _ => congrArg (faultRecorded · f) h

theorem sameFaultsBut_recordFault {f : ModelFault} {fs : List ModelFault} (hf : f ∈ fs) (s : State) :
    SameFaultsBut fs s (recordFault f s) :=
  fun _ hg => faultRecorded_addFault_ne (ne_of_mem_of_not_mem hf hg).symm s.faults

/-! ### The CRC unit -/

theorem withAcc_cases (s : State) (k : Word → State) :
    withAcc s k = recordFault .uninit s ∨ ∃ a, s.acc = some a ∧ withAcc s k = k a := by
  cases h : s.acc with
  | none => exact .inl (withAcc_none h k)
  | some a => exact .inr ⟨a, rfl, withAcc_some h k⟩

/-- A CRC command records F_UNINIT or responds, with ACC old or new. -/
theorem exec_crc_cases {i : Instr} {s t : State}
    (hi : i = .crcInit ∨ (∃ b, i = .crcByte b) ∨ (∃ data, i = .crcBlock data) ∨ i = .crcFinal)
    (h : exec i s = .next t) :
    t = recordFault .uninit s ∨ ∃ a r, (i = .crcFinal → a = s.acc) ∧ t = respond .crc r { s with acc := a } := by
  obtain rfl | ⟨b, rfl⟩ | ⟨data, rfl⟩ | rfl := hi
  · cases h
    exact .inr ⟨_, _, by simp, rfl⟩
  · cases h
    obtain hs | ⟨a, -, hs⟩ := withAcc_cases s fun a => complete .crc none none { s with acc := some (crcStep a b) }
    · exact .inl hs
    · exact .inr ⟨_, _, by simp, hs⟩
  · obtain ⟨-, rfl⟩ := withinFormat_eq_next.mp h
    obtain hs | ⟨a, -, hs⟩ := withAcc_cases s fun a => complete .crc none none { s with acc := some (crcOver a data) }
    · exact .inl hs
    · exact .inr ⟨_, _, by simp, hs⟩
  · cases h
    obtain hs | ⟨a, -, hs⟩ := withAcc_cases s fun a => complete .crc none (some a) s
    · exact .inl hs
    · exact .inr ⟨s.acc, _, fun _ => rfl, hs⟩

/-- Settles O15: the fault touches FAULTS alone, the response ACC and the CRC unit's responses. -/
theorem crcCommandsFrame : Obligations.CrcCommandsFrame := by
  intro i s t hi h
  obtain rfl | ⟨a, r, ha, rfl⟩ := exec_crc_cases hi h
  · exact ⟨fun _ => rfl, rfl, ⟨rfl, rfl, rfl, rfl, rfl, rfl⟩, ⟨rfl, rfl, rfl⟩, ⟨rfl, rfl, rfl, rfl⟩,
      sameFaultsBut_recordFault (List.mem_singleton_self _) s, rfl, rfl, rfl, rfl⟩
  · exact ⟨ha, rfl, ⟨rfl, rfl, rfl, rfl, rfl, rfl⟩, ⟨rfl, rfl, rfl⟩, ⟨rfl, rfl, rfl, rfl⟩, .of_eq rfl _, rfl, rfl, rfl, rfl⟩

/-! ### The registry unit -/

theorem changeRegistry_fault_or_respond (ds new : List Byte) (s : State) :
    (∃ f ∈ [ModelFault.registryRace, .badDialect], changeRegistry ds new s = recordFault f s) ∨
      changeRegistry ds new s = respond .registry ⟨.ok, none, none⟩ { s with regList := new } := by
  obtain ⟨-, h⟩ | ⟨-, -, -, h⟩ | ⟨-, -, -, h⟩ := changeRegistry_cases ds new s
  · exact .inl ⟨_, by simp, h⟩
  · exact .inr h
  · exact .inl ⟨_, by simp, h⟩

/-- A registry command records one of its two faults, which REG.LOOKUP never does, or responds, with REG_LIST old or new. -/
theorem exec_registry_cases {i : Instr} {s t : State}
    (hi : (∃ ds, i = .regNew ds) ∨ (∃ d, i = .regRegister d) ∨ ∃ id, i = .regLookup id) (h : exec i s = .next t) :
    (∃ f ∈ [ModelFault.registryRace, .badDialect], (∀ id, i ≠ .regLookup id) ∧ t = recordFault f s) ∨
      ∃ l r, ((∃ id, i = .regLookup id) → l = s.regList) ∧ t = respond .registry r { s with regList := l } := by
  obtain ⟨ds, rfl⟩ | ⟨d, rfl⟩ | ⟨id, rfl⟩ := hi
  · obtain ⟨-, rfl⟩ := withinFormat_eq_next.mp h
    obtain ⟨f, hf, hs⟩ | hs := changeRegistry_fault_or_respond ds ds s
    · exact .inl ⟨f, hf, fun _ => by simp, hs⟩
    · exact .inr ⟨_, _, by simp, hs⟩
  · cases h
    obtain ⟨f, hf, hs⟩ | hs := changeRegistry_fault_or_respond [d] (s.regList ++ [d]) s
    · exact .inl ⟨f, hf, fun _ => by simp, hs⟩
    · exact .inr ⟨_, _, by simp, hs⟩
  · cases hl : lookup s id with
    | some x =>
      rw [exec_regLookup_of_found hl] at h
      cases h
      exact .inr ⟨s.regList, _, fun _ => rfl, rfl⟩
    | none =>
      rw [exec_regLookup_of_notFound hl] at h
      cases h
      exact .inr ⟨s.regList, _, fun _ => rfl, rfl⟩

/-- Settles O22: a fault touches FAULTS alone, the response REG_LIST and the registry's responses. -/
theorem registryCommandsFrame : Obligations.RegistryCommandsFrame := by
  intro i s t hi h
  obtain ⟨f, hf, hne, rfl⟩ | ⟨l, r, hl, rfl⟩ := exec_registry_cases hi h
  · exact ⟨fun ⟨id, hid⟩ => absurd hid (hne id), rfl, ⟨rfl, rfl, rfl, rfl, rfl, rfl⟩, ⟨rfl, rfl, rfl⟩, ⟨rfl, rfl, rfl, rfl⟩,
      sameFaultsBut_recordFault hf s, rfl, rfl, rfl, rfl⟩
  · exact ⟨fun hi => ⟨hl hi, rfl⟩, rfl, ⟨rfl, rfl, rfl, rfl, rfl, rfl⟩, ⟨rfl, rfl, rfl⟩, ⟨rfl, rfl, rfl, rfl⟩, .of_eq rfl _,
      rfl, rfl, rfl, rfl⟩

/-! ### The decoder -/

/-- Writing IDLE to an idle decoder changes nothing, here and beside another write. -/
theorem withIdle_of_idle {s : State} (h : s.decPhase = .idle) : { s with decPhase := .idle } = s := by
  cases s
  cases h
  rfl

theorem withIdle_decSeq_of_idle {s : State} (h : s.decPhase = .idle) (q : Byte) :
    { s with decPhase := .idle, decSeq := q } = { s with decSeq := q } := by
  cases s
  cases h
  rfl

theorem withDecoder_ne_self (rs : Responses) (r : Response) : rs.withDecoder r ≠ rs := fun h => by
  simpa [Responses.withDecoder] using congrArg Responses.decoder h

theorem concludeFrame_eq_respond {b : State} (hb : b.decPhase = .idle) (crc : Word) (p : Packet) :
    ∃ r q, concludeFrame crc p b = respond .decoder r { b with decSeq := q } := by
  obtain ⟨-, h⟩ | ⟨_, -, -, h⟩ | ⟨_, -, -, h⟩ := concludeFrame_cases crc p b
  · exact ⟨_, b.decSeq, h.trans (congrArg _ (withIdle_of_idle hb))⟩
  · exact ⟨_, b.decSeq, h.trans (congrArg _ (withIdle_of_idle hb))⟩
  · exact ⟨_, p.sequenceId, h.trans (congrArg _ (withIdle_decSeq_of_idle hb p.sequenceId))⟩

/-- The answer of a buffer decode is one response; beside it DEC_SEQ and the draw counter may change. -/
theorem answerBuffer_eq_respond {b : State} (hb : b.decPhase = .idle) (v : BufferView) :
    ∃ r q n, answerBuffer v b = respond .decoder r { b with decSeq := q, draws := n } := by
  cases v with
  | invalidHeader => exact ⟨_, b.decSeq, b.draws, rfl⟩
  | cut seq sys comp msg => exact ⟨_, b.decSeq, b.draws + 1, rfl⟩
  | whole crc p =>
    obtain ⟨r, q, h⟩ := concludeFrame_eq_respond hb crc p
    exact ⟨r, q, b.draws, h⟩

theorem exec_decDecode_of_idle {s : State} (hd : s.decPhase = .idle) : exec .decDecode s = .next (startDecode s) :=
  congrArg _ (whenDecoderIdle_idle hd _)

theorem exec_decDecode_of_busy {s : State} (hd : s.decPhase ≠ .idle) :
    exec .decDecode s = .next (recordFault .busy s) :=
  congrArg _ (whenDecoderIdle_busy hd _)

theorem exec_decDecodeBuf_of_busy {s : State} {buf : List Byte} (hd : s.decPhase ≠ .idle) (hlen : buf.length ≤ maxBlock) :
    exec (.decDecodeBuf buf) s = .next (recordFault .busy s) :=
  (withinFormat_of_le hlen).trans (congrArg _ (whenDecoderIdle_busy hd _))

/-- DEC.DECODE_BUF records one of its two faults, or starts and responds. -/
theorem exec_decDecodeBuf_cases {buf : List Byte} {s t : State} (h : exec (.decDecodeBuf buf) s = .next t) :
    (∃ f ∈ [ModelFault.busy, .badOperand], t = recordFault f s) ∨
      ∃ r q n, t = respond .decoder r { startBuffer s with decSeq := q, draws := n } := by
  have ⟨hlen, _⟩ := withinFormat_eq_next.mp h
  by_cases hd : s.decPhase = .idle
  · rw [exec_decDecodeBuf_of_idle hd hlen] at h
    cases h
    by_cases hmax : s.cfg.maxBuf < buf.length
    · exact .inl ⟨.badOperand, by simp, decodeBuffer_of_tooLong hmax⟩
    · obtain ⟨v, hv⟩ := Option.ne_none_iff_exists'.mp (viewBuffer_ne_none buf)
      rw [decodeBuffer_of_view (Nat.le_of_not_lt hmax) hv]
      exact .inr (answerBuffer_eq_respond (b := startBuffer s) hd v)
  · rw [exec_decDecodeBuf_of_busy hd hlen] at h
    cases h
    exact .inl ⟨.busy, by simp, rfl⟩

/-- What every decoder command leaves unchanged. -/
structure OutsideDecoder (s t : State) : Prop where
  acc       : t.acc = s.acc
  regList   : t.regList = s.regList
  encoder   : SameEncoder s t
  outside   : SameOutside s t
  faults    : SameFaultsBut [.busy, .badOperand] s t
  responses : t.responses.crc = s.responses.crc ∧ t.responses.registry = s.responses.registry ∧
    t.responses.encoder = s.responses.encoder

theorem outsideDecoder_recordFault {f : ModelFault} (hf : f ∈ [ModelFault.busy, .badOperand]) (s : State) :
    OutsideDecoder s (recordFault f s) :=
  ⟨rfl, rfl, ⟨rfl, rfl, rfl⟩, ⟨rfl, rfl, rfl, rfl⟩, sameFaultsBut_recordFault hf s, rfl, rfl, rfl⟩

theorem outsideDecoder_startDecode (s : State) : OutsideDecoder s (startDecode s) :=
  ⟨rfl, rfl, ⟨rfl, rfl, rfl⟩, ⟨rfl, rfl, rfl, rfl⟩, .of_eq rfl _, rfl, rfl, rfl⟩

theorem outsideDecoder_respond (r : Response) (s : State) : OutsideDecoder s (respond .decoder r s) :=
  ⟨rfl, rfl, ⟨rfl, rfl, rfl⟩, ⟨rfl, rfl, rfl, rfl⟩, .of_eq rfl _, rfl, rfl, rfl⟩

theorem outsideDecoder_answerBuffer (r : Response) (q : Byte) (n : Nat) (s : State) :
    OutsideDecoder s (respond .decoder r { startBuffer s with decSeq := q, draws := n }) :=
  ⟨rfl, rfl, ⟨rfl, rfl, rfl⟩, ⟨rfl, rfl, rfl, rfl⟩, .of_eq rfl _, rfl, rfl, rfl⟩

theorem exec_decoder_outside {i : Instr} {s t : State} (hi : i = .decDecode ∨ (∃ buf, i = .decDecodeBuf buf) ∨ i = .decSeq)
    (h : exec i s = .next t) : OutsideDecoder s t := by
  obtain rfl | ⟨buf, rfl⟩ | rfl := hi
  · by_cases hd : s.decPhase = .idle
    · rw [exec_decDecode_of_idle hd] at h
      cases h
      exact outsideDecoder_startDecode s
    · rw [exec_decDecode_of_busy hd] at h
      cases h
      exact outsideDecoder_recordFault (by simp) s
  · obtain ⟨f, hf, rfl⟩ | ⟨r, q, n, rfl⟩ := exec_decDecodeBuf_cases h
    · exact outsideDecoder_recordFault hf s
    · exact outsideDecoder_answerBuffer r q n s
  · by_cases hd : s.decPhase = .idle
    · rw [exec_decSeq_of_idle hd] at h
      cases h
      exact outsideDecoder_respond _ s
    · rw [exec_decSeq_of_busy hd] at h
      cases h
      exact outsideDecoder_recordFault (by simp) s

theorem exec_decDecode_keeps {s t : State} (h : exec .decDecode s = .next t) :
    t.decCrc = s.decCrc ∧ t.decSeq = s.decSeq ∧ t.responses = s.responses ∧ t.draws = s.draws := by
  by_cases hd : s.decPhase = .idle
  · rw [exec_decDecode_of_idle hd] at h
    cases h
    exact ⟨rfl, rfl, rfl, rfl⟩
  · rw [exec_decDecode_of_busy hd] at h
    cases h
    exact ⟨rfl, rfl, rfl, rfl⟩

/-- DEC.DECODE_BUF with no response is a fault; with one it is the start, with DEC_SEQ old or new. -/
theorem exec_decDecodeBuf_decoder {buf : List Byte} {s t : State} (h : exec (.decDecodeBuf buf) s = .next t) :
    (t.responses = s.responses → SameDecoder s t) ∧
      (t.responses ≠ s.responses → ∃ b, BufferStarted s b ∧ SameDecoder b { t with decSeq := s.decSeq }) := by
  obtain ⟨f, -, rfl⟩ | ⟨r, q, n, rfl⟩ := exec_decDecodeBuf_cases h
  · exact ⟨fun _ => ⟨rfl, rfl, rfl, rfl, rfl, rfl⟩, fun hne => absurd rfl hne⟩
  · exact ⟨fun heq => absurd heq (withDecoder_ne_self s.responses r),
      fun _ => ⟨startBuffer s, bufferStarted_startBuffer s, rfl, rfl, rfl, rfl, rfl, rfl⟩⟩

theorem exec_decSeq_keeps {s t : State} (h : exec .decSeq s = .next t) : SameDecoder s t ∧ t.draws = s.draws := by
  by_cases hd : s.decPhase = .idle
  · rw [exec_decSeq_of_idle hd] at h
    cases h
    exact ⟨⟨rfl, rfl, rfl, rfl, rfl, rfl⟩, rfl⟩
  · rw [exec_decSeq_of_busy hd] at h
    cases h
    exact ⟨⟨rfl, rfl, rfl, rfl, rfl, rfl⟩, rfl⟩

/-- Settles O39: the three commands share what lies outside the decoder; inside it each keeps what it is said to. -/
theorem decoderCommandsFrame : Obligations.DecoderCommandsFrame := by
  intro i s t hi h
  obtain ⟨hacc, hreg, henc, hout, hfaults, hresp⟩ := exec_decoder_outside hi h
  refine ⟨?_, ?_, ?_, hacc, hreg, henc, hout, hfaults, hresp⟩
  · rintro rfl
    exact exec_decDecode_keeps h
  · rintro ⟨buf, rfl⟩
    exact exec_decDecodeBuf_decoder h
  · rintro rfl
    exact exec_decSeq_keeps h

/-- Settles O23: by whether the decoder is idle. -/
theorem decDecodeStarts : Obligations.DecDecodeStarts :=
  ⟨rfl, fun _ => ⟨exec_decDecode_of_busy, exec_decDecode_of_idle⟩⟩

/-! ### The encoder -/

/-- An encoder command records F_BUSY, or changes ENC_PHASE, ENC_FRAME, the draw counter and the encoder's responses, ENC.SEQ the
responses alone. -/
theorem exec_encoder_cases {i : Instr} {s t : State}
    (hi : (∃ q sys comp msg payload, i = .encPacket q sys comp msg payload) ∨ i = .encSeq) (h : exec i s = .next t) :
    t = recordFault .busy s ∨
      ∃ ph F n rs, (i = .encSeq → ph = s.encPhase ∧ F = s.encFrame ∧ n = s.draws) ∧
        t = { s with encPhase := ph, encFrame := F, draws := n, responses := { s.responses with encoder := rs } } := by
  obtain ⟨q, sys, comp, msg, payload, rfl⟩ | rfl := hi
  · have ⟨hlen, _⟩ := withinFormat_eq_next.mp h
    by_cases he : s.encPhase = .idle
    · rw [exec_encPacket_of_idle hlen he] at h
      cases h
      obtain ⟨-, hs⟩ | ⟨x, -, hs⟩ := startEncode_cases sys comp msg payload s
      · exact .inr ⟨s.encPhase, _, _, _, by simp, hs⟩
      · exact .inr ⟨_, _, s.draws, s.responses.encoder, by simp, hs⟩
    · rw [exec_encPacket_of_busy hlen he] at h
      cases h
      exact .inl rfl
  · by_cases he : s.encPhase = .idle
    · rw [exec_encSeq_of_idle he] at h
      cases h
      exact .inr ⟨s.encPhase, s.encFrame, s.draws, _, fun _ => ⟨rfl, rfl, rfl⟩, rfl⟩
    · rw [exec_encSeq_of_busy he] at h
      cases h
      exact .inl rfl

/-- Settles O46: the fault touches FAULTS alone, everything else is inside the encoder. -/
theorem encoderCommandsFrame : Obligations.EncoderCommandsFrame := by
  intro i s t hi h
  obtain rfl | ⟨ph, F, n, rs, hseq, rfl⟩ := exec_encoder_cases hi h
  · exact ⟨fun _ => ⟨⟨rfl, rfl, rfl⟩, rfl⟩, rfl, rfl, rfl, ⟨rfl, rfl, rfl, rfl, rfl, rfl⟩, ⟨rfl, rfl, rfl, rfl⟩,
      sameFaultsBut_recordFault (List.mem_singleton_self _) s, rfl, rfl, rfl⟩
  · refine ⟨fun hi => ?_, rfl, rfl, rfl, ⟨rfl, rfl, rfl, rfl, rfl, rfl⟩, ⟨rfl, rfl, rfl, rfl⟩, .of_eq rfl _, rfl, rfl, rfl⟩
    obtain ⟨hph, hF, hn⟩ := hseq hi
    exact ⟨⟨hph, rfl, hF⟩, hn⟩

end Sys2Proof.Machine
end

section
/-! The order of moves (spec/20_memory.md R61, R66, R270): what the next step is, when the decoder holds, and which inputs are refused. -/

namespace Sys2Proof.Machine

/-! ### The next move -/

/-- With no move listed the decoder goes on by itself. -/
theorem step_of_moves_nil {s : State} (h : s.moves = []) : step s = decoderTurn s := by
  simp [step, nextMove, h]

/-- Settles O59: the port decodes the record and runs the command. -/
theorem stepRunsTheDecodedCommand : Obligations.StepRunsTheDecodedCommand := fun _ _ _ _ => step_of_command

/-- Settles O60: the next move is taken off the list and takes place. -/
theorem stepTakesTheNextMove : Obligations.StepTakesTheNextMove := fun _ _ =>
  ⟨fun _ => step_of_moves_cons, step_of_moves_cons, step_of_moves_nil⟩

/-! ### The decoder holds -/

theorem decoderTurn_of_idle {s : State} (h : s.decPhase = .idle) : decoderTurn s = .next s := by
  simp only [decoderTurn, h]

/-- Every phase but IDLE and VERIFY reads a symbol. -/
theorem decoderTurn_of_empty {s : State} (hp : s.decPhase ≠ .verify) (hs : s.src = []) : decoderTurn s = .next s := by
  unfold decoderTurn
  split
  · rfl
  · exact readSymbol_nil hs
  · exact readSymbol_nil hs
  · exact readSymbol_nil hs
  · exact absurd ‹_› hp

/-- Settles O30: outside VERIFY a turn reads the source, and an idle decoder has no turn. -/
theorem decoderHoldsOnEmptySource : Obligations.DecoderHoldsOnEmptySource := by
  rintro s (⟨hp, hs⟩ | hd)
  · exact decoderTurn_of_empty hp hs
  · exact decoderTurn_of_idle hd

/-! ### Refused inputs -/

theorem issueRecord_of_notWhole {record : List Byte} (h : decode record = .notWhole) (s : State) :
    issueRecord record s = .refused .notWholeCommand := by
  simp only [issueRecord, h]

theorem sinkAnswer_of_idle {s : State} (he : s.encPhase = .idle) (a : Answer) :
    sinkAnswer a s = .refused .noPendingRequest := by
  simp only [sinkAnswer, he]

theorem sinkAnswer_of_tooMuch {s : State} {k : Nat} (hf : s.encPhase = .flush) (hk : s.encFrame.length < k) :
    sinkAnswer (.accepted k) s = .refused .acceptedTooMuch := by
  simp only [sinkAnswer, hf, if_neg (Nat.not_le_of_lt hk)]

/-- Settles O51: a list is measured before its command runs; the port and the sink refuse what has no move. -/
theorem inputsWithoutMoveAreRefused : Obligations.InputsWithoutMoveAreRefused := by
  intro s ms
  refine ⟨fun data h => ⟨withinFormat_of_gt h, withinFormat_of_gt h⟩, fun ds h => withinFormat_of_gt h,
    fun q sys comp msg payload h => withinFormat_of_gt h, fun record hr hm => ?_, fun a he hm => ?_, fun k hf hk hm => ?_⟩
  · exact (step_of_moves_cons hm).trans (issueRecord_of_notWhole hr _)
  · exact (step_of_moves_cons hm).trans (sinkAnswer_of_idle (s := { s with moves := ms }) he a)
  · exact (step_of_moves_cons hm).trans (sinkAnswer_of_tooMuch (s := { s with moves := ms }) hf hk)

end Sys2Proof.Machine
end

section
/-! REG_LIST is fixed while a unit is busy (spec/20_memory.md R61 item 4), and F_OOB is never recorded (R53). -/

namespace Sys2Proof.Machine

/-! ### REG_LIST -/

/-- A change of REG_LIST needs both units idle. -/
theorem CommandEffect.regList_of_busy {s t : State} (h : CommandEffect s t)
    (hbusy : s.decPhase ≠ .idle ∨ s.encPhase ≠ .idle) : t.regList = s.regList := by
  cases h with
  | registry l hd he => exact absurd hbusy (by simp [hd, he])
  | bufferWhole _ crc p => exact concludeFrame_regList crc p (startBuffer s)
  | _ => rfl

theorem TurnEffect.regList_eq {s t : State} (h : TurnEffect s t) : t.regList = s.regList := by
  cases h with
  | verify p => exact concludeFrame_regList s.decCrc p s
  | _ => rfl

theorem sinkAnswer_regList {a : Answer} {s t : State} (h : sinkAnswer a s = .next t) : t.regList = s.regList := by
  obtain ⟨-, ⟨-, rfl⟩ | ⟨k, -, -, rfl⟩ | ⟨e, -, rfl⟩⟩ := sinkAnswer_eq_next h <;> rfl

theorem takeMove_regList_of_busy {m : Move} {s t : State} (h : takeMove m s = .next t)
    (hbusy : s.decPhase ≠ .idle ∨ s.encPhase ≠ .idle) : t.regList = s.regList := by
  cases m with
  | command record =>
    obtain ⟨i, -, hi⟩ | ⟨op, -, rfl⟩ := issueRecord_eq_next h
    · exact (exec_effect hi).regList_of_busy hbusy
    · exact recordFault_regList .illegal s
  | source x => cases h; exact appendSymbol_regList x s
  | answer a => exact sinkAnswer_regList h
  | decoder => exact (decoderTurn_effect h).regList_eq

/-- Settles O21: of all moves only a registry command between decodes and encodes changes REG_LIST. -/
theorem registryFixedWhileBusy : Obligations.RegistryFixedWhileBusy := by
  intro s t h hbusy
  obtain ⟨-, hturn⟩ | ⟨m, ms, -, hmove⟩ := step_cases h
  · exact (decoderTurn_effect hturn).regList_eq
  · exact (takeMove_regList_of_busy hmove hbusy :)

/-! ### F_OOB -/

theorem SameFaultsBut.oob_eq {fs : List ModelFault} {s t : State} (h : SameFaultsBut fs s t) (hfs : .oob ∉ fs) :
    t.faults.oob = s.faults.oob := h .oob hfs

/-- No unit's commands record F_OOB: it is not among the faults of any of the four frames. -/
theorem exec_oob {i : Instr} {s t : State} (h : exec i s = .next t) : t.faults.oob = s.faults.oob := by
  cases i with
  | crcInit | crcByte | crcBlock | crcFinal =>
    obtain ⟨-, -, -, -, -, hf, -⟩ := crcCommandsFrame _ s t (by simp) h
    exact hf.oob_eq (by decide)
  | regNew | regRegister | regLookup =>
    obtain ⟨-, -, -, -, -, hf, -⟩ := registryCommandsFrame _ s t (by simp) h
    exact hf.oob_eq (by decide)
  | decDecode | decDecodeBuf | decSeq => exact (exec_decoder_outside (by simp) h).faults.oob_eq (by decide)
  | encPacket | encSeq =>
    obtain ⟨-, -, -, -, -, -, hf, -⟩ := encoderCommandsFrame _ s t (by simp) h
    exact hf.oob_eq (by decide)

theorem takeMove_oob {m : Move} {s t : State} (h : takeMove m s = .next t) : t.faults.oob = s.faults.oob := by
  by_cases hm : ∃ record, m = .command record
  · obtain ⟨record, rfl⟩ := hm
    obtain ⟨i, -, hi⟩ | ⟨op, -, rfl⟩ := issueRecord_eq_next h
    · exact exec_oob hi
    · rfl
  · rw [takeMove_faults_of_ne_command (not_exists.mp hm) h]

/-- Settles O33: every read of the view is inside the buffer, and no unit's frame names F_OOB. -/
theorem bufferReadsStayInside : Obligations.BufferReadsStayInside := by
  refine ⟨viewBuffer_ne_none, fun s t h => ?_⟩
  obtain ⟨-, hturn⟩ | ⟨m, ms, -, hmove⟩ := step_cases h
  · rw [(decoderTurn_effect hturn).faults_eq]
  · exact (takeMove_oob hmove :)

end Sys2Proof.Machine
end

section
/-! The streams (spec/20_memory.md R51, R55, R58): what each kind of move does to SRC and to SNK. -/

namespace Sys2Proof.Machine

theorem CommandEffect.src_snk_eq {s t : State} (h : CommandEffect s t) : t.src = s.src ∧ t.snk = s.snk := by
  cases h with
  | bufferWhole _ crc p => exact ⟨concludeFrame_src crc p (startBuffer s), concludeFrame_snk crc p (startBuffer s)⟩
  | _ => exact ⟨rfl, rfl⟩

theorem issueRecord_src_snk {record : List Byte} {s t : State} (h : issueRecord record s = .next t) :
    t.src = s.src ∧ t.snk = s.snk := by
  obtain ⟨i, -, hi⟩ | ⟨op, -, rfl⟩ := issueRecord_eq_next h
  · exact (exec_effect hi).src_snk_eq
  · exact ⟨rfl, rfl⟩

theorem TurnEffect.snk_eq {s t : State} (h : TurnEffect s t) : t.snk = s.snk := by
  cases h with
  | verify p => exact concludeFrame_snk s.decCrc p s
  | _ => rfl

/-- A turn of a busy decoder takes at most the first symbol. -/
theorem TurnEffect.src_cases {s t : State} (h : TurnEffect s t) :
    t.src = s.src ∨ (s.decPhase ≠ .idle ∧ ∃ x, s.src = x :: t.src) := by
  cases h with
  | hold => exact .inl rfl
  | verify p => exact .inl (concludeFrame_src s.decCrc p s)
  | skip b rest hp hs | header k b rest hp hs | seekEnd b st rest hp hs => exact .inr ⟨by simp [hp], _, hs⟩
  | marker rest hp hs => exact .inr ⟨by simp [hp], _, hs⟩
  | payload i l b rest hp hl hi hs => exact .inr ⟨by simp [hp], _, hs⟩
  | low l b rest hp hl hs | high l b rest hp hl hs => exact .inr ⟨by simp [hp], _, hs⟩
  | cut x st diag rest hp hs =>
    refine .inr ⟨?_, x, hs⟩
    obtain ⟨k, hk⟩ | ⟨i, hi⟩ := hp
    · simp [hk]
    · simp [hi]

theorem sinkAnswer_src {a : Answer} {s t : State} (h : sinkAnswer a s = .next t) : t.src = s.src := by
  obtain ⟨-, ⟨-, rfl⟩ | ⟨k, -, -, rfl⟩ | ⟨e, -, rfl⟩⟩ := sinkAnswer_eq_next h <;> rfl

/-- An answer hands the sink the first bytes of the pending request: all, some, or none of them. -/
theorem sinkAnswer_snk {a : Answer} {s t : State} (h : sinkAnswer a s = .next t) :
    s.encPhase = .flush ∧ ∃ k, t.snk = s.snk ++ s.encFrame.take k := by
  obtain ⟨hf, ⟨-, rfl⟩ | ⟨k, -, -, rfl⟩ | ⟨e, -, rfl⟩⟩ := sinkAnswer_eq_next h
  · exact ⟨hf, s.encFrame.length, by rw [List.take_length]; rfl⟩
  · exact ⟨hf, k, rfl⟩
  · exact ⟨hf, 0, by rw [List.take_zero, List.append_nil]; rfl⟩

/-- Settles O56: commands leave both streams, a symbol joins SRC, an answer feeds SNK, a turn reads SRC. -/
theorem streamsOnlyMoveForward : Obligations.StreamsOnlyMoveForward := by
  intro s t h
  obtain ⟨-, hturn⟩ | ⟨m, ms, hm, hmove⟩ := step_cases h
  · exact ⟨(decoderTurn_effect hturn).src_cases.imp_right .inr, .inl (decoderTurn_effect hturn).snk_eq⟩
  · cases m with
    | command record =>
      obtain ⟨hsrc, hsnk⟩ := issueRecord_src_snk hmove
      exact ⟨.inl hsrc, .inl hsnk⟩
    | source x =>
      cases hmove
      exact ⟨.inr (.inl ⟨x, ms, hm, rfl⟩), .inl rfl⟩
    | answer a => exact ⟨.inl (sinkAnswer_src hmove :), .inr (sinkAnswer_snk hmove :)⟩
    | decoder =>
      exact ⟨(decoderTurn_effect hmove).src_cases.imp_right .inr, .inl (decoderTurn_effect hmove).snk_eq⟩

end Sys2Proof.Machine
end

section
/-! The account of commands and responses (spec/10_state.md R31, spec/60_exceptions.md R220, R237). -/

namespace Sys2Proof.Machine

/-! ### The two terms of the account -/

theorem responseCount_respond (u : BlockUnit) (r : Response) (s : State) :
    responseCount (respond u r s) = responseCount s + 1 := by
  cases u <;> simp [responseCount] <;> omega

@[simp] theorem inProgress_respond (u : BlockUnit) (r : Response) (s : State) :
    inProgress (respond u r s) = inProgress s := rfl

theorem inProgress_of_decoder_idle {s : State} (h : s.decPhase = .idle) :
    inProgress s = encodesInProgress s.encPhase := by
  simp [inProgress, h, decodesInProgress]

theorem inProgress_of_decoder_busy {s : State} (h : s.decPhase ≠ .idle) :
    inProgress s = encodesInProgress s.encPhase + 1 := by
  cases hp : s.decPhase with
  | idle => exact absurd hp h
  | _ => simp only [inProgress, hp, decodesInProgress, Nat.add_comm]

theorem inProgress_of_encoder_idle {s : State} (h : s.encPhase = .idle) :
    inProgress s = decodesInProgress s.decPhase := by
  simp [inProgress, h, encodesInProgress]

theorem inProgress_of_encoder_flush {s : State} (h : s.encPhase = .flush) :
    inProgress s = decodesInProgress s.decPhase + 1 := by
  simp [inProgress, h, encodesInProgress]

theorem responseCount_concludeFrame (crc : Word) (p : Packet) (s : State) :
    responseCount (concludeFrame crc p s) = responseCount s + 1 := by
  obtain ⟨-, h⟩ | ⟨_, -, -, h⟩ | ⟨_, -, -, h⟩ := concludeFrame_cases crc p s <;> rw [h, responseCount_respond] <;> rfl

theorem inProgress_concludeFrame (crc : Word) (p : Packet) (s : State) :
    inProgress (concludeFrame crc p s) = encodesInProgress s.encPhase := by
  rw [inProgress_of_decoder_idle (concludeFrame_decPhase crc p s), concludeFrame_encPhase]

/-! ### Each kind of move -/

/-- A response that comes out while the units stay as busy as they were. -/
theorem account_of_respond (u : BlockUnit) (r : Response) {s t : State} (hr : t.responses = s.responses)
    (hp : inProgress t = inProgress s) :
    responseCount (respond u r t) + inProgress (respond u r t) = responseCount s + inProgress s + 1 := by
  rw [responseCount_respond, inProgress_respond, hp, responseCount, hr, Nat.add_right_comm, responseCount]

/-- A command that records no fault responds at once or makes one unit busy more. -/
theorem CommandEffect.account {s t : State} (h : CommandEffect s t) :
    (∃ f, t = recordFault f s) ∨ responseCount t + inProgress t = responseCount s + inProgress s + 1 := by
  cases h with
  | fault f => exact .inl ⟨f, rfl⟩
  | crc | lookup | registry | decSeq | bufferInvalid | bufferCut | encodeUnknown | encSeq =>
    exact .inr (account_of_respond _ _ rfl rfl)
  | startDecode hd =>
    right
    rw [inProgress_of_decoder_idle hd, inProgress_of_decoder_busy (by simp)]
    rfl
  | bufferWhole hd crc p =>
    right
    rw [responseCount_concludeFrame, inProgress_concludeFrame, inProgress_of_decoder_idle hd, Nat.add_right_comm]
    rfl
  | encode he =>
    right
    rw [inProgress_of_encoder_idle he, inProgress_of_encoder_flush rfl]
    rfl

/-- A turn that answers makes the decoder idle. -/
theorem account_of_respond_idle {s t : State} (hs : s.decPhase ≠ .idle) (r : Response)
    (ht : t.decPhase = .idle) (he : t.encPhase = s.encPhase) (hr : t.responses = s.responses) :
    responseCount (respond .decoder r t) + inProgress (respond .decoder r t) = responseCount s + inProgress s := by
  rw [responseCount_respond, inProgress_respond, inProgress_of_decoder_idle ht, inProgress_of_decoder_busy hs, he,
    responseCount, hr, Nat.add_right_comm, responseCount, Nat.add_assoc]

/-- A turn that does not answer leaves the decoder busy. -/
theorem account_of_busy {s t : State} (hs : s.decPhase ≠ .idle) (ht : t.decPhase ≠ .idle)
    (he : t.encPhase = s.encPhase) (hr : t.responses = s.responses) :
    responseCount t + inProgress t = responseCount s + inProgress s := by
  rw [inProgress_of_decoder_busy ht, inProgress_of_decoder_busy hs, he, responseCount, hr, responseCount]

theorem TurnEffect.account {s t : State} (h : TurnEffect s t) :
    responseCount t + inProgress t = responseCount s + inProgress s := by
  cases h with
  | hold => rfl
  | skip b rest hp => rfl
  | marker rest hp => exact account_of_busy (by simp [hp]) (by simp) rfl rfl
  | header k b rest hp =>
    refine account_of_busy (by simp [hp]) ?_ rfl rfl
    dsimp only
    split <;> simp
  | payload i l b rest hp => exact account_of_busy (by simp [hp]) (by simp) rfl rfl
  | low l b rest hp | high l b rest hp => exact account_of_busy (by simp [hp]) (by simp) rfl rfl
  | seekEnd x st rest hp => exact account_of_respond_idle (by simp [hp]) _ rfl rfl rfl
  | cut x st diag rest hp =>
    refine account_of_respond_idle ?_ _ rfl rfl rfl
    obtain ⟨k, hk⟩ | ⟨i, hi⟩ := hp
    · simp [hk]
    · simp [hi]
  | verify p hp =>
    rw [responseCount_concludeFrame, inProgress_concludeFrame, inProgress_of_decoder_busy (by simp [hp])]
    omega

theorem sinkAnswer_account {a : Answer} {s t : State} (h : sinkAnswer a s = .next t) :
    responseCount t + inProgress t = responseCount s + inProgress s := by
  obtain ⟨hf, ⟨-, rfl⟩ | ⟨k, -, -, rfl⟩ | ⟨e, -, rfl⟩⟩ := sinkAnswer_eq_next h <;>
    rw [responseCount_respond, inProgress_respond, inProgress_of_encoder_idle rfl, inProgress_of_encoder_flush hf,
      Nat.add_right_comm] <;> rfl

/-- Settles O53: a command's effect is a fault, a response or one busy unit more; each other move trades a busy unit for its
response or leaves both. -/
theorem everyCommandHasOneResponse : Obligations.EveryCommandHasOneResponse := by
  refine ⟨fun i s t h => (exec_effect h).account, fun m s t hm h => ⟨?_, takeMove_faults_of_ne_command hm h⟩⟩
  cases m with
  | command record => exact absurd rfl (hm record)
  | source x => cases h; rfl
  | answer a => exact sinkAnswer_account h
  | decoder => exact (decoderTurn_effect h).account

end Sys2Proof.Machine
end

section
/-! The machine's invariant (spec/10_state.md R23, R26, R27, R28): it holds at reset and every step keeps it. The decoder's part is said
once per phase; a turn takes the part of one phase to that of the next. -/

namespace Sys2Proof.Machine

/-! ### At reset -/

/-- The board's parameters are in their ranges whatever the opaque choices are (spec/00_scope.md R9). -/
theorem board_wellFormed : Config.board.WellFormed := by
  have hlen : Config.board.numDialects = min 255 Config.moreDialects.length + 1 := by simp [Config.board, Config.numDialects]
  have hpos : 0 < Config.board.numDialects := by omega
  have hmod : Config.defaultChoice % Config.board.numDialects < Config.board.numDialects := Nat.mod_lt _ hpos
  refine ⟨hpos, by omega, ?_, Nat.le_of_lt_succ Config.maxBufChoice.isLt⟩
  calc Config.board.defaultDialect.toNat = Config.defaultChoice % Config.board.numDialects % 2 ^ 8 := BitVec.toNat_ofNat _ _
    _ ≤ Config.defaultChoice % Config.board.numDialects := Nat.mod_le _ _
    _ < Config.board.numDialects := hmod

/-- Settles O48: REG_LIST names the default dialect, and no unit is busy. -/
theorem resetMeetsTheInvariant : Obligations.ResetMeetsTheInvariant where
  config := board_wellFormed
  registry := by
    intro d hd
    obtain rfl := List.mem_singleton.mp hd
    obtain ⟨-, -, hdefault, -⟩ := board_wellFormed
    exact hdefault
  decoder := trivial
  encoder := ⟨Nat.zero_le _, fun h => EncPhase.noConfusion h⟩

/-! ### The decoder's part in each phase -/

theorem decoderInv_of_idle {s : State} (hp : s.decPhase = .idle) : decoderInv s := by
  simp only [decoderInv, hp]

theorem decoderInv_seeking_iff {s : State} (hp : s.decPhase = .seeking) :
    decoderInv s ↔ writtenTo 0 s.decHdr ∧ writtenTo 0 s.decPay ∧ writtenTo 0 s.decCk := by
  simp only [decoderInv, hp]

theorem decoderInv_header_iff {s : State} {k : Fin 5} (hp : s.decPhase = .header k) :
    decoderInv s ↔ writtenTo k s.decHdr ∧ writtenTo 0 s.decPay ∧ writtenTo 0 s.decCk ∧ runningSum s := by
  simp only [decoderInv, hp]

theorem decoderInv_body_iff {s : State} {i : Nat} {l : Byte} (hp : s.decPhase = .body i) (hl : s.decHdr[0] = some l) :
    decoderInv s ↔ i ≤ l.toNat + 1 ∧ writtenTo 5 s.decHdr ∧ writtenTo (min i l.toNat) s.decPay ∧
      writtenTo (i - l.toNat) s.decCk ∧ runningSum s := by
  simp only [decoderInv, hp, declaredLength_eq hl]

theorem decoderInv_verify_iff {s : State} {l : Byte} (hp : s.decPhase = .verify) (hl : s.decHdr[0] = some l) :
    decoderInv s ↔ writtenTo 5 s.decHdr ∧ writtenTo l.toNat s.decPay ∧ writtenTo 2 s.decCk ∧ runningSum s := by
  simp only [decoderInv, hp, declaredLength_eq hl]

/-! ### DEC_CRC follows what is received -/

theorem crcOver_concat (acc : Word) (bs : List Byte) (b : Byte) : crcOver acc (bs ++ [b]) = crcStep (crcOver acc bs) b :=
  crcOver_append acc bs [b]

/-- A header byte is absorbed when no payload byte has been. -/
theorem runningSum_set_header {s : State} {k : Fin 5} (hhdr : writtenTo k s.decHdr) (hpay : writtenTo 0 s.decPay)
    (hsum : runningSum s) (b : Byte) :
    crcStep s.decCrc b = crcOver crcInitial (writtenValues (s.decHdr.set k (some b)) ++ writtenValues s.decPay) := by
  rw [writtenValues_set k.isLt hhdr, hsum, writtenValues_unwritten hpay, List.append_nil, List.append_nil, crcOver_concat]

/-- A payload byte is absorbed after those before it. -/
theorem runningSum_set_payload {s : State} {i : Nat} (hi : i < 255) (hpay : writtenTo i s.decPay) (hsum : runningSum s)
    (b : Byte) :
    crcStep s.decCrc b = crcOver crcInitial (writtenValues s.decHdr ++ writtenValues (s.decPay.set i (some b) hi)) := by
  rw [writtenValues_set hi hpay, hsum, ← List.append_assoc, crcOver_concat]

/-! ### A turn keeps the decoder's part -/

/-- DEC_PHASE after HEADER(k) takes a byte (42_decoder.md R145). -/
def afterHeader (k : Fin 5) : DecPhase := if h : k.val < 4 then .header ⟨k.val + 1, by omega⟩ else .body 0

theorem decoderInv_marker {s : State} (hp : s.decPhase = .seeking) (hinv : decoderInv s) (rest : List Symbol) :
    decoderInv { s with src := rest, decCrc := crcInitial, decPhase := .header 0 } := by
  obtain ⟨hhdr, hpay, hck⟩ := (decoderInv_seeking_iff hp).mp hinv
  refine (decoderInv_header_iff rfl).mpr ⟨hhdr, hpay, hck, ?_⟩
  show crcInitial = crcOver crcInitial (writtenValues s.decHdr ++ writtenValues s.decPay)
  rw [writtenValues_unwritten hhdr, writtenValues_unwritten hpay]
  rfl

theorem decoderInv_headerByte {s : State} {k : Fin 5} (hp : s.decPhase = .header k) (hinv : decoderInv s) (b : Byte)
    (rest : List Symbol) :
    decoderInv { s with
      src := rest, decHdr := s.decHdr.set k (some b), decCrc := crcStep s.decCrc b, decPhase := afterHeader k } := by
  obtain ⟨hhdr, hpay, hck, hsum⟩ := (decoderInv_header_iff hp).mp hinv
  have hhdr' := writtenTo_set (b := b) k.isLt hhdr
  have hsum' := runningSum_set_header hhdr hpay hsum b
  by_cases hk : k.val < 4
  · rw [afterHeader, dif_pos hk]
    exact (decoderInv_header_iff rfl).mpr ⟨hhdr', hpay, hck, hsum'⟩
  · obtain rfl : k = 4 := Fin.ext (by omega)
    obtain ⟨l, seq, sys, comp, msg, hfive⟩ := writtenTo_five hhdr'
    have hl : (s.decHdr.set 4 (some b))[0] = some l := congrArg (·[0]) hfive
    refine (decoderInv_body_iff rfl (by exact hl)).mpr ⟨Nat.zero_le _, hhdr', ?_, ?_, hsum'⟩
    · rwa [Nat.zero_min]
    · rwa [Nat.zero_sub]

theorem decoderInv_payloadByte {s : State} {i : Nat} {l : Byte} (hp : s.decPhase = .body i) (hl : s.decHdr[0] = some l)
    (hi : i < l.toNat) (hinv : decoderInv s) (b : Byte) (rest : List Symbol) :
    decoderInv { s with
      src := rest, decPay := s.decPay.setIfInBounds i (some b), decCrc := crcStep s.decCrc b, decPhase := .body (i + 1) } := by
  obtain ⟨-, hhdr, hpay, hck, hsum⟩ := (decoderInv_body_iff hp hl).mp hinv
  have hbound : i < 255 := by have := l.isLt; omega
  rw [Nat.min_eq_left hi.le] at hpay
  rw [Nat.sub_eq_zero_of_le hi.le] at hck
  rw [setIfInBounds_of_lt _ _ hbound]
  refine (decoderInv_body_iff rfl (by exact hl)).mpr
    ⟨by omega, hhdr, ?_, ?_, runningSum_set_payload hbound hpay hsum b⟩
  · rw [Nat.min_eq_left hi]
    exact writtenTo_set hbound hpay
  · rwa [Nat.sub_eq_zero_of_le hi]

theorem decoderInv_lowByte {s : State} {l : Byte} (hp : s.decPhase = .body l.toNat) (hl : s.decHdr[0] = some l)
    (hinv : decoderInv s) (b : Byte) (rest : List Symbol) :
    decoderInv { s with src := rest, decCk := s.decCk.set 0 (some b), decPhase := .body (l.toNat + 1) } := by
  obtain ⟨-, hhdr, hpay, hck, hsum⟩ := (decoderInv_body_iff hp hl).mp hinv
  rw [Nat.min_self] at hpay
  rw [Nat.sub_self] at hck
  refine (decoderInv_body_iff rfl (by exact hl)).mpr ⟨le_rfl, hhdr, ?_, ?_, hsum⟩
  · rwa [Nat.min_eq_right (Nat.le_succ _)]
  · rw [Nat.add_sub_cancel_left]
    exact writtenTo_set (by decide) hck

theorem decoderInv_highByte {s : State} {l : Byte} (hp : s.decPhase = .body (l.toNat + 1)) (hl : s.decHdr[0] = some l)
    (hinv : decoderInv s) (b : Byte) (rest : List Symbol) :
    decoderInv { s with src := rest, decCk := s.decCk.set 1 (some b), decPhase := .verify } := by
  obtain ⟨-, hhdr, hpay, hck, hsum⟩ := (decoderInv_body_iff hp hl).mp hinv
  rw [Nat.min_eq_right (Nat.le_succ _)] at hpay
  rw [Nat.add_sub_cancel_left] at hck
  exact (decoderInv_verify_iff rfl (by exact hl)).mpr ⟨hhdr, hpay, writtenTo_set (by decide) hck, hsum⟩

/-- A turn of the decoder keeps the decoder's part: a byte takes the part of its phase to that of the next, every end is IDLE. -/
theorem TurnEffect.decoderInv {s t : State} (h : TurnEffect s t) (hinv : decoderInv s) : Machine.decoderInv t := by
  cases h with
  | hold | skip => exact hinv
  | marker rest hp => exact decoderInv_marker hp hinv rest
  | header k b rest hp => exact decoderInv_headerByte hp hinv b rest
  | payload i l b rest hp hl hi => exact decoderInv_payloadByte hp hl hi hinv b rest
  | low l b rest hp hl => exact decoderInv_lowByte hp hl hinv b rest
  | high l b rest hp hl => exact decoderInv_highByte hp hl hinv b rest
  | seekEnd | cut => exact decoderInv_of_idle rfl
  | verify p => exact decoderInv_of_idle (concludeFrame_decPhase _ _ _)

/-- A command leaves the decoder's part, starts a decode with nothing written, or leaves the decoder IDLE. -/
theorem CommandEffect.decoderInv {s t : State} (h : CommandEffect s t) (hinv : decoderInv s) : Machine.decoderInv t := by
  cases h with
  | startDecode =>
    exact (decoderInv_seeking_iff rfl).mpr ⟨writtenTo_replicate 5, writtenTo_replicate 255, writtenTo_replicate 2⟩
  | bufferInvalid hd | bufferCut hd => exact decoderInv_of_idle hd
  | bufferWhole => exact decoderInv_of_idle (concludeFrame_decPhase _ _ _)
  | _ => exact hinv

/-! ### The encoder's and the registry's parts -/

/-- The encoder's part rests on the registry and the encoder's registers alone. -/
theorem encoderInv_congr {s t : State} (hcfg : t.cfg = s.cfg) (hreg : t.regList = s.regList) (henc : SameEncoder s t)
    (hinv : encoderInv s) : encoderInv t := by
  obtain ⟨hphase, hseq, hframe⟩ := henc
  simp only [encoderInv, hphase, hseq, hframe, lookup_congr hcfg hreg]
  exact hinv

theorem registryInv_congr {s t : State} (hcfg : t.cfg = s.cfg) (hreg : t.regList = s.regList) (hinv : registryInv s) :
    registryInv t := by
  rw [registryInv, hcfg, hreg]
  exact hinv

/-- The encoder's part with no request pending. -/
theorem encoderInv_of_idle {s : State} (he : s.encPhase = .idle) (hlen : s.encFrame.length ≤ 263) : encoderInv s :=
  ⟨hlen, fun hf => EncPhase.noConfusion (he.symm.trans hf)⟩

theorem TurnEffect.sameEncoder {s t : State} (h : TurnEffect s t) : SameEncoder s t := by
  cases h with
  | verify p => exact ⟨concludeFrame_encPhase _ _ _, concludeFrame_encSeq _ _ _, concludeFrame_encFrame _ _ _⟩
  | _ => exact ⟨rfl, rfl, rfl⟩

theorem CommandEffect.encoderInv {s t : State} (h : CommandEffect s t) (hinv : encoderInv s) : Machine.encoderInv t := by
  have ⟨hlen, _⟩ := hinv
  cases h with
  | registry l hd he => exact encoderInv_of_idle he hlen
  | bufferWhole _ crc p =>
    exact encoderInv_congr (s := startBuffer s) (concludeFrame_cfg _ _ _) (concludeFrame_regList _ _ _)
      ⟨concludeFrame_encPhase _ _ _, concludeFrame_encSeq _ _ _, concludeFrame_encFrame _ _ _⟩ hinv
  | encodeUnknown he => exact encoderInv_of_idle he (freeEncFrame_length s)
  | encode he sys comp msg payload x hp hx =>
    refine ⟨?_, fun _ => ⟨sys, comp, msg, x, payload, hp, hx, rfl⟩⟩
    rw [frameBytes_length]
    exact Nat.add_le_add_left hp 8
  | _ => exact hinv

/-- A registry command writes only indices that exist or were there before. -/
theorem CommandEffect.registryInv {s t : State} (h : CommandEffect s t) (hinv : registryInv s) : Machine.registryInv t := by
  cases h with
  | registry l hd he hl => exact fun d hm => (hl d hm).elim (hinv d) id
  | bufferWhole _ crc p =>
    exact registryInv_congr (s := startBuffer s) (concludeFrame_cfg _ _ _) (concludeFrame_regList _ _ _) hinv
  | _ => exact hinv

/-! ### Every move keeps the invariant -/

theorem CommandEffect.inv {s t : State} (h : CommandEffect s t) (hinv : Inv s) : Inv t where
  config := h.cfg_eq ▸ hinv.config
  registry := h.registryInv hinv.registry
  decoder := h.decoderInv hinv.decoder
  encoder := h.encoderInv hinv.encoder

theorem TurnEffect.inv {s t : State} (h : TurnEffect s t) (hinv : Inv s) : Inv t where
  config := h.cfg_eq ▸ hinv.config
  registry := registryInv_congr h.cfg_eq h.regList_eq hinv.registry
  decoder := h.decoderInv hinv.decoder
  encoder := encoderInv_congr h.cfg_eq h.regList_eq h.sameEncoder hinv.encoder

/-- Every answer ends the request. -/
theorem sinkAnswer_inv {a : Answer} {s t : State} (h : sinkAnswer a s = .next t) (hinv : Inv s) : Inv t := by
  obtain ⟨hconfig, hregistry, hdecoder, hlen, -⟩ := hinv
  obtain ⟨-, ⟨-, rfl⟩ | ⟨k, -, -, rfl⟩ | ⟨e, -, rfl⟩⟩ := sinkAnswer_eq_next h <;>
    exact ⟨hconfig, hregistry, hdecoder, encoderInv_of_idle rfl hlen⟩

theorem takeMove_inv {m : Move} {s t : State} (h : takeMove m s = .next t) (hinv : Inv s) : Inv t := by
  cases m with
  | command record =>
    obtain ⟨i, -, hi⟩ | ⟨op, -, rfl⟩ := issueRecord_eq_next h
    · exact (exec_effect hi).inv hinv
    · exact (CommandEffect.fault .illegal).inv hinv
  | source x => cases h; exact ⟨hinv.config, hinv.registry, hinv.decoder, hinv.encoder⟩
  | answer a => exact sinkAnswer_inv h hinv
  | decoder => exact (decoderTurn_effect h).inv hinv

/-- Taking moves off the list touches no part of the invariant. -/
theorem inv_withMoves {s : State} (hinv : Inv s) (ms : List Move) : Inv { s with moves := ms } :=
  ⟨hinv.config, hinv.registry, hinv.decoder, hinv.encoder⟩

/-- Settles O49: whichever move a step takes, it keeps each part of the invariant. -/
theorem stepKeepsTheInvariant : Obligations.StepKeepsTheInvariant := by
  intro s t hinv h
  obtain ⟨-, hturn⟩ | ⟨m, ms, -, hmove⟩ := step_cases h
  · exact (decoderTurn_effect hturn).inv hinv
  · exact takeMove_inv hmove (inv_withMoves hinv ms)

end Sys2Proof.Machine
end

section
/-! Progress: from a state that meets the invariant only an input without a move stops a step (spec/20_memory.md R55,
spec/30_encoding.md R84, spec/60_exceptions.md R237). -/

namespace Sys2Proof.Machine

/-! ### Commands -/

/-- A command whose counts fit their formats answers a next state. -/
theorem exec_of_wellFormed {i : Instr} (hwf : i.WellFormed) (s : State) : ∃ t, exec i s = .next t := by
  cases i with
  | crcBlock | regNew | decDecodeBuf | encPacket => exact ⟨_, withinFormat_of_le (of_decide_eq_true hwf)⟩
  | _ => exact ⟨_, rfl⟩

theorem issueRecord_progress (record : List Byte) (s : State) :
    (∃ t, issueRecord record s = .next t) ∨
      (decode record = .notWhole ∧ issueRecord record s = .refused .notWholeCommand) := by
  cases hd : decode record with
  | command i =>
    obtain ⟨t, ht⟩ := exec_of_wellFormed (encodeInvertsDecode record i hd).1 s
    exact .inl ⟨t, by simp only [issueRecord, hd, ht]⟩
  | illegal op => exact .inl ⟨_, issueRecord_of_illegal hd s⟩
  | notWhole => exact .inr ⟨rfl, issueRecord_of_notWhole hd s⟩

/-! ### The sink's answer -/

theorem sinkAnswer_progress (a : Answer) (s : State) :
    (∃ t, sinkAnswer a s = .next t) ∨ (s.encPhase = .idle ∧ sinkAnswer a s = .refused .noPendingRequest) ∨
      ∃ k, a = .accepted k ∧ s.encPhase = .flush ∧ s.encFrame.length < k ∧ sinkAnswer a s = .refused .acceptedTooMuch := by
  cases he : s.encPhase with
  | idle => exact .inr (.inl ⟨rfl, sinkAnswer_of_idle he a⟩)
  | flush =>
    cases a with
    | err e => exact .inl ⟨_, sinkAnswer_err he e⟩
    | accepted k =>
      obtain hk | hk := Nat.lt_or_ge s.encFrame.length k
      · exact .inr (.inr ⟨k, rfl, rfl, hk, sinkAnswer_of_tooMuch he hk⟩)
      · exact .inl ⟨_, sinkAnswer_accepted he hk⟩

/-! ### The decoder's turn -/

/-- The values of a file written up to `k`, in front of its unwritten registers. -/
theorem toList_take_of_writtenTo {n k : Nat} {v : Vector (Option Byte) n} (hk : k ≤ n) (h : writtenTo k v) :
    (writtenValues v).length = k ∧ v.toList.take k = (writtenValues v).map some := by
  obtain ⟨bs, hlen, hv⟩ := writtenTo_toList hk h
  rw [writtenValues_eq hv, hv]
  exact ⟨hlen, List.take_left' ((List.length_map _).trans hlen)⟩

/-- In VERIFY the frame registers are a whole frame: five header bytes, L payload bytes, two checksum bytes and their Packet. -/
theorem frame_of_verify {s : State} (hp : s.decPhase = .verify) (hinv : decoderInv s) :
    ∃ l seq sys comp msg lo hi, s.decHdr = #v[some l, some seq, some sys, some comp, some msg] ∧
      s.decCk = #v[some lo, some hi] ∧ (writtenValues s.decPay).length = l.toNat ∧
      s.decCrc = crcOver crcInitial (l :: seq :: sys :: comp :: msg :: writtenValues s.decPay) ∧
      packetOf s.decHdr s.decPay s.decCk = some ⟨seq, sys, comp, msg, payloadOf (writtenValues s.decPay), le16 lo hi⟩ := by
  have hphase := hinv
  simp only [decoderInv, hp] at hphase
  obtain ⟨hwritten, -⟩ := hphase
  obtain ⟨l, seq, sys, comp, msg, hhdr⟩ := writtenTo_five hwritten
  obtain ⟨-, hpay, hck, -⟩ := (decoderInv_verify_iff hp (l := l) (by rw [hhdr]; rfl)).mp hinv
  obtain ⟨lo, hi, hck⟩ := writtenTo_two hck
  obtain ⟨hlen, htake⟩ := toList_take_of_writtenTo (by have := l.isLt; omega) hpay
  refine ⟨l, seq, sys, comp, msg, lo, hi, hhdr, hck, hlen, ?_, by rw [hhdr, hck, packetOf_eq htake]⟩
  exact decCrc_of_decoderInv_verify (payload := writtenValues s.decPay) hinv hp hhdr hlen (by rwa [hlen])

/-- In BODY(i) the header registers are written, and i is at most L + 1. -/
theorem header_of_body {s : State} {i : Nat} (hp : s.decPhase = .body i) (hinv : decoderInv s) :
    ∃ l seq sys comp msg, s.decHdr = #v[some l, some seq, some sys, some comp, some msg] ∧ i ≤ l.toNat + 1 := by
  have hphase := hinv
  simp only [decoderInv, hp] at hphase
  obtain ⟨-, hwritten, -⟩ := hphase
  obtain ⟨l, seq, sys, comp, msg, hhdr⟩ := writtenTo_five hwritten
  obtain ⟨hi, -⟩ := (decoderInv_body_iff hp (l := l) (by rw [hhdr]; rfl)).mp hinv
  exact ⟨l, seq, sys, comp, msg, hhdr, hi⟩

theorem bodyByte_progress {i l : Nat} (hi : i ≤ l + 1) (b : Byte) (s : State) : ∃ t, bodyByte i l b s = .next t := by
  obtain hlt | rfl | rfl : i < l ∨ i = l ∨ i = l + 1 := by omega
  · exact ⟨_, if_pos hlt⟩
  · exact ⟨_, bodyByte_low i b s⟩
  · exact ⟨_, bodyByte_high l b s⟩

theorem bodyStep_progress {s : State} {i : Nat} (hp : s.decPhase = .body i) (hinv : decoderInv s) (x : Symbol)
    (rest : List Symbol) : ∃ t, bodyStep i x { s with src := rest } = .next t := by
  obtain ⟨l, seq, sys, comp, msg, hhdr, hi⟩ := header_of_body hp hinv
  have hcut := bodyCut_of_header (s := { s with src := rest }) (seq := seq) (sys := sys) (comp := comp) (msg := msg)
    (by simp [hhdr]) (by simp [hhdr]) (by simp [hhdr]) (by simp [hhdr])
  cases x with
  | byte b =>
    rw [bodyStep_byte_of_length (l := l) (by simp [hhdr])]
    exact bodyByte_progress hi b _
  | endOfSource => exact ⟨_, hcut .truncated⟩
  | err e => exact ⟨_, hcut (.ioError e)⟩

/-- A turn of the decoder under the decoder's part of the invariant answers a next state. -/
theorem decoderTurn_progress {s : State} (hinv : decoderInv s) : ∃ t, decoderTurn s = .next t := by
  by_cases hv : s.decPhase = .verify
  · obtain ⟨l, seq, sys, comp, msg, lo, hi, -, -, -, -, hpk⟩ := frame_of_verify hv hinv
    exact ⟨_, decoderTurn_of_verify hv hpk⟩
  · cases hs : s.src with
    | nil => exact ⟨s, decoderTurn_of_empty hv hs⟩
    | cons x rest =>
      cases hp : s.decPhase with
      | idle => exact ⟨s, decoderTurn_of_idle hp⟩
      | seeking => exact ⟨_, decoderTurn_of_seeking hp hs⟩
      | header k => exact ⟨_, decoderTurn_of_header hp hs⟩
      | body i =>
        rw [decoderTurn_of_body hp hs]
        exact bodyStep_progress hp hinv x rest
      | verify => exact absurd hp hv

/-! ### The step -/

/-- The three inputs that the spec gives no move, and how each is refused. -/
def RefusedInput (s : State) (r : Refusal) : Prop :=
  (∃ record ms, s.moves = .command record :: ms ∧ decode record = .notWhole ∧ r = .notWholeCommand) ∨
  (∃ a ms, s.moves = .answer a :: ms ∧ s.encPhase = .idle ∧ r = .noPendingRequest) ∨
  (∃ k ms, s.moves = .answer (.accepted k) :: ms ∧ s.encPhase = .flush ∧ s.encFrame.length < k ∧ r = .acceptedTooMuch)

/-- A step from a state that meets the invariant goes on, or its input has no move. -/
theorem step_progress {s : State} (hinv : Inv s) : (∃ t, step s = .next t) ∨ ∃ r, step s = .refused r ∧ RefusedInput s r := by
  cases hm : s.moves with
  | nil =>
    rw [step_of_moves_nil hm]
    exact .inl (decoderTurn_progress hinv.decoder)
  | cons m ms =>
    rw [step_of_moves_cons hm]
    cases m with
    | command record =>
      obtain hnext | ⟨hd, hr⟩ := issueRecord_progress record { s with moves := ms }
      · exact .inl hnext
      · exact .inr ⟨_, hr, .inl ⟨record, ms, hm, hd, rfl⟩⟩
    | source x => exact .inl ⟨_, rfl⟩
    | answer a =>
      obtain hnext | ⟨he, hr⟩ | ⟨k, rfl, hf, hk, hr⟩ := sinkAnswer_progress a { s with moves := ms }
      · exact .inl hnext
      · exact .inr ⟨_, hr, .inr (.inl ⟨a, ms, hm, he, rfl⟩)⟩
      · exact .inr ⟨_, hr, .inr (.inr ⟨k, ms, hm, hf, hk, rfl⟩)⟩
    | decoder => exact .inl (decoderTurn_progress (s := { s with moves := ms }) hinv.decoder)

/-- Settles O50: by progress, a step that does not go on is refused for one of the three inputs. -/
theorem stepStopsOnlyOnInputsWithoutMove : Obligations.StepStopsOnlyOnInputsWithoutMove := by
  intro s hinv
  obtain ⟨t, ht⟩ | ⟨r, hr, hinput⟩ := step_progress hinv
  · exact ⟨fun r h => by simp [ht] at h, fun r h => by simp [ht] at h⟩
  · refine ⟨fun r' h => by simp [hr] at h, fun r' h => ?_⟩
    obtain rfl : r = r' := by simpa [hr] using h
    exact hinput

end Sys2Proof.Machine
end

section
/-! DEC.DECODE_BUF, every outcome (spec/42_decoder.md R160 to R166): its operand's view decides, and the verdict on a whole frame. -/

namespace Sys2Proof.Machine

/-- The record of a DEC.DECODE_BUF: the opcode, the count as a 16-bit little-endian number, the buffer (30_encoding.md R80). -/
theorem decode_decDecodeBuf {buf : List Byte} (h : buf.length ≤ maxBlock) :
    decode (0x21 :: BitVec.ofNat 8 buf.length :: BitVec.ofNat 8 (buf.length / 256) :: buf) =
      .command (.decDecodeBuf buf) := by
  rw [← loByte_ofNat, ← hiByte_ofNat]
  exact takeCB_of_count .decDecodeBuf h

theorem exec_decDecodeBuf_of_tooLong {s : State} {buf : List Byte} (hd : s.decPhase = .idle) (hlen : buf.length ≤ maxBlock)
    (hmax : s.cfg.maxBuf < buf.length) : exec (.decDecodeBuf buf) s = .next (recordFault .badOperand s) := by
  rw [exec_decDecodeBuf_of_idle hd hlen, decodeBuffer_of_tooLong hmax]

theorem exec_decDecodeBuf_of_view {s : State} {buf : List Byte} {v : BufferView} (hd : s.decPhase = .idle)
    (hlen : buf.length ≤ maxBlock) (hmax : buf.length ≤ s.cfg.maxBuf) (hv : viewBuffer buf = some v) :
    exec (.decDecodeBuf buf) s = .next (answerBuffer v (startBuffer s)) := by
  rw [exec_decDecodeBuf_of_idle hd hlen, decodeBuffer_of_view hmax hv]

/-- Fewer than six bytes, or another first byte than the marker (42_decoder.md R161). -/
theorem viewBuffer_of_noHeader {buf : List Byte} (h : buf.length < 6 ∨ buf[0]? ≠ some startMarker) :
    viewBuffer buf = some .invalidHeader := by
  obtain hshort | hne := h
  · exact viewBuffer_short hshort
  · cases buf with
    | nil => exact viewBuffer_short (by decide)
    | cons b tail => exact viewBuffer_noMarker fun hb => hne (congrArg some hb)

/-! ### The verdict on an idle decoder -/

section Verdict

variable {b : State} (hb : b.decPhase = .idle) {p : Packet}
include hb

theorem concludeFrame_idle_unknown (h : lookup b p.messageId = none) (crc : Word) :
    concludeFrame crc p b = respond .decoder ⟨.unknownMessage, some p, none⟩ b := by
  rw [concludeFrame_of_unknown h, withIdle_of_idle hb]

variable {x : Byte} (hx : lookup b p.messageId = some x) {covered : List Byte}
include hx

theorem concludeFrame_idle_mismatch (hc : crcOver crcInitial (covered ++ [x]) ≠ p.checksum) :
    concludeFrame (crcOver crcInitial covered) p b = respond .decoder ⟨.checksumMismatch, some p, none⟩ b := by
  rw [crcOver_concat] at hc
  rw [concludeFrame_of_mismatch hx hc, withIdle_of_idle hb]

theorem concludeFrame_idle_match (hc : crcOver crcInitial (covered ++ [x]) = p.checksum) :
    concludeFrame (crcOver crcInitial covered) p b =
      respond .decoder ⟨.ok, some p, none⟩ { b with decSeq := p.sequenceId } := by
  rw [crcOver_concat] at hc
  rw [concludeFrame_of_match hx hc, withIdle_decSeq_of_idle hb]

end Verdict

/-- Settles O31: an idle decoder and an operand within MAX_BUF leave the three views of the buffer; the view of a whole frame gets
the verdict. -/
theorem decDecodeBufCommand : Obligations.DecDecodeBufCommand := by
  intro buf s hlen
  refine ⟨decode_decDecodeBuf hlen, fun hd => exec_decDecodeBuf_of_busy hd hlen,
    fun hd hmax => exec_decDecodeBuf_of_tooLong hd hlen hmax,
    fun hd hmax => ⟨startBuffer s, bufferStarted_startBuffer s, fun hno => ?_, ?_, ?_⟩,
    fun hd h8 hx => ⟨startBuffer s, bufferStarted_startBuffer s, ?_⟩⟩
  · exact exec_decDecodeBuf_of_view hd hlen hmax (viewBuffer_of_noHeader hno)
  · rintro l seq sys comp msg tail rfl hcut
    refine ⟨_, _, _, exec_decDecodeBuf_of_view hd hlen hmax (viewBuffer_cut ?_)⟩
    simp only [List.length_cons] at hcut
    omega
  · rintro l lo hi tail ⟨seq, sys, comp, msg, payload, _⟩ rfl hpay rfl
    have hview := viewBuffer_whole (seq := seq) (sys := sys) (comp := comp) (msg := msg) (lo := lo) (hi := hi) (tail := tail) hpay
    rw [payloadOf_bytes] at hview
    rw [exec_decDecodeBuf_of_view hd hlen hmax hview]
    exact ⟨fun hnone => congrArg _ (concludeFrame_idle_unknown (b := startBuffer s) hd hnone _),
      fun x hx => ⟨fun hne => congrArg _ (concludeFrame_idle_mismatch (b := startBuffer s) hd hx hne),
        fun heq => congrArg _ (concludeFrame_idle_match (b := startBuffer s) hd hx heq)⟩⟩
  · rw [exec_decDecodeBuf_exampleFrame hd h8 hx, withIdle_decSeq_of_idle (s := startBuffer s) hd]
    rfl

end Sys2Proof.Machine
end

section
/-! Frames the encoder builds (spec/43_encoder.md R192, R201, R202): what both decoders make of them, and N encodes in a row. -/

namespace Sys2Proof.Machine

/-! ### Decoding a frame -/

/-- The checksum of a frame (30_encoding.md R72). -/
def frameSum (seq sys comp msg : Byte) (payload : List Byte) (x : Byte) : Word :=
  frameChecksum (BitVec.ofNat 8 payload.length :: seq :: sys :: comp :: msg :: payload) x

/-- The Packet of a frame (10_state.md R30): its header fields, its payload and its checksum. -/
def framePacket (seq sys comp msg : Byte) (payload : List Byte) (x : Byte) : Packet :=
  ⟨seq, sys, comp, msg, payloadOf payload, frameSum seq sys comp msg payload x⟩

theorem frameSum_eq (seq sys comp msg : Byte) (payload : List Byte) (x : Byte) :
    frameSum seq sys comp msg payload x =
      crcOver crcInitial (BitVec.ofNat 8 payload.length :: seq :: sys :: comp :: msg :: payload ++ [x]) := by
  rw [frameSum, frameChecksum]

/-- The same sum over the parts that 43_encoder.md R192 lists. -/
theorem framePacket_checksum (seq sys comp msg : Byte) (payload : List Byte) (x : Byte) :
    (framePacket seq sys comp msg payload x).checksum =
      crcOver 0xFFFF ([BitVec.ofNat 8 payload.length, seq, sys, comp, msg] ++ payload ++ [x]) := by
  simp only [framePacket, frameSum_eq, crcInitial, List.cons_append, List.nil_append]

/-- A frame ends with the two bytes of its checksum. -/
theorem frameBytes_eq_cons (seq sys comp msg : Byte) (payload : List Byte) (x : Byte) :
    frameBytes seq sys comp msg payload x =
      startMarker :: BitVec.ofNat 8 payload.length :: seq :: sys :: comp :: msg ::
        (payload ++ [loByte (frameSum seq sys comp msg payload x), hiByte (frameSum seq sys comp msg payload x)]) := by
  simp [frameBytes, frameSum]

/-- The sum of the bytes covered and the crc-extra is the checksum received. -/
theorem frameStatus_of_match {covered : List Byte} {x : Byte} {received : Word}
    (h : crcOver crcInitial (covered ++ [x]) = received) :
    frameStatus (some x) (crcOver crcInitial covered) received = .ok := by
  rw [crcOver_concat] at h
  exact if_pos h

theorem frameStatus_of_mismatch {covered : List Byte} {x : Byte} {received : Word}
    (h : crcOver crcInitial (covered ++ [x]) ≠ received) :
    frameStatus (some x) (crcOver crcInitial covered) received = .checksumMismatch := by
  rw [crcOver_concat] at h
  exact if_neg h

/-- The length byte of a frame is the number of its payload bytes. -/
theorem length_eq_toNat_ofNat {payload : List Byte} (h : payload.length ≤ maxPayload) :
    payload.length = (BitVec.ofNat 8 payload.length).toNat := by
  rw [BitVec.toNat_ofNat, Nat.mod_eq_of_lt (Nat.lt_succ_of_le h)]

theorem concludeFrame_framePacket {b : State} {seq sys comp msg x : Byte} {payload : List Byte} (hb : b.decPhase = .idle)
    (hx : lookup b msg = some x) :
    concludeFrame (crcOver crcInitial (BitVec.ofNat 8 payload.length :: seq :: sys :: comp :: msg :: payload))
      (framePacket seq sys comp msg payload x) b =
      respond .decoder ⟨.ok, some (framePacket seq sys comp msg payload x), none⟩ { b with decSeq := seq } := by
  refine concludeFrame_idle_match (p := framePacket seq sys comp msg payload x) hb hx ?_
  rw [framePacket, frameSum_eq]

section Frame

variable {seq sys comp msg x : Byte} {payload : List Byte} (hlen : payload.length ≤ maxPayload)
include hlen

/-- A buffer decode of a frame under a registry that gives its crc-extra is a success. -/
theorem exec_decDecodeBuf_frameBytes {d : State} (hd : d.decPhase = .idle) (hx : lookup d msg = some x)
    (hmax : (frameBytes seq sys comp msg payload x).length ≤ d.cfg.maxBuf) :
    exec (.decDecodeBuf (frameBytes seq sys comp msg payload x)) d =
      .next (respond .decoder ⟨.ok, some (framePacket seq sys comp msg payload x), none⟩
        { startBuffer d with decSeq := seq }) := by
  have hl := length_eq_toNat_ofNat hlen
  rw [frameBytes_length, hl] at hmax
  rw [frameBytes_eq_cons, exec_decDecodeBuf_whole hd hl hmax, le16_loByte_hiByte, ← framePacket]
  exact congrArg _ (concludeFrame_framePacket (b := startBuffer d) hd hx)

/-- So is a stream decode, whatever follows the frame. -/
theorem decodeStream_frameBytes {find : Byte → Option Byte} (hx : find msg = some x) (after : List Symbol) :
    decodeStream find ((frameBytes seq sys comp msg payload x).map Symbol.byte ++ after) =
      some (.whole .ok (framePacket seq sys comp msg payload x), after) := by
  rw [frameBytes_eq_cons, decodeStream_whole find (length_eq_toNat_ofNat hlen), le16_loByte_hiByte, hx,
    frameStatus_of_match (frameSum_eq seq sys comp msg payload x).symm]
  rfl

end Frame

/-! ### Round trip -/

/-- An ENC.PACKET that leaves a request pending has found its id, and the request is the frame. -/
theorem exec_encPacket_flush {q sys comp msg : Byte} {payload : List Byte} {s t : State} (he : s.encPhase = .idle)
    (h : exec (.encPacket q sys comp msg payload) s = .next t) (hf : t.encPhase = .flush) :
    payload.length ≤ maxPayload ∧
      ∃ x, lookup s msg = some x ∧ t.encFrame = frameBytes s.encSeq sys comp msg payload x := by
  have ⟨hlen, _⟩ := withinFormat_eq_next.mp h
  refine ⟨hlen, ?_⟩
  cases hx : lookup s msg with
  | none =>
    rw [exec_encPacket_of_unknown hlen he hx] at h
    cases h
    exact absurd (he.symm.trans hf) EncPhase.noConfusion
  | some x =>
    rw [exec_encPacket_of_found hlen he hx] at h
    cases h
    exact ⟨x, rfl, rfl⟩

/-- Settles O45: the request is a frame with the encoder's sequence id, and both decoders take a frame to its Packet. -/
theorem decodeInvertsEncodePacket : Obligations.DecodeInvertsEncodePacket := by
  intro q sys comp msg payload s t d he h hf hcfg hreg hd hmax
  obtain ⟨hlen, x, hx, hframe⟩ := exec_encPacket_flush he h hf
  rw [hframe] at hmax ⊢
  have hxd : lookup d msg = some x := (lookup_congr hcfg hreg msg).trans hx
  exact ⟨framePacket s.encSeq sys comp msg payload x, rfl, rfl, rfl, rfl, payloadOf_bytes_of_le hlen,
    ⟨x, hx, framePacket_checksum _ _ _ _ _ _⟩,
    ⟨startBuffer d, bufferStarted_startBuffer d, exec_decDecodeBuf_frameBytes hlen hd hxd hmax⟩,
    decodeStream_frameBytes hlen hxd⟩

/-! ### N encodes in a row -/

/-- The sequence ids after the first frame. -/
theorem succ_add_ofNat (n : Byte) (j : Nat) : n + 1 + BitVec.ofNat 8 j = n + BitVec.ofNat 8 (j + 1) := by
  rw [BitVec.add_assoc, BitVec.ofNat_add, BitVec.add_comm (BitVec.ofNat 8 j)]
  rfl

/-- Settles O44: by induction on the packets; after one encode the state meets the premises again, with ENC_SEQ one further. -/
theorem sequenceIdsAreConsecutive : Obligations.SequenceIdsAreConsecutive := by
  intro ps
  induction ps with
  | nil =>
    intro s ms he hm _
    exact ⟨s, [], rfl, hm, he, by simp, by simp, rfl, by simp, by simp⟩
  | cons p ps ih =>
    obtain ⟨q, sys, comp, msg, payload⟩ := p
    intro s ms he hm hps
    obtain ⟨hlen, hfound⟩ := hps q sys comp msg payload (List.mem_cons_self ..)
    obtain ⟨x, hx⟩ := Option.ne_none_iff_exists'.mp hfound
    obtain ⟨t, frames, hrun, hmoves, hphase, hseq, hsnk, hcount, hresp, hframes⟩ :=
      ih (afterEncode (frameBytes s.encSeq sys comp msg payload x) (encodeMoves ps ++ ms) s) ms rfl rfl
        fun q sys comp msg payload hp => hps q sys comp msg payload (List.mem_cons_of_mem _ hp)
    refine ⟨t, frameBytes s.encSeq sys comp msg payload x :: frames, ?_, hmoves, hphase, ?_, ?_, ?_, ?_, ?_⟩
    · exact (run_encode he hlen hx hm (2 * ps.length)).trans hrun
    · exact hseq.trans (succ_add_ofNat s.encSeq ps.length)
    · rw [hsnk, List.flatten_cons, ← List.append_assoc]
      rfl
    · rw [List.length_cons, hcount, List.length_cons]
    · rw [hresp, List.length_cons, List.replicate_succ, List.append_cons]
      rfl
    · rintro (_ | j) q' sys' comp' msg' payload' hj
      · cases hj
        exact ⟨_, rfl, hlen, x, hx, by rw [BitVec.add_zero]⟩
      · obtain ⟨F, hF, hvalid⟩ := hframes j q' sys' comp' msg' payload' hj
        rw [← succ_add_ofNat]
        exact ⟨F, hF, hvalid⟩

end Sys2Proof.Machine
end

section
/-! Streaming decode step by step and as one function (spec/42_decoder.md R154). The idea: put the bytes of the frame received so far
back in front of SRC. A turn that goes on leaves that list as it was, up to garbage it skips, so `decode(SRC)` of it says from
the first turn to the last how the decode ends. -/

namespace Sys2Proof.Machine

/-! ### The bytes of the frame in progress -/

/-- The bytes of the frame received so far, the marker first; none outside a frame. -/
def received (s : State) : List Byte :=
  match s.decPhase with
  | .idle => []
  | .seeking => []
  | .header _ | .body _ | .verify =>
    startMarker :: (writtenValues s.decHdr ++ writtenValues s.decPay ++ writtenValues s.decCk)

/-- SRC with the bytes of the frame in progress put back. -/
def restored (s : State) : List Symbol := (received s).map Symbol.byte ++ s.src

theorem restored_of_seeking {s : State} (hp : s.decPhase = .seeking) : restored s = s.src := by
  simp [restored, received, hp]

theorem received_of_header {s : State} {k : Fin 5} (hp : s.decPhase = .header k) (hinv : decoderInv s) :
    received s = startMarker :: writtenValues s.decHdr := by
  obtain ⟨-, hpay, hck, -⟩ := (decoderInv_header_iff hp).mp hinv
  simp [received, hp, writtenValues_unwritten hpay, writtenValues_unwritten hck]

theorem received_of_body {s : State} {i : Nat} (hp : s.decPhase = .body i) :
    received s = startMarker :: (writtenValues s.decHdr ++ writtenValues s.decPay ++ writtenValues s.decCk) := by
  simp only [received, hp]

theorem received_of_verify {s : State} (hp : s.decPhase = .verify) :
    received s = startMarker :: (writtenValues s.decHdr ++ writtenValues s.decPay ++ writtenValues s.decCk) := by
  simp only [received, hp]

theorem afterHeader_ne_idle (k : Fin 5) : afterHeader k ≠ .idle := by
  unfold afterHeader
  split <;> exact DecPhase.noConfusion

theorem received_headerByte {s : State} {k : Fin 5} (hp : s.decPhase = .header k) (hinv : decoderInv s) (b : Byte)
    (rest : List Symbol) :
    received { s with
      src := rest, decHdr := s.decHdr.set k (some b), decCrc := crcStep s.decCrc b, decPhase := afterHeader k } =
      received s ++ [b] := by
  obtain ⟨hhdr, hpay, hck, -⟩ := (decoderInv_header_iff hp).mp hinv
  rw [received_of_header hp hinv, List.cons_append, ← writtenValues_set k.isLt hhdr]
  by_cases hk : k.val < 4 <;>
    simp [received, afterHeader, hk, writtenValues_unwritten hpay, writtenValues_unwritten hck]

/-- A byte that moves from SRC to the frame registers leaves the restored source. -/
theorem restored_of_received_concat {s t : State} {b : Byte} (hs : s.src = .byte b :: t.src)
    (h : received t = received s ++ [b]) : restored t = restored s := by
  simp [restored, h, hs]

/-! ### Taking bytes from a source that ends early -/

/-- The status that End or Err gives inside a frame (42_decoder.md R146, R150); a byte ends nothing. -/
def cutStatus : Symbol → Option Status
  | .byte _ => none
  | .endOfSource => some .truncated
  | .err e => some (.ioError e)

theorem exists_byte_of_cutStatus {x : Symbol} (h : cutStatus x = none) : ∃ b, x = .byte b := by
  cases x with
  | byte b => exact ⟨b, rfl⟩
  | endOfSource => cases h
  | err e => cases h

theorem headerStep_of_cut {x : Symbol} {st : Status} (h : cutStatus x = some st) (k : Fin 5) (s : State) :
    headerStep k x s = respond .decoder ⟨st, freeHeaderDiagnostic s, none⟩ (drawn { s with decPhase := .idle }) := by
  cases x <;> cases h <;> rfl

theorem bodyStep_of_cut {x : Symbol} {st : Status} (h : cutStatus x = some st) (i : Nat) (s : State) :
    bodyStep i x s = bodyCut st s := by
  cases x <;> cases h <;> rfl

/-- The source ends before the bytes asked for are there. -/
theorem takeBytes_short {bs : List Byte} {n : Nat} (h : bs.length < n) : takeBytes n (bs.map Symbol.byte) = none := by
  induction bs generalizing n with
  | nil =>
    obtain ⟨n, rfl⟩ := Nat.exists_eq_succ_of_ne_zero (Nat.ne_of_gt h)
    rfl
  | cons b bs ih =>
    obtain ⟨n, rfl⟩ := Nat.exists_eq_succ_of_ne_zero (Nat.ne_of_gt (Nat.zero_lt_of_lt h))
    rw [List.map_cons, takeBytes_cons]
    simp only [ih (Nat.lt_of_succ_lt_succ h)]

/-- End or Err comes before the bytes asked for are there. -/
theorem takeBytes_cut {bs : List Byte} {n : Nat} {x : Symbol} {st : Status} (h : bs.length < n) (hx : cutStatus x = some st)
    (rest : List Symbol) : takeBytes n (bs.map Symbol.byte ++ x :: rest) = some (.inr st, rest) := by
  induction bs generalizing n with
  | nil =>
    obtain ⟨n, rfl⟩ := Nat.exists_eq_succ_of_ne_zero (Nat.ne_of_gt h)
    cases x with
    | byte b => cases hx
    | endOfSource => cases hx; rfl
    | err e => cases hx; rfl
  | cons b bs ih =>
    obtain ⟨n, rfl⟩ := Nat.exists_eq_succ_of_ne_zero (Nat.ne_of_gt (Nat.zero_lt_of_lt h))
    rw [List.map_cons, List.cons_append, takeBytes_cons]
    simp only [ih (Nat.lt_of_succ_lt_succ h)]

theorem decodeStream_marker (find : Byte → Option Byte) (src : List Symbol) :
    decodeStream find (.byte startMarker :: src) = streamFrame find src := by
  rw [decodeStream]
  exact if_pos rfl

theorem streamFrame_header (find : Byte → Option Byte) (l seq sys comp msg : Byte) (src : List Symbol) :
    streamFrame find ([l, seq, sys, comp, msg].map Symbol.byte ++ src) = streamBody find l seq sys comp msg src := by
  rw [streamFrame, show takeBytes 5 _ = _ from takeBytes_bytes [l, seq, sys, comp, msg] src]
  rfl

/-! ### One turn -/

/-- From `s` to `t` the decoder has moved on inside one decode: only SRC, DEC_PHASE, the frame registers and DEC_CRC differ. -/
def SameButFrame (s t : State) : Prop :=
  ∃ src ph hdr pay ck crc,
    t = { s with src := src, decPhase := ph, decHdr := hdr, decPay := pay, decCk := ck, decCrc := crc }

theorem SameButFrame.lookup_eq {s t : State} (h : SameButFrame s t) : lookup t = lookup s := by
  obtain ⟨src, ph, hdr, pay, ck, crc, rfl⟩ := h
  rfl

theorem SameButFrame.moves_eq {s t : State} (h : SameButFrame s t) : t.moves = s.moves := by
  obtain ⟨src, ph, hdr, pay, ck, crc, rfl⟩ := h
  rfl

/-- A decode that ends from where it has moved on to ends from where it was. -/
theorem DecodeEnded.of_sameButFrame {result : StreamResult} {s t u : State} (h : SameButFrame s t)
    (hu : DecodeEnded result t u) : DecodeEnded result s u := by
  obtain ⟨src, ph, hdr, pay, ck, crc, rfl⟩ := h
  exact ⟨hu.idle, hu.response, hu.sequence, hu.cfg, hu.acc, hu.registry, ⟨hu.encoder.phase, hu.encoder.seq, hu.encoder.frame⟩,
    hu.sink, hu.faults⟩

/-- A turn of a busy decoder whose restored source decodes to `result` and leaves `rest`: it ends the decode so, or it goes on, one
symbol further. -/
inductive TurnSimulates (s : State) (result : StreamResult) (rest : List Symbol) : Prop where
  | ends (t : State) (hturn : decoderTurn s = .next t) (hended : DecodeEnded result s t) (hsrc : t.src = rest)
      (hmoves : t.moves = s.moves)
  | goesOn (t : State) (x : Symbol) (hturn : decoderTurn s = .next t) (hsrc : s.src = x :: t.src) (hbusy : t.decPhase ≠ .idle)
      (hframe : SameButFrame s t) (hdecode : decodeStream (lookup t) (restored t) = some (result, rest))

/-- A turn that takes a byte into the frame goes on. -/
theorem turnSimulates_of_byte {s t : State} {result : StreamResult} {rest : List Symbol} {b : Byte}
    (hdecode : decodeStream (lookup s) (restored s) = some (result, rest)) (hturn : decoderTurn s = .next t)
    (hs : s.src = .byte b :: t.src) (hbusy : t.decPhase ≠ .idle) (hframe : SameButFrame s t)
    (hreceived : received t = received s ++ [b]) : TurnSimulates s result rest :=
  .goesOn t _ hturn hs hbusy hframe (by rw [hframe.lookup_eq, restored_of_received_concat hs hreceived, hdecode])

theorem responseFits_plain (st : Status) : responseFits (.plain st) ⟨st, none, none⟩ := ⟨rfl, rfl, rfl⟩

theorem responseFits_headerCut (st : Status) (diag : Option Packet) : responseFits (.headerCut st) ⟨st, diag, none⟩ := ⟨rfl, rfl⟩

theorem responseFits_bodyCut (st : Status) (seq sys comp msg : Byte) (pay : Payload) (ck : Word) :
    responseFits (.bodyCut st seq sys comp msg) ⟨st, some ⟨seq, sys, comp, msg, pay, ck⟩, none⟩ := ⟨rfl, rfl, pay, ck, rfl⟩

theorem responseFits_whole_iff {st : Status} {p : Packet} {r : Response} :
    responseFits (.whole st p) r ↔ r = ⟨st, some p, none⟩ := by
  obtain ⟨status, packet, value⟩ := r
  simp only [responseFits, Response.mk.injEq]
  exact ⟨fun ⟨hv, hs, hp⟩ => ⟨hs, hp, hv⟩, fun ⟨hs, hp, hv⟩ => ⟨hv, hs, hp⟩⟩

/-- A decode that ends with one response, DEC_SEQ as it was. -/
theorem decodeEnded_respond {result : StreamResult} {r : Response} {s : State} (hfits : responseFits result r)
    (hseq : sequenceAfter result s.decSeq = s.decSeq) (src : List Symbol) (n : Nat) :
    DecodeEnded result s (respond .decoder r { s with src := src, decPhase := .idle, draws := n }) :=
  ⟨rfl, ⟨r, rfl, hfits⟩, hseq.symm, rfl, rfl, rfl, ⟨rfl, rfl, rfl⟩, rfl, rfl⟩

/-- SEEKING: a marker starts the frame, another byte is garbage, End or Err ends the decode. -/
theorem turnSimulates_seeking {s : State} {result : StreamResult} {rest : List Symbol} (hp : s.decPhase = .seeking)
    (hinv : decoderInv s) (hdecode : decodeStream (lookup s) (restored s) = some (result, rest)) :
    TurnSimulates s result rest := by
  rw [restored_of_seeking hp] at hdecode
  cases hs : s.src with
  | nil => simp [hs, decodeStream] at hdecode
  | cons x src =>
    have hturn := decoderTurn_of_seeking hp hs
    rw [hs] at hdecode
    cases x with
    | endOfSource =>
      cases hdecode
      exact .ends _ hturn (decodeEnded_respond (responseFits_plain _) rfl _ s.draws) rfl rfl
    | err e =>
      cases hdecode
      exact .ends _ hturn (decodeEnded_respond (responseFits_plain _) rfl _ s.draws) rfl rfl
    | byte b =>
      by_cases hb : b = startMarker
      · subst hb
        rw [seekStep_marker] at hturn
        refine .goesOn _ _ hturn hs DecPhase.noConfusion ⟨_, _, _, _, _, _, rfl⟩ ?_
        obtain ⟨hhdr, -, -⟩ := (decoderInv_seeking_iff hp).mp hinv
        rw [restored, received_of_header rfl (decoderInv_marker hp hinv src), writtenValues_unwritten hhdr]
        exact hdecode
      · rw [seekStep_of_ne_marker hb] at hturn
        refine .goesOn _ _ hturn hs (by simp [hp]) ⟨_, _, _, _, _, _, rfl⟩ ?_
        rw [← hdecode, decodeStream_skip _ hb]
        exact congrArg _ (restored_of_seeking (by exact hp))

/-- HEADER(k): fewer than five header bytes are there. -/
theorem turnSimulates_header {s : State} {k : Fin 5} {result : StreamResult} {rest : List Symbol} (hp : s.decPhase = .header k)
    (hinv : decoderInv s) (hdecode : decodeStream (lookup s) (restored s) = some (result, rest)) :
    TurnSimulates s result rest := by
  obtain ⟨hhdr, -, -, -⟩ := (decoderInv_header_iff hp).mp hinv
  obtain ⟨hlen, -⟩ := toList_take_of_writtenTo k.isLt.le hhdr
  have hlt : (writtenValues s.decHdr).length < 5 := hlen ▸ k.isLt
  have hrestored : decodeStream (lookup s) (restored s) =
      streamFrame (lookup s) ((writtenValues s.decHdr).map Symbol.byte ++ s.src) := by
    rw [restored, received_of_header hp hinv, List.map_cons, List.cons_append, decodeStream_marker]
  cases hs : s.src with
  | nil =>
    rw [hrestored, hs, List.append_nil, streamFrame, takeBytes_short hlt] at hdecode
    cases hdecode
  | cons x src =>
    have hturn := decoderTurn_of_header hp hs
    cases hx : cutStatus x with
    | some st =>
      rw [hrestored, hs, streamFrame, takeBytes_cut hlt hx] at hdecode
      cases hdecode
      rw [headerStep_of_cut hx] at hturn
      exact .ends _ hturn (decodeEnded_respond (responseFits_headerCut _ _) rfl _ (s.draws + 1)) rfl rfl
    | none =>
      obtain ⟨b, rfl⟩ := exists_byte_of_cutStatus hx
      refine turnSimulates_of_byte hdecode hturn hs (afterHeader_ne_idle k) ⟨_, _, _, _, _, _, rfl⟩ ?_
      exact received_headerByte hp hinv b src

/-- BODY(i) with a byte: it is received, and the decode goes on. -/
theorem decoderTurn_bodyByte {s : State} {i : Nat} {b : Byte} {src : List Symbol} (hp : s.decPhase = .body i)
    (hinv : decoderInv s) (hs : s.src = .byte b :: src) :
    ∃ t, decoderTurn s = .next t ∧ t.src = src ∧ t.decPhase ≠ .idle ∧ SameButFrame s t ∧ received t = received s ++ [b] := by
  obtain ⟨l, seq, sys, comp, msg, hhdr, hi⟩ := header_of_body hp hinv
  have hl : s.decHdr[0] = some l := by rw [hhdr]; rfl
  obtain ⟨-, -, hpay, hck, -⟩ := (decoderInv_body_iff hp hl).mp hinv
  rw [decoderTurn_of_body_byte hp hl hs]
  obtain hlt | rfl | rfl : i < l.toNat ∨ i = l.toNat ∨ i = l.toNat + 1 := by omega
  · have hbound : i < 255 := by have := l.isLt; omega
    rw [Nat.min_eq_left hlt.le] at hpay
    rw [Nat.sub_eq_zero_of_le hlt.le] at hck
    refine ⟨_, bodyByte_payload hlt hbound b _, rfl, DecPhase.noConfusion, ⟨_, _, _, _, _, _, rfl⟩, ?_⟩
    rw [received_of_body hp, received_of_body rfl]
    simp [writtenValues_set hbound hpay, writtenValues_unwritten hck]
  · rw [Nat.sub_self] at hck
    refine ⟨_, bodyByte_low _ b _, rfl, DecPhase.noConfusion, ⟨_, _, _, _, _, _, rfl⟩, ?_⟩
    rw [received_of_body hp, received_of_body rfl]
    simp [writtenValues_set _ hck]
  · rw [Nat.add_sub_cancel_left] at hck
    refine ⟨_, bodyByte_high _ b _, rfl, DecPhase.noConfusion, ⟨_, _, _, _, _, _, rfl⟩, ?_⟩
    rw [received_of_body hp, received_of_verify rfl]
    simp [writtenValues_set _ hck]

/-- In BODY(i) the five header bytes are there, and `i` of the L + 2 bytes after them. -/
theorem restored_of_body {s : State} {i : Nat} (hp : s.decPhase = .body i) (hinv : decoderInv s) :
    ∃ l seq sys comp msg, ∃ bs : List Byte, s.decHdr = #v[some l, some seq, some sys, some comp, some msg] ∧ bs.length < l.toNat + 2 ∧
      ∀ find, decodeStream find (restored s) = streamBody find l seq sys comp msg (bs.map Symbol.byte ++ s.src) := by
  obtain ⟨l, seq, sys, comp, msg, hhdr, hi⟩ := header_of_body hp hinv
  have hl : s.decHdr[0] = some l := by rw [hhdr]; rfl
  obtain ⟨-, -, hpay, hck, -⟩ := (decoderInv_body_iff hp hl).mp hinv
  obtain ⟨hpaylen, -⟩ := toList_take_of_writtenTo (by have := l.isLt; omega) hpay
  obtain ⟨hcklen, -⟩ := toList_take_of_writtenTo (by omega) hck
  refine ⟨l, seq, sys, comp, msg, writtenValues s.decPay ++ writtenValues s.decCk, hhdr, ?_, fun find => ?_⟩
  · rw [List.length_append, hpaylen, hcklen]
    omega
  · have hvalues : writtenValues s.decHdr = [l, seq, sys, comp, msg] := by rw [hhdr]; rfl
    rw [← streamFrame_header, ← decodeStream_marker, restored, received_of_body hp, hvalues]
    simp

/-- BODY(i): a byte is received, End or Err cuts the frame short. -/
theorem turnSimulates_body {s : State} {i : Nat} {result : StreamResult} {rest : List Symbol} (hp : s.decPhase = .body i)
    (hinv : decoderInv s) (hdecode : decodeStream (lookup s) (restored s) = some (result, rest)) :
    TurnSimulates s result rest := by
  obtain ⟨l, seq, sys, comp, msg, bs, hhdr, hlt, hrestored⟩ := restored_of_body hp hinv
  cases hs : s.src with
  | nil =>
    rw [hrestored, hs, List.append_nil, streamBody, takeBytes_short hlt] at hdecode
    cases hdecode
  | cons x src =>
    cases hx : cutStatus x with
    | some st =>
      rw [hrestored, hs, streamBody, takeBytes_cut hlt hx] at hdecode
      cases hdecode
      have hturn := (decoderTurn_of_body hp hs).trans (bodyStep_of_cut hx i _)
      rw [bodyCut_of_header (seq := seq) (sys := sys) (comp := comp) (msg := msg) (by simp [hhdr]) (by simp [hhdr])
        (by simp [hhdr]) (by simp [hhdr])] at hturn
      exact .ends _ hturn (decodeEnded_respond (responseFits_bodyCut _ _ _ _ _ _ _) rfl _ (s.draws + 1)) rfl rfl
    | none =>
      obtain ⟨b, rfl⟩ := exists_byte_of_cutStatus hx
      obtain ⟨t, hturn, rfl, hbusy, hframe, hreceived⟩ := decoderTurn_bodyByte hp hinv hs
      exact turnSimulates_of_byte hdecode hturn hs hbusy hframe hreceived

/-- The verdict on a frame ends the decode as a whole frame does. -/
theorem decodeEnded_concludeFrame (crc : Word) (p : Packet) (s : State) :
    DecodeEnded (.whole (frameStatus (lookup s p.messageId) crc p.checksum) p) s (concludeFrame crc p s) := by
  unfold concludeFrame
  cases hst : frameStatus (lookup s p.messageId) crc p.checksum with
  | ok => exact ⟨rfl, ⟨_, rfl, responseFits_whole_iff.mpr rfl⟩, rfl, rfl, rfl, rfl, ⟨rfl, rfl, rfl⟩, rfl, rfl⟩
  | _ => exact ⟨rfl, ⟨_, rfl, responseFits_whole_iff.mpr rfl⟩, rfl, rfl, rfl, rfl, ⟨rfl, rfl, rfl⟩, rfl, rfl⟩

/-- VERIFY: the restored source starts with a whole frame, and the verdict is its result. -/
theorem turnSimulates_verify {s : State} {result : StreamResult} {rest : List Symbol} (hp : s.decPhase = .verify)
    (hinv : decoderInv s) (hdecode : decodeStream (lookup s) (restored s) = some (result, rest)) :
    TurnSimulates s result rest := by
  obtain ⟨l, seq, sys, comp, msg, lo, hi, hhdr, hck, hlen, hcrc, hpk⟩ := frame_of_verify hp hinv
  have hvalues : received s = startMarker :: l :: seq :: sys :: comp :: msg :: (writtenValues s.decPay ++ [lo, hi]) := by
    have hhdrValues : writtenValues s.decHdr = [l, seq, sys, comp, msg] := by rw [hhdr]; rfl
    have hckValues : writtenValues s.decCk = [lo, hi] := by rw [hck]; rfl
    simp [received_of_verify hp, hhdrValues, hckValues]
  rw [restored, hvalues, decodeStream_whole (lookup s) hlen, ← hcrc] at hdecode
  cases hdecode
  have hended := decodeEnded_concludeFrame s.decCrc
    ⟨seq, sys, comp, msg, payloadOf (writtenValues s.decPay), le16 lo hi⟩ s
  exact .ends _ (decoderTurn_of_verify hp hpk) hended (concludeFrame_src _ _ s) (concludeFrame_moves _ _ s)

theorem turnSimulates {s : State} {result : StreamResult} {rest : List Symbol} (hbusy : s.decPhase ≠ .idle)
    (hinv : decoderInv s) (hdecode : decodeStream (lookup s) (restored s) = some (result, rest)) :
    TurnSimulates s result rest := by
  cases hp : s.decPhase with
  | idle => exact absurd hp hbusy
  | seeking => exact turnSimulates_seeking hp hinv hdecode
  | header k => exact turnSimulates_header hp hinv hdecode
  | body i => exact turnSimulates_body hp hinv hdecode
  | verify => exact turnSimulates_verify hp hinv hdecode

/-! ### A whole decode -/

/-- A busy decoder left to itself ends as its restored source says: one turn a symbol, and VERIFY's own. -/
theorem run_busyDecoder {s : State} {result : StreamResult} {rest : List Symbol} (hm : s.moves = []) (hbusy : s.decPhase ≠ .idle)
    (hinv : decoderInv s) (hdecode : decodeStream (lookup s) (restored s) = some (result, rest)) :
    ∃ k t, k ≤ s.src.length + 1 ∧ Host.Core.run Sys2Proof.core k s = .next t ∧ t.src = rest ∧ t.moves = [] ∧
      DecodeEnded result s t := by
  induction hsrc : s.src generalizing s with
  | nil =>
    cases turnSimulates hbusy hinv hdecode with
    | ends t hturn hended ht hmoves =>
      exact ⟨1, t, le_rfl, run_succ_of_step ((step_of_moves_nil hm).trans hturn) 0, ht, hmoves.trans hm, hended⟩
    | goesOn t x hturn hs => cases hsrc.symm.trans hs
  | cons x src ih =>
    cases turnSimulates hbusy hinv hdecode with
    | ends t hturn hended ht hmoves =>
      exact ⟨1, t, Nat.le_add_left _ _, run_succ_of_step ((step_of_moves_nil hm).trans hturn) 0, ht, hmoves.trans hm, hended⟩
    | goesOn t y hturn hs hbusy' hframe hdecode' =>
      obtain ⟨-, ht⟩ := List.cons.inj (hsrc.symm.trans hs)
      obtain ⟨k, u, hk, hrun, hu, hmoves, hended⟩ := ih (hframe.moves_eq.trans hm) hbusy'
        ((decoderTurn_effect hturn).decoderInv hinv) hdecode' ht.symm
      exact ⟨k + 1, u, Nat.succ_le_succ hk, (run_succ_of_step ((step_of_moves_nil hm).trans hturn) k).trans hrun, hu, hmoves,
        hended.of_sameButFrame hframe⟩

/-- Settles O34: the start step puts nothing back, so the restored source is SRC; then one turn after another. -/
theorem streamDecodeIsOneFunction : Obligations.StreamDecodeIsOneFunction := by
  intro s result rest hd hm hdecode
  have hstart : step s = .next (startDecode { s with moves := [] }) :=
    (step_of_command (i := .decDecode) hm rfl).trans (exec_decDecode_of_idle (s := { s with moves := [] }) hd)
  have hinv : decoderInv (startDecode { s with moves := [] }) :=
    (decoderInv_seeking_iff rfl).mpr ⟨writtenTo_replicate 5, writtenTo_replicate 255, writtenTo_replicate 2⟩
  obtain ⟨k, t, hk, hrun, hsrc, hmoves, hended⟩ :=
    run_busyDecoder (s := startDecode { s with moves := [] }) rfl DecPhase.noConfusion hinv hdecode
  refine ⟨k + 1, t, Nat.succ_le_succ hk, (run_succ_of_step hstart k).trans hrun, hsrc, hmoves, ?_⟩
  obtain ⟨hidle, hresponse, hsequence, hcfg, hacc, hregistry, ⟨hphase, hseq, hframe⟩, hsink, hfaults⟩ := hended
  exact ⟨hidle, hresponse, hsequence, hcfg, hacc, hregistry, ⟨hphase, hseq, hframe⟩, hsink, hfaults⟩

end Sys2Proof.Machine
end

section
/-! What the two decoders make of whole frames, valid or not (spec/42_decoder.md R158, R168, R169). -/

namespace Sys2Proof.Machine

/-! ### A stream that starts with a whole frame -/

/-- DEC.DECODE of a source that decodes to a whole frame answers with the frame's Packet. -/
theorem run_decode_whole {s : State} {st : Status} {p : Packet} {rest : List Symbol} (hd : s.decPhase = .idle)
    (hm : s.moves = [.command [0x20]]) (hdecode : decodeStream (lookup s) s.src = some (.whole st p, rest)) :
    ∃ k t, Host.Core.run Sys2Proof.core k s = .next t ∧ t.decPhase = .idle ∧ t.src = rest ∧
      t.responses = s.responses.withDecoder ⟨st, some p, none⟩ ∧ t.decSeq = if st = .ok then p.sequenceId else s.decSeq := by
  obtain ⟨k, t, -, hrun, hsrc, -, hended⟩ := streamDecodeIsOneFunction s _ rest hd hm hdecode
  obtain ⟨r, hr, hfits⟩ := hended.response
  rw [responseFits_whole_iff.mp hfits] at hr
  exact ⟨k, t, hrun, hended.idle, hsrc, hr, hended.sequence⟩

/-- As many bytes as a frame has after its length byte are its other header bytes, its payload and its checksum bytes. -/
theorem exists_frame_of_length {l : Byte} {tail : List Byte} (h : tail.length + 2 = 8 + l.toNat) :
    ∃ seq sys comp msg lo hi, ∃ payload : List Byte, payload.length = l.toNat ∧
      tail = seq :: sys :: comp :: msg :: (payload ++ [lo, hi]) := by
  match tail with
  | seq :: sys :: comp :: msg :: body =>
    have hbody : body.length = l.toNat + 2 := by simp only [List.length_cons] at h; omega
    obtain ⟨lo, hi, hlast⟩ := List.length_eq_two.mp (show (body.drop l.toNat).length = 2 by rw [List.length_drop]; omega)
    refine ⟨seq, sys, comp, msg, lo, hi, body.take l.toNat, ?_, ?_⟩
    · rw [List.length_take]
      omega
    · rw [← hlast, List.take_append_drop]
  | [] | [_] | [_, _] | [_, _, _] => exact absurd h (by simp only [List.length_cons, List.length_nil]; omega)

/-- Settles O35: both decoders give the verdict on one Packet and one sum. -/
theorem streamAndBufferAgree : Obligations.StreamAndBufferAgree := by
  intro s l tail hd hm hs hlen hmax
  obtain ⟨seq, sys, comp, msg, lo, hi, payload, hpay, rfl⟩ := exists_frame_of_length hlen
  have hdecode := decodeStream_whole (lookup s) (seq := seq) (sys := sys) (comp := comp) (msg := msg) (lo := lo) (hi := hi) hpay []
  rw [List.append_nil, ← show s.src = _ from hs] at hdecode
  obtain ⟨k, t, hrun, hidle, hsrc, hresp, hseq⟩ := run_decode_whole hd hm hdecode
  have hbuffer := exec_decDecodeBuf_whole (seq := seq) (sys := sys) (comp := comp) (msg := msg) (lo := lo) (hi := hi) hd hpay
    (hlen ▸ hmax)
  have hended := decodeEnded_concludeFrame (crcOver crcInitial (l :: seq :: sys :: comp :: msg :: payload))
    ⟨seq, sys, comp, msg, payloadOf payload, le16 lo hi⟩ (startBuffer s)
  obtain ⟨r, hr, hfits⟩ := hended.response
  rw [responseFits_whole_iff.mp hfits] at hr
  exact ⟨k, t, _, hrun, hbuffer, hidle, hsrc, hresp.trans hr.symm, hseq.trans hended.sequence.symm, _, _, hr⟩

/-- Settles O36: the garbage is skipped, and the frame after it decodes to its Packet. -/
theorem resynchronizationSkipsGarbage : Obligations.ResynchronizationSkipsGarbage := by
  rintro s garbage _ seq sys comp msg payload hgarbage ⟨hlen, x, hx, rfl⟩ hd hm hs
  have hdecode : decodeStream (lookup s) s.src =
      some (.whole .ok (framePacket seq sys comp msg payload x), [.endOfSource]) := by
    rw [hs, List.map_append, List.append_assoc, decodeStream_garbage _ hgarbage, decodeStream_frameBytes hlen hx]
  obtain ⟨k, t, hrun, hidle, hsrc, hresp, hseq⟩ := run_decode_whole hd hm hdecode
  exact ⟨k, t, framePacket seq sys comp msg payload x, hrun, hsrc, hidle, hresp, hseq, rfl, rfl, rfl, rfl,
    payloadOf_bytes_of_le hlen, x, hx, framePacket_checksum _ _ _ _ _ _⟩

/-! ### A frame with one byte changed -/

/-- Sequences of one length that differ at one offset: the second is the first with another byte written there. -/
theorem exists_set_of_differ {F F' : List Byte} {j : Nat} (hlen : F'.length = F.length) (hj : F'[j]? ≠ F[j]?)
    (hsame : ∀ k, k ≠ j → F'[k]? = F[k]?) : ∃ (h : j < F.length) (b : Byte), b ≠ F[j] ∧ F' = F.set j b := by
  have hlt : j < F.length := by
    by_contra hle
    rw [List.getElem?_eq_none (by omega), List.getElem?_eq_none (by omega)] at hj
    exact hj rfl
  have hlt' : j < F'.length := hlen ▸ hlt
  rw [List.getElem?_eq_getElem hlt', List.getElem?_eq_getElem hlt] at hj
  refine ⟨hlt, F'[j], fun heq => hj (congrArg some heq), List.ext_getElem? fun k => ?_⟩
  by_cases hk : k = j
  · rw [hk, List.getElem?_set_self hlt, List.getElem?_eq_getElem hlt']
  · rw [List.getElem?_set_ne (Ne.symm hk), hsame k hk]

/-- Another byte at one offset changes the sum (40_checksum.md R109). -/
theorem crcOver_set_ne {bs : List Byte} {i : Nat} {b : Byte} (hi : i < bs.length) (hb : b ≠ bs[i]) (acc : Word)
    (suffix : List Byte) : crcOver acc (bs.set i b ++ suffix) ≠ crcOver acc (bs ++ suffix) := by
  have hset : bs.set i b ++ suffix = bs.take i ++ b :: (bs.drop (i + 1) ++ suffix) := by
    rw [List.set_eq_take_append_cons_drop, if_pos hi, List.append_assoc, List.cons_append]
  have hbs : bs ++ suffix = bs.take i ++ bs[i] :: (bs.drop (i + 1) ++ suffix) := by
    rw [← List.cons_append, List.getElem_cons_drop, ← List.append_assoc, List.take_append_drop]
  rw [hset, hbs]
  exact crcDetectsOneChangedByte acc _ _ b bs[i] hb

/-- Another byte at an offset that is neither L nor the message id leaves L, the message id and the number of payload bytes. -/
theorem set_covered (l seq sys comp msg b : Byte) (payload : List Byte) {i : Nat} (hl : i ≠ 0) (hmsg : i ≠ 4) :
    ∃ seq' sys' comp' payload', payload'.length = payload.length ∧
      (l :: seq :: sys :: comp :: msg :: payload).set i b = l :: seq' :: sys' :: comp' :: msg :: payload' := by
  match i with
  | 0 => exact absurd rfl hl
  | 1 => exact ⟨b, sys, comp, payload, rfl, rfl⟩
  | 2 => exact ⟨seq, b, comp, payload, rfl, rfl⟩
  | 3 => exact ⟨seq, sys, b, payload, rfl, rfl⟩
  | 4 => exact absurd rfl hmsg
  | i + 5 => exact ⟨seq, sys, comp, payload.set i b, List.length_set, rfl⟩

/-- Another low or high byte is another checksum. -/
theorem set_checksum_ne (lo hi b : Byte) {i : Nat} (h : i < 2) (hb : b ≠ [lo, hi][i]) :
    ∃ lo' hi', [lo, hi].set i b = [lo', hi'] ∧ le16 lo hi ≠ le16 lo' hi' := by
  match i with
  | 0 =>
    refine ⟨b, hi, rfl, fun heq => hb ?_⟩
    rw [← loByte_le16 b hi, ← heq, loByte_le16]
    rfl
  | 1 =>
    refine ⟨lo, b, rfl, fun heq => hb ?_⟩
    rw [← hiByte_le16 lo b, ← heq, hiByte_le16]
    rfl

/-- CHECKSUM_MISMATCH from both decoders, with one Packet, DEC_SEQ as it was and nothing taken after the frame. -/
def Rejected (s : State) (F : List Byte) : Prop :=
  ∃ t p, exec (.decDecodeBuf F) s = .next t ∧
    t.responses = s.responses.withDecoder ⟨.checksumMismatch, some p, none⟩ ∧ t.decSeq = s.decSeq ∧
    ∀ after, decodeStream (lookup s) (F.map Symbol.byte ++ after) = some (.whole .checksumMismatch p, after)

/-- A frame of a known id whose sum is not its checksum is rejected. -/
theorem rejected_of_sum_ne {s : State} {l seq sys comp msg lo hi x : Byte} {payload : List Byte} (hd : s.decPhase = .idle)
    (hlen : payload.length = l.toNat) (hmax : 8 + l.toNat ≤ s.cfg.maxBuf) (hx : lookup s msg = some x)
    (hne : crcOver crcInitial ((l :: seq :: sys :: comp :: msg :: payload) ++ [x]) ≠ le16 lo hi) :
    Rejected s (startMarker :: ((l :: seq :: sys :: comp :: msg :: payload) ++ [lo, hi])) := by
  have hmismatch := concludeFrame_idle_mismatch (b := startBuffer s)
    (p := ⟨seq, sys, comp, msg, payloadOf payload, le16 lo hi⟩) hd hx hne
  refine ⟨_, _, (exec_decDecodeBuf_whole hd hlen hmax).trans (congrArg _ hmismatch), rfl, rfl, fun after => ?_⟩
  refine (decodeStream_whole (lookup s) hlen after).trans ?_
  rw [hx, frameStatus_of_mismatch hne]

/-- A valid frame with another byte after its marker, but for L and the message id: in what the checksum covers it changes the sum, in
the checksum bytes the checksum. -/
theorem rejected_of_set {s : State} {l seq sys comp msg lo hi x b : Byte} {payload : List Byte} {i : Nat}
    (hd : s.decPhase = .idle) (hlen : payload.length = l.toNat) (hmax : 8 + l.toNat ≤ s.cfg.maxBuf)
    (hx : lookup s msg = some x)
    (hsum : crcOver crcInitial ((l :: seq :: sys :: comp :: msg :: payload) ++ [x]) = le16 lo hi) (h0 : i ≠ 0) (h4 : i ≠ 4)
    (hlt : i < ((l :: seq :: sys :: comp :: msg :: payload) ++ [lo, hi]).length)
    (hb : b ≠ ((l :: seq :: sys :: comp :: msg :: payload) ++ [lo, hi])[i]) :
    Rejected s (startMarker :: ((l :: seq :: sys :: comp :: msg :: payload) ++ [lo, hi]).set i b) := by
  rw [List.set_append]
  split
  · rename_i hcovered
    rw [List.getElem_append_left hcovered] at hb
    have hne := crcOver_set_ne hcovered hb crcInitial [x]
    obtain ⟨seq', sys', comp', payload', hlen', hset⟩ := set_covered l seq sys comp msg b payload h0 h4
    rw [hsum, hset] at hne
    rw [hset]
    exact rejected_of_sum_ne hd (hlen'.trans hlen) hmax hx hne
  · rename_i hcovered
    have hle := Nat.le_of_not_lt hcovered
    rw [List.getElem_append_right hle] at hb
    rw [List.length_append] at hlt
    obtain ⟨lo', hi', hset, hne⟩ := set_checksum_ne lo hi b (Nat.sub_lt_left_of_lt_add hle hlt) hb
    rw [hset]
    exact rejected_of_sum_ne hd hlen hmax hx (hsum ▸ hne)

/-- Settles O38: the changed frame is the frame with one byte written, at an offset that is neither L's nor the message id's. -/
theorem corruptedByteIsRejected : Obligations.CorruptedByteIsRejected := by
  rintro s _ F' seq sys comp msg payload (_ | i) hd ⟨hlen, x, hx, rfl⟩ hmax h2 h5 hlength hj hsame
  · omega
  obtain ⟨hlt, b, hb, rfl⟩ := exists_set_of_differ hlength hj hsame
  have hl := length_eq_toNat_ofNat hlen
  rw [frameBytes_length, hl] at hmax
  simp only [frameBytes_eq_cons] at hlt hb ⊢
  have hsum := (frameSum_eq seq sys comp msg payload x).symm.trans (le16_loByte_hiByte _).symm
  exact rejected_of_set (i := i) hd hl hmax hx hsum (by omega) (by omega) (Nat.lt_of_succ_lt_succ hlt) hb

end Sys2Proof.Machine
end
